-- ==== Sys2Proof/Word.lean ====
section
/-!
DEFINITION. The widths of the block's registers (00_scope.md R11, R12, R13): every value is an unsigned bit
vector, numbered from bit 0.
-/

namespace Sys2Proof

/-- A control and status register, and a command word (R11, R80). -/
abbrev Word := BitVec 32

/-- A code register (R11): codes are `0 .. MAX_CODE-1` and `MAX_CODE` is at most 65536. -/
abbrev Code := BitVec 16

/-- A symbol. A symbol register is `SYM_W` bits wide and `SYM_W` is at most 15 (R6, R11); the narrower widths are
the symbols below `R = 2^SYM_W`, which the invariants of Safety.lean state (log entry 14). -/
abbrev Sym := BitVec 15

/-- The next-code counter (R11): 17 bits, because it can reach `MAX_CODE = 65536`. -/
abbrev NextCode := BitVec 17

end Sys2Proof
end

