-- ==== Sys2Proof/Config.lean ====
section
/-!
DEFINITION. What is fixed at synthesis (00_scope.md R6, R8; 10_state.md R21; 20_memory.md R60) and the values the
spec leaves free. The parameters derived from these (`R`, `EOF_CODE`, `W_MIN`) are in Machine/Params.lean.
-/

namespace Sys2Proof

/-- The synthesis parameters. A state carries its configuration as plain data, so that every statement holds for
every legal configuration and not for one instance of it (R21, decision D2; log entry 2). -/
structure Config where
  /-- `SYM_W`, the symbol width in bits (R6). -/
  symW : Nat
  /-- `MAX_CODE`, the size of the code space (R8). -/
  maxCode : Nat
  /-- `CSR_BASE`, where the platform puts the 64-byte register window (R60). -/
  csrBase : Nat
deriving DecidableEq, Repr

/-- The spec's default instance: `SYM_W = 8` (R6), `MAX_CODE = 4096` (R8). `CSR_BASE` is OPEN in the spec (decision
D5); 0 is a DESIGN CHOICE (log entry 1). -/
def Config.standard : Config := { symW := 8, maxCode := 4096, csrBase := 0 }

/-- FREE VALUES: what a host read of `RESULT`, `RLEN`, `NEXT_CODE` or `STATUS.FULL` returns while `BUSY = 1`, which the
spec leaves open (10_state.md R34; decision D19). The argument is the model's own read counter. It has no body:
nothing can be proved about its values (log entry 6). -/
opaque Config.freeRead : Nat → Word

end Sys2Proof
end

