-- ==== Sys2Proof/Machine/Params.lean ====
section
/-!
DEFINITION. The parameters derived from the configuration (00_scope.md R6 to R10).
-/

namespace Sys2Proof

/-- `R = 2^SYM_W`, the number of literal codes (R7). -/
def Config.r (c : Config) : Nat := 2 ^ c.symW

/-- `EOF_CODE = R` (R7). -/
def Config.eofCode (c : Config) : Nat := c.r

/-- `W_MIN`, the smallest `n` such that `2^n >= MAX_CODE` (R9). For a legal `MAX_CODE` it is at most 16. -/
def Config.wMin (c : Config) : Nat :=
  ((List.range 17).find? fun n => decide (c.maxCode ≤ 2 ^ n)).getD 17

/-- The limits on the parameters: `1 <= SYM_W <= 15` (R6) and `R + 1 <= MAX_CODE <= 65536` (R8). -/
def Config.legal (c : Config) : Bool :=
  decide (1 ≤ c.symW) && decide (c.symW ≤ 15) && decide (c.r + 1 ≤ c.maxCode) && decide (c.maxCode ≤ 65536)

/-- A codec command's width is legal: `W_MIN <= W <= 16` (R10, 30_encoding.md R83). -/
def Config.widthOk (c : Config) (w : Nat) : Bool := decide (c.wMin ≤ w) && decide (w ≤ 16)

end Sys2Proof
end

