-- ==== Sys2Proof/Machine/State.lean ====
section
/-!
DEFINITION. The state of the block (10_state.md), the transitions waiting to happen (70_reset_and_hazards.md R288),
the reasons a step can stop, and the state after reset (R53, R271). Plain data throughout.
-/

namespace Sys2Proof.Machine

/-- A node reference (00_scope.md R18): the root of the trie, or the node that holds code `c`. -/
inductive NodeRef where
  | root
  | node (c : Code)
deriving DecidableEq, Repr

/-- A bound entry of `TRIE` (10_state.md R41): the node is the child of `parent` along the edge labelled `sym`. -/
structure TrieEntry where
  parent : NodeRef
  sym : Sym
deriving DecidableEq, Repr

/-- A bound entry of `DTAB` (10_state.md R46): a symbol sequence, never empty. -/
structure SymSeq where
  head : Sym
  tail : List Sym
deriving DecidableEq, Repr

/-- A table indexed by code (10_state.md R41, R46), as the list of its bound entries. The canonical form
(`Table.wf`, Machine/Tables.lean) has strictly rising codes; a code that is not listed reads as `none`. -/
abbrev Table (α : Type) := List (Code × α)

/-- An event of the output port `OUT` (10_state.md R49). -/
inductive OutEvent where
  /-- `Code(v, W)`: a `W`-bit code value. -/
  | code (v : Code) (w : Nat)
  /-- `Sym(s)`: a symbol. -/
  | sym (s : Sym)
  /-- `Close`: the sink's close. -/
  | close
deriving DecidableEq, Repr

/-- The engine's state register `ESTATE` (10_state.md R35). -/
inductive EState where
  | idle
  | decode
  | dLkp
  | dLpm
  | cInit
  | cScan
  | cWalk
  | cEof
  | cClose
  | eInit
  | eFirst
  | eEmit
  | eLook
  | eClose
deriving DecidableEq, Repr

/-- The cause of an error (60_exceptions.md R241). `NONE` is no error and needs no constructor. -/
inductive Cause where
  | illegalCmd
  | badWidth
  | badArg
  | dictDup
  | codeBound
  | dictMiss
  | inEnd
  | badCode
deriving DecidableEq, Repr

/-- A transition that can come next (70_reset_and_hazards.md R288), or a change an environment makes to its port
(00_scope.md R5, 10_state.md R47 to R49). -/
inductive Event where
  /-- The engine's turn: one engine step. -/
  | engine
  /-- A host read of `size` bytes at byte address `addr`. -/
  | read (addr size : Nat)
  /-- A host write of `size` bytes at byte address `addr`. -/
  | write (addr size : Nat) (v : Word)
  /-- One turn of the host's `WAIT` loop (30_encoding.md R93): read `STATUS`, and come again while `BUSY = 1`. -/
  | poll
  /-- A reset by the platform (R270). -/
  | reset
  /-- The input environment gives `SYM_IN` new contents. -/
  | fillSymIn (xs : List Sym)
  /-- The input environment gives `CODE_IN` new contents. -/
  | fillCodeIn (xs : List Code)
  /-- The output environment takes the events of `OUT` away. -/
  | takeOut
deriving DecidableEq, Repr

/-- What one host read returned: the register offset and the value. -/
structure HostRead where
  offset : Nat
  value : Word
deriving DecidableEq, Repr

/-- The whole state. -/
structure State where
  /-- The synthesis parameters (10_state.md R21): no step changes them. -/
  cfg : Config
  /-- `STATUS.BUSY` (R24). -/
  busy : Bool
  /-- `STATUS.DONE` (R24). -/
  done : Bool
  /-- `STATUS.ERR` (R24). -/
  err : Bool
  /-- `STATUS.OVR` (R24). -/
  ovr : Bool
  /-- `STATUS.ERRCODE` (R24, R241). -/
  errcode : BitVec 4
  /-- `STATUS.W` (R24). -/
  statW : BitVec 5
  /-- `ARG_P` (R25). -/
  argP : Word
  /-- `ARG_S` (R26). -/
  argS : Word
  /-- `ARG_C` (R27). -/
  argC : Word
  /-- `RESULT` (R28). -/
  result : Word
  /-- `RLEN` (R29). -/
  rlen : Word
  /-- `NEXT_CODE` (R30). -/
  nextCode : NextCode
  /-- `ERRINFO` (R31, R242). -/
  errinfo : Word
  /-- `ESTATE` (R35). -/
  estate : EState
  /-- `CUR` (R36). -/
  cur : NodeRef
  /-- `LEN` (R37). -/
  len : Word
  /-- `CODE` (R38). -/
  code : Code
  /-- `LCMD`, the latched command word (R39). -/
  lcmd : Word
  /-- `LP`, the latched `ARG_P` (R39). -/
  lp : Word
  /-- `LS`, the latched `ARG_S` (R39). -/
  ls : Word
  /-- `LC`, the latched `ARG_C` (R39). -/
  lc : Word
  /-- `WL`, the code width of the running codec job (R39, R83). -/
  wl : BitVec 5
  /-- `CNT` (R40). -/
  cnt : Word
  /-- `TRIE` (R41). -/
  trie : Table TrieEntry
  /-- `DTAB` (R46). -/
  dtab : Table SymSeq
  /-- `SYM_IN` (R47). -/
  symIn : List Sym
  /-- `CODE_IN` (R48). -/
  codeIn : List Code
  /-- `OUT` (R49), oldest event first. -/
  out : List OutEvent
  /-- The model's own: the transitions to come (R288; log entry 5). -/
  agenda : List Event
  /-- The model's own: what the host has read, oldest first (log entry 8). -/
  hostReads : List HostRead
  /-- The model's own: the number of host reads so far, which selects the free values of mid-job reads (R34; log
  entry 6). -/
  freeCtr : Nat
deriving DecidableEq, Repr

/-- The states no run reaches, in which the rules' pseudocode has no meaning. Each stop is SAFE: the hardware is never
in such a state, so nothing true of it is lost (log entry 11). -/
inductive Fault where
  /-- Raised by D_LKP, D_LPM and C_WALK when they take `code(CUR)` with `CUR = ROOT`: "When `CNT = LC >= 1`, `CUR` is
  never `ROOT`" (40_dictionary.md R116). Safe. -/
  | codeOfRoot
  /-- Raised by E_EMIT and E_LOOK when `DTAB[CODE]` is unbound: "always bound here" (42_expand.md R185). Safe. -/
  | unboundDecodeEntry
deriving DecidableEq, Repr

/-- What the spec gives no meaning: each refusal is SAFE (the model stops, the hardware may do anything). -/
inductive Refusal where
  /-- An instruction without a meaning, by its mnemonic. No arm of `exec` answers it: every command is modelled. Safe. -/
  | notModelled (mnemonic : String)
  /-- A host access that is not 4 bytes wide (20_memory.md R65). Raised by host reads and writes. Safe. -/
  | accessSize
  /-- A host access at an offset that is not a multiple of 4 (R65). Raised by host reads and writes. Safe. -/
  | accessAlignment
  /-- A host access outside the register window (R60, R65). Raised by host reads and writes. Safe. -/
  | outsideWindow
  /-- An environment changes a port while a job runs: it may do so only while `BUSY = 0` (70_reset_and_hazards.md
  R288). Raised by `fillSymIn`, `fillCodeIn` and `takeOut`. Safe (log entry 7). -/
  | portWhileBusy
  /-- A refill of `SYM_IN` with an item that is not a `SYM_W`-bit value (10_state.md R47). Raised by `fillSymIn`. Safe
  (log entry 7). -/
  | symbolTooWide
  /-- A configuration outside the limits of 00_scope.md R6 and R8: "not modelled at all (refused)" (decision D4).
  Raised by every step. Safe (log entry 12). -/
  | illegalConfig
deriving DecidableEq, Repr

/-- The state after reset of a block synthesised with the parameters `c` (10_state.md R53, 70_reset_and_hazards.md
R271). The engine registers `CUR` to `WL` are unspecified in the spec and named here (log entry 3); the ports belong
to the environment and start empty here (log entry 4). -/
def State.resetOf (c : Config) : State where
  cfg := c
  busy := false
  done := false
  err := false
  ovr := false
  errcode := 0
  statW := 0
  argP := 0
  argS := 0
  argC := 0
  result := 0
  rlen := 0
  nextCode := 0
  errinfo := 0
  estate := .idle
  cur := .root
  len := 0
  code := 0
  lcmd := 0
  lp := 0
  ls := 0
  lc := 0
  wl := 0
  cnt := 0
  trie := []
  dtab := []
  symIn := []
  codeIn := []
  out := []
  agenda := []
  hostReads := []
  freeCtr := 0

/-- The machine right after reset, in the spec's default configuration. -/
def State.reset : State := State.resetOf Config.standard

end Sys2Proof.Machine
end

