-- ==== Sys2Proof/Machine/Tables.lean ====
section
/-!
DEFINITION. The tables `TRIE` and `DTAB` (10_state.md R41 to R46): reading and writing one entry, the canonical form,
the seeded tables, and the functions `child` and `seq` of the spec.
-/

namespace Sys2Proof.Machine

/-- `T[c]`: the entry of code `c`, `none` when it is unbound. -/
def Table.get {α : Type} : Table α → Code → Option α
  | [], _ => none
  | (k, v) :: rest, c => if k = c then some v else Table.get rest c

/-- `T[c] <- some a`, keeping the codes in rising order. -/
def Table.set {α : Type} : Table α → Code → α → Table α
  | [], c, a => [(c, a)]
  | (k, v) :: rest, c, a =>
    if c.toNat < k.toNat then (c, a) :: (k, v) :: rest
    else if c = k then (c, a) :: rest
    else (k, v) :: Table.set rest c a

/-- The canonical form of a table of `n` entries: strictly rising codes, all below `n`. -/
def Table.wf {α : Type} (n : Nat) (t : Table α) : Prop :=
  t.Pairwise (fun x y => x.1.toNat < y.1.toNat) ∧ ∀ x ∈ t, x.1.toNat < n

/-- The literal code of a symbol: its own value (30_encoding.md R88). -/
def litCode (h : Sym) : Code := h.setWidth 16

/-- The next-code counter as a code register's value. Used only below `MAX_CODE <= 65536`, where it keeps the value. -/
def codeOfNext (n : NextCode) : Code := n.setWidth 16

/-- `SEED_T` (10_state.md R45): the literal `c` is the child of `ROOT` along symbol `c`, for every `c < R`. -/
def seedTrie (c : Config) : Table TrieEntry :=
  (List.range c.r).map fun n => (BitVec.ofNat 16 n, { parent := .root, sym := BitVec.ofNat 15 n })

/-- `SEED_D` (10_state.md R46): the literal `c` stands for the sequence `[c]`, for every `c < R`. -/
def seedDtab (c : Config) : Table SymSeq :=
  (List.range c.r).map fun n => (BitVec.ofNat 16 n, { head := BitVec.ofNat 15 n, tail := [] })

/-- `child(p, s)` (10_state.md R43): the code whose entry is `(p, s)`. -/
def child : Table TrieEntry → NodeRef → Sym → Option Code
  | [], _, _ => none
  | (c, e) :: rest, p, h => if e.parent = p ∧ e.sym = h then some c else child rest p h

/-- `seq(c)` by following at most `fuel` parent links (10_state.md R44). -/
def seqFuel (t : Table TrieEntry) : Nat → Code → Option (List Sym)
  | 0, _ => none
  | fuel + 1, c =>
    match Table.get t c with
    | none => none
    | some e =>
      match e.parent with
      | .root => some [e.sym]
      | .node q => (seqFuel t fuel q).map fun xs => xs ++ [e.sym]

/-- `seq(c)` (10_state.md R44): the sequence a bound code stands for, `none` for an unbound one. A parent chain visits
each entry at most once (R42 T2), so the number of entries is fuel enough (log entry 21). -/
def seqOf (t : Table TrieEntry) (c : Code) : Option (List Sym) := seqFuel t t.length c

/-- The symbols of a decode entry, first to last (10_state.md R46). -/
def SymSeq.toList (x : SymSeq) : List Sym := x.head :: x.tail

/-- `xs ++ [s]` (00_scope.md R14). -/
def SymSeq.snoc (x : SymSeq) (h : Sym) : SymSeq := { x with tail := x.tail ++ [h] }

end Sys2Proof.Machine
end

