-- ==== Sys2Proof/Machine/Operands.lean ====
section
/-!
DEFINITION. The operands of the commands: the latched registers `LP`, `LS` and `LC` and their validity (10_state.md
R25 to R27, 30_encoding.md R84, 40_dictionary.md R111), and the bits of a `CODE_IN` item the engine uses (R48).
-/

namespace Sys2Proof.Machine

/-- `PCODE = v[15:0]` (10_state.md R25). -/
def pCode (v : Word) : Code := v.extractLsb' 0 16

/-- `ROOT = v[16]` (10_state.md R25). -/
def pRoot (v : Word) : Bool := v.getLsbD 16

/-- `validP` (40_dictionary.md R111). -/
def validP (c : Config) (v : Word) : Bool :=
  v.extractLsb' 17 15 == 0#15 &&
    ((pRoot v && pCode v == 0#16) || (!pRoot v && decide ((pCode v).toNat < c.maxCode)))

/-- `nodeP` (40_dictionary.md R111). -/
def nodeP (v : Word) : NodeRef := if pRoot v then .root else .node (pCode v)

/-- `validS` (40_dictionary.md R111): `v < R`. -/
def validS (c : Config) (v : Word) : Bool := decide (v.toNat < c.r)

/-- The symbol of a valid `ARG_S` value. -/
def symOf (v : Word) : Sym := v.setWidth 15

/-- `ARG_C` as the code to bind (10_state.md R27): `v < MAX_CODE` and `v != EOF_CODE`. -/
def validC (c : Config) (v : Word) : Bool := decide (v.toNat < c.maxCode) && decide (v.toNat ≠ c.eofCode)

/-- The code of a valid `ARG_C` value. -/
def codeOf (v : Word) : Code := v.setWidth 16

/-- `ARG_C` as a length (10_state.md R27): `v >= 1`. -/
def validLen (v : Word) : Bool := decide (v ≠ 0)

/-- The parent a valid `LP` names is unbound (40_dictionary.md R114): then its code, else none. -/
def unboundParent (t : Table TrieEntry) : NodeRef → Option Code
  | .root => none
  | .node q => if (Table.get t q).isSome then none else some q

/-- `zext_16(x[W-1:0])`: the low `W` bits of a `CODE_IN` item (10_state.md R48). -/
def lowBits (x : Code) (w : Nat) : Code := BitVec.ofNat 16 (x.toNat % 2 ^ w)

end Sys2Proof.Machine
end

