-- ==== Sys2Proof/Machine/Flags.lean ====
section
/-!
DEFINITION. The flags and the words built from fields: `STATUS` and its view `FULL` (10_state.md R24), `RESULT` with its
`HIT` bit (R28), `PARAM` (R32), the cause codes (60_exceptions.md R241), and the guard of a codec command's width.
-/

namespace Sys2Proof.Machine

/-- The value of `STATUS.ERRCODE` for a cause (60_exceptions.md R241). -/
def Cause.code : Cause → BitVec 4
  | .illegalCmd => 1
  | .badWidth => 2
  | .badArg => 3
  | .dictDup => 4
  | .codeBound => 5
  | .dictMiss => 6
  | .inEnd => 7
  | .badCode => 8

/-- `STATUS.FULL`, "always equal to `(NEXT_CODE[16:0] == MAX_CODE)`" (10_state.md R24). -/
def fullFlag (s : State) : Bool := decide (s.nextCode.toNat = s.cfg.maxCode)

/-- There is room in the table: `NEXT_CODE < MAX_CODE` (41_compress.md R155, 42_expand.md R187). -/
def hasRoom (s : State) : Bool := decide (s.nextCode.toNat < s.cfg.maxCode)

/-- The `STATUS` word with the value `full` in its FULL bit (10_state.md R24); reserved bits are 0. -/
def statusWith (s : State) (full : Bool) : Word :=
  0#11 ++ s.statW ++ 0#4 ++ s.errcode ++ 0#3 ++ BitVec.ofBool full ++ BitVec.ofBool s.ovr ++ BitVec.ofBool s.err ++
    BitVec.ofBool s.done ++ BitVec.ofBool s.busy

/-- The `STATUS` word as the rules leave it (10_state.md R24). -/
def statusWord (s : State) : Word := statusWith s (fullFlag s)

/-- `RESULT` on a hit (10_state.md R28): `{1'b1, 15'b0, c[15:0]}`. -/
def hitResult (c : Code) : Word := 1#1 ++ 0#15 ++ c

/-- `RESULT` on a miss (40_dictionary.md R115). -/
def missResult : Word := 0

/-- `PARAM` (10_state.md R22, R32): `{(MAX_CODE-1)[15:0], 12'b0, SYM_W[3:0]}`. -/
def paramWord (c : Config) : Word := BitVec.ofNat 16 (c.maxCode - 1) ++ 0#12 ++ BitVec.ofNat 4 c.symW

/-- A code read from `CODE_IN` is a literal: `v < R` (30_encoding.md R88). -/
def isLiteral (c : Config) (v : Code) : Bool := decide (v.toNat < c.r)

/-- A code is `EOF_CODE` (30_encoding.md R88). -/
def isEof (c : Config) (v : Code) : Bool := decide (v.toNat = c.eofCode)

end Sys2Proof.Machine
end

