-- ==== Sys2Proof/Machine/Ops.lean ====
section
/-!
DEFINITION. The named operations the rules share: the successful end of a command, the error entry and the return from
it, command acceptance, the port primitives (00_scope.md R15), the prefix walk step, and reset.
-/

namespace Sys2Proof.Machine

/-- A step's outcome. -/
abbrev Result := Host.Outcome State Fault Refusal

/-- `complete()`, the successful end of any command (43_control.md R226). -/
def State.complete (s : State) : State := { s with busy := false, done := true, estate := .idle }

/-- ERROR ENTRY: `raise X(info)` (60_exceptions.md R243). The only way an error is taken; the info is already
zero-extended to 32 bits (R242). -/
def State.raise (x : Cause) (info : Word) (s : State) : State :=
  { s with errcode := x.code, errinfo := info, err := true, done := false, busy := false, estate := .idle }

/-- THE WAY BACK FROM AN ERROR, `CLEAR`'s own writes (43_control.md R221; 60_exceptions.md R248). -/
def State.clearError (s : State) : State := { s with err := false, errcode := 0, ovr := false, errinfo := 0 }

/-- Acceptance of the command word `v` (43_control.md R224): the word and the operands are latched at once. -/
def State.accept (v : Word) (s : State) : State :=
  { s with lcmd := v, lp := s.argP, ls := s.argS, lc := s.argC, busy := true, done := false, estate := .decode }

/-- A dropped `CMD` write: "Its only effect is `STATUS.OVR <- 1`" (43_control.md R222, R223). -/
def State.drop (s : State) : State := { s with ovr := true }

/-- A `CMD` write of `v` is accepted (43_control.md R222 to R224). -/
def State.accepts (s : State) (v : Word) : Bool := !s.busy && (!s.err || v == 0x00000001#32)

/-- A write of `v` to `CMD` (43_control.md R222 to R224). -/
def State.requestCmd (v : Word) (s : State) : State := if s.accepts v then s.accept v else s.drop

/-- Appends events to `OUT` (10_state.md R49). -/
def State.emit (es : List OutEvent) (s : State) : State := { s with out := s.out ++ es }

/-- `CodeWrite(v, WL)` (00_scope.md R15). -/
def State.codeWrite (v : Code) (s : State) : State := s.emit [.code v s.wl.toNat]

/-- `SinkClose()` (00_scope.md R15). -/
def State.sinkClose (s : State) : State := s.emit [.close]

/-- `SymPeek()` (10_state.md R47): the head of `SYM_IN`, `none` for `END`. -/
def State.symPeek (s : State) : Option Sym := s.symIn.head?

/-- `SymPop()` (10_state.md R47): removes the head of `SYM_IN`. -/
def State.symPop (s : State) : State := { s with symIn := s.symIn.tail }

/-- `CodeRead()` (10_state.md R48): the low `WL` bits of the first item, which is consumed; `none` for `END`, which
changes nothing. -/
def State.codeRead (s : State) : Option (Code × State) :=
  match s.codeIn with
  | [] => none
  | x :: rest => some (lowBits x s.wl.toNat, { s with codeIn := rest })

/-- What one step of the prefix walk finds (40_dictionary.md R112). -/
inductive WalkResult where
  /-- `GO(C(c))`: the edge exists; its symbol is to be consumed. -/
  | go (c : Code)
  /-- `STOP(END)`: no symbol is left. -/
  | stopEnd
  /-- `STOP(h)`: no edge for the symbol `h`, which stays at the head. -/
  | stopAt (h : Sym)
deriving DecidableEq, Repr

/-- `walk_step(CUR)` (40_dictionary.md R112). The symbol of a `go` is consumed by `State.walkTo`. -/
def State.walkStep (s : State) : WalkResult :=
  match s.symPeek with
  | none => .stopEnd
  | some h =>
    match child s.trie s.cur h with
    | none => .stopAt h
    | some c => .go c

/-- `SymPop() ; CUR <- C(c)`: the walk moves to the child it found (40_dictionary.md R112). -/
def State.walkTo (c : Code) (s : State) : State := { s.symPop with cur := .node c }

/-- A RESET (70_reset_and_hazards.md R270 to R272): every piece of state takes the value of 10_state.md R53. The ports
keep what they hold, and so do the model's own fields. -/
def State.platformReset (s : State) : State :=
  { State.resetOf s.cfg with
    symIn := s.symIn, codeIn := s.codeIn, out := s.out
    agenda := s.agenda, hostReads := s.hostReads, freeCtr := s.freeCtr }

/-- Decode of a legal codec command's width: `WL <- w ; STATUS.W <- w` (30_encoding.md R83, R85). -/
def State.latchWidth (w : Nat) (s : State) : State := { s with wl := BitVec.ofNat 5 w, statW := BitVec.ofNat 5 w }

/-- The width check of a codec command, and then its first state (30_encoding.md R83, R85). `BAD_WIDTH` has no effect
but the error entry (60_exceptions.md R244). -/
def State.startCodec (w : Nat) (first : EState) (s : State) : State :=
  if s.cfg.widthOk w then { s.latchWidth w with estate := first } else s.raise .badWidth (BitVec.ofNat 32 w)

end Sys2Proof.Machine
end

