-- ==== Sys2Proof/Machine/Bus.lean ====
section
/-!
DEFINITION. The register window (10_state.md R22 to R34; 20_memory.md R60, R64 to R68): which accesses have a meaning,
what a read returns, what a write does.
-/

namespace Sys2Proof.Machine

/-- The registers of the window (10_state.md R22). -/
inductive Csr where
  | cmd
  | status
  | argP
  | argS
  | argC
  | result
  | rlen
  | nextCode
  | errinfo
  | param
deriving DecidableEq, Repr

/-- The offset of a register (10_state.md R22). -/
def Csr.offset : Csr → Nat
  | .cmd => 0x00
  | .status => 0x04
  | .argP => 0x08
  | .argS => 0x0C
  | .argC => 0x10
  | .result => 0x14
  | .rlen => 0x18
  | .nextCode => 0x1C
  | .errinfo => 0x20
  | .param => 0x24

/-- The register at an offset; none at the unmapped offsets 0x28 to 0x3C (10_state.md R22, R33). -/
def csrAt (off : Nat) : Option Csr :=
  match off with
  | 0x00 => some .cmd
  | 0x04 => some .status
  | 0x08 => some .argP
  | 0x0C => some .argS
  | 0x10 => some .argC
  | 0x14 => some .result
  | 0x18 => some .rlen
  | 0x1C => some .nextCode
  | 0x20 => some .errinfo
  | 0x24 => some .param
  | _ => none

/-- The offset an access reaches, or why it has no meaning (20_memory.md R60, R65): it must lie in the 64-byte window,
be 32 bits wide, and be aligned (log entry 17). -/
def accessOffset (c : Config) (addr size : Nat) : Except Refusal Nat :=
  if addr < c.csrBase ∨ c.csrBase + 64 ≤ addr then .error .outsideWindow
  else if size ≠ 4 then .error .accessSize
  else if (addr - c.csrBase) % 4 ≠ 0 then .error .accessAlignment
  else .ok (addr - c.csrBase)

/-- What a read of a register returns when no job runs (10_state.md R22 to R33). -/
def csrIdleValue (s : State) : Csr → Word
  | .cmd => 0
  | .status => statusWord s
  | .argP => s.argP
  | .argS => s.argS
  | .argC => s.argC
  | .result => s.result
  | .rlen => s.rlen
  | .nextCode => s.nextCode.setWidth 32
  | .errinfo => s.errinfo
  | .param => paramWord s.cfg

/-- What a read of a register returns while a job runs (10_state.md R34): `RESULT`, `RLEN`, `NEXT_CODE` and
`STATUS.FULL` are free values, the rest reads as usual. -/
def csrBusyValue (s : State) : Csr → Word
  | .cmd => 0
  | .status => statusWith s ((Config.freeRead s.freeCtr).getLsbD 4)
  | .argP => s.argP
  | .argS => s.argS
  | .argC => s.argC
  | .result => Config.freeRead s.freeCtr
  | .rlen => Config.freeRead s.freeCtr
  | .nextCode => Config.freeRead s.freeCtr
  | .errinfo => s.errinfo
  | .param => paramWord s.cfg

/-- What a read of an offset of the window returns; an unmapped offset reads 0 (10_state.md R33). -/
def readValue (s : State) (off : Nat) : Word :=
  match csrAt off with
  | none => 0
  | some x => if s.busy then csrBusyValue s x else csrIdleValue s x

/-- The host learns the value of one read. No state of the block changes (20_memory.md R66): only the host's record
and the counter of the free values move. -/
def State.logRead (off : Nat) (v : Word) (s : State) : State :=
  { s with hostReads := s.hostReads ++ [{ offset := off, value := v }], freeCtr := s.freeCtr + 1 }

/-- A write of a register (20_memory.md R67): `CMD` is a request, `ARG_*` store, every other changes no state. -/
def writeCsr (s : State) (v : Word) : Csr → State
  | .cmd => s.requestCmd v
  | .status => s
  | .argP => { s with argP := v }
  | .argS => { s with argS := v }
  | .argC => { s with argC := v }
  | .result => s
  | .rlen => s
  | .nextCode => s
  | .errinfo => s
  | .param => s

/-- A write at an offset of the window; at an unmapped offset it changes no state (10_state.md R33). -/
def writeOffset (s : State) (off : Nat) (v : Word) : State :=
  match csrAt off with
  | none => s
  | some x => writeCsr s v x

/-- `MemRead(off, 4)` by the host (00_scope.md R15; 20_memory.md R65). -/
def hostRead (addr size : Nat) (s : State) : Result :=
  match accessOffset s.cfg addr size with
  | .error r => .refused r
  | .ok off => .next (s.logRead off (readValue s off))

/-- `MemWrite(off, 4, v)` by the host (00_scope.md R15; 20_memory.md R65). -/
def hostWrite (addr size : Nat) (v : Word) (s : State) : Result :=
  match accessOffset s.cfg addr size with
  | .error r => .refused r
  | .ok off => .next (writeOffset s off v)

end Sys2Proof.Machine
end

