-- ==== Sys2Proof/Syntax.lean ====
section
/-!
DEFINITION. The commands of the command word (30_encoding.md R80, R81): one constructor for each row of
spec/opcode_table.json.
-/

namespace Sys2Proof

/-- A command (30_encoding.md R81). The operands `ARG_P`, `ARG_S` and `ARG_C` are registers, latched when the command
is accepted (R84), so only the codec commands carry an inline operand: the code width `W`, a count of bits
(log entry 20). -/
inductive Instr where
  /-- `NOP` (43_control.md R220) -/
  | nop
  /-- `CLEAR` (43_control.md R221) -/
  | clear
  /-- `D_SEED` (40_dictionary.md R113) -/
  | dSeed
  /-- `D_INSERT` (40_dictionary.md R114) -/
  | dInsert
  /-- `D_CHILD` (40_dictionary.md R115) -/
  | dChild
  /-- `D_LOOKUP` (40_dictionary.md R116) -/
  | dLookup
  /-- `D_LPM` (40_dictionary.md R117) -/
  | dLpm
  /-- `C_COMPRESS w=W` (41_compress.md R150) -/
  | cCompress (w : Nat)
  /-- `C_EXPAND w=W` (42_expand.md R180) -/
  | cExpand (w : Nat)
deriving DecidableEq, Repr

end Sys2Proof
end

