-- ==== Sys2Proof/WellFormed.lean ====
section
/-!
DEFINITION. Which commands a command word can hold. The one inline operand is the field `W = LCMD[12:8]`, "a value
from 0 to 31" (30_encoding.md R83). Whether a width is LEGAL (`W_MIN <= W <= 16`, 00_scope.md R10) is not a matter of
form: a well-formed command with an illegal width runs and raises `BAD_WIDTH` (Machine/Flags.lean, `widthOk`).
-/

namespace Sys2Proof

/-- The command fits the command word: a codec command's width fits its 5-bit field (30_encoding.md R83). -/
def Instr.wellFormed : Instr → Bool
  | .nop => true
  | .clear => true
  | .dSeed => true
  | .dInsert => true
  | .dChild => true
  | .dLookup => true
  | .dLpm => true
  | .cCompress w => decide (w < 32)
  | .cExpand w => decide (w < 32)

end Sys2Proof
end

