-- ==== Sys2Proof/Decode.lean ====
section
/-!
DEFINITION. The decoder of a command word, total on all 2^32 words and rejecting by name (30_encoding.md R80 to R87),
and after it the encoder, written from the same tables (R81, R93).
-/

namespace Sys2Proof

/-- Why a word is no command. Each of the three raises `ILLEGAL_CMD` with the whole word (30_encoding.md R86). -/
inductive DecodeError where
  /-- `OPC` is 0x7 or 0xA to 0xF (R81, R86). -/
  | reservedOpcode
  /-- A Format N word with a nonzero bit in `[31:4]` (R82). -/
  | reservedBitsN
  /-- A Format W word with a nonzero bit in `[7:4]` or `[31:13]` (R83). -/
  | reservedBitsW
deriving DecidableEq, Repr

/-- `OPC = v[3:0]` (R80). -/
def fieldOpc (v : Word) : BitVec 4 := v.extractLsb' 0 4

/-- `W = v[12:8]`, an unsigned number of bits (R83). -/
def fieldW (v : Word) : Nat := (v.extractLsb' 8 5).toNat

/-- The reserved bits of Format N, `v[31:4]`, are zero (R82). -/
def reservedClearN (v : Word) : Bool := v.extractLsb' 4 28 == 0#28

/-- The reserved bits of Format W, `v[7:4]` and `v[31:13]`, are zero (R83). -/
def reservedClearW (v : Word) : Bool := v.extractLsb' 4 4 == 0#4 && v.extractLsb' 13 19 == 0#19

/-- A Format N command: no inline operand (R80, R82). -/
def decodeN (i : Instr) (v : Word) : Except DecodeError Instr :=
  if reservedClearN v then .ok i else .error .reservedBitsN

/-- A Format W command: the inline operand `W` (R80, R83). -/
def decodeW (mk : Nat → Instr) (v : Word) : Except DecodeError Instr :=
  if reservedClearW v then .ok (mk (fieldW v)) else .error .reservedBitsW

/-- The command a word stands for (30_encoding.md R81, R85, R86). -/
def decode (v : Word) : Except DecodeError Instr :=
  match (fieldOpc v).toNat with
  | 0x0 => decodeN .nop v
  | 0x1 => decodeN .clear v
  | 0x2 => decodeN .dSeed v
  | 0x3 => decodeN .dInsert v
  | 0x4 => decodeN .dChild v
  | 0x5 => decodeN .dLookup v
  | 0x6 => decodeN .dLpm v
  | 0x8 => decodeW .cCompress v
  | 0x9 => decodeW .cExpand v
  | _ => .error .reservedOpcode

/-- A Format W word: `(W << 8) | OPC` (30_encoding.md R93). -/
def encodeW (opc : Word) (w : Nat) : Word := (BitVec.ofNat 32 w <<< 8) ||| opc

/-- The word of a command (30_encoding.md R81, R93). -/
def encode : Instr → Word
  | .nop => 0x0#32
  | .clear => 0x1#32
  | .dSeed => 0x2#32
  | .dInsert => 0x3#32
  | .dChild => 0x4#32
  | .dLookup => 0x5#32
  | .dLpm => 0x6#32
  | .cCompress w => encodeW 0x8#32 w
  | .cExpand w => encodeW 0x9#32 w

/-- The command the decoder reads from the bits `w`, numbered as spec/opcode_table.json numbers them. A command has
one length, one 32-bit word (R80), so the table's numbering is the word's own; bits above `nbits` are 0. -/
def decodeTableWord (nbits w : Nat) : Option Instr :=
  if nbits ≤ 32 ∧ w < 2 ^ nbits then
    match decode (BitVec.ofNat 32 w) with
    | .ok i => some i
    | .error _ => none
  else none

end Sys2Proof
end

