-- ==== Sys2Proof/Machine/Compress.lean ====
section
/-!
DEFINITION. `C_COMPRESS` and the compress state machine (41_compress.md R150 to R157).
-/

namespace Sys2Proof.Machine

/-- `C_COMPRESS w=W`, its step in state DECODE (R150; 30_encoding.md R83). -/
def execCCompress (w : Nat) (s : State) : Result := .next (s.startCodec w .cInit)

/-- State C_INIT (R153). -/
def stepCInit (s : State) : Result :=
  .next { s with trie := seedTrie s.cfg, nextCode := BitVec.ofNat 17 (s.cfg.r + 1), estate := .cScan }

/-- State C_SCAN (R154): a new match starts at the head symbol's literal. -/
def stepCScan (s : State) : Result :=
  match s.symPeek with
  | none => .next { s with estate := .cEof }
  | some h => .next { s.symPop with cur := .node (litCode h), estate := .cWalk }

/-- Step 3 of the document's algorithm (R155): if the table is not full, bind the match plus the next symbol. -/
def growTrie (s : State) (c : Code) (h : Sym) : State :=
  if hasRoom s then
    { s with
      trie := Table.set s.trie (codeOfNext s.nextCode) { parent := .node c, sym := h }
      nextCode := s.nextCode + 1 }
  else s

/-- State C_WALK (R155): extend the match, or end it with emission and growth. -/
def stepCWalk (s : State) : Result :=
  match s.cur with
  | .root => .fault .codeOfRoot
  | .node m =>
    match s.walkStep with
    | .stopEnd => .next { s.codeWrite m with estate := .cEof }
    | .go c => .next (s.walkTo c)
    | .stopAt h => .next { growTrie (s.codeWrite m) m h with estate := .cScan }

/-- State C_EOF (R156). -/
def stepCEof (s : State) : Result :=
  .next { s.codeWrite (BitVec.ofNat 16 s.cfg.eofCode) with estate := .cClose }

/-- State C_CLOSE (R157). -/
def stepCClose (s : State) : Result := .next s.sinkClose.complete

end Sys2Proof.Machine
end

