-- ==== Sys2Proof/Machine/Control.lean ====
section
/-!
DEFINITION. The control commands `NOP` and `CLEAR` (43_control.md R220, R221).
-/

namespace Sys2Proof.Machine

/-- `NOP` (43_control.md R220): `complete()`. -/
def execNop (s : State) : Result := .next s.complete

/-- `CLEAR` (43_control.md R221). -/
def execClear (s : State) : Result := .next s.clearError.complete

end Sys2Proof.Machine
end

