-- ==== Sys2Proof/Machine/Dictionary.lean ====
section
/-!
DEFINITION. The dictionary commands (40_dictionary.md R110 to R117): the step each runs in state DECODE, and the steps of
the states D_LKP and D_LPM.
-/

namespace Sys2Proof.Machine

/-- `D_SEED` (R113): `TRIE <- SEED_T`. -/
def execDSeed (s : State) : Result := .next { s with trie := seedTrie s.cfg }.complete

/-- `D_INSERT`'s run-time conditions and effect, once the operands are valid (R114): the parent `p` is present, the
edge `(p, h)` is free, the code is unbound. -/
def insertEdge (s : State) (p : NodeRef) (h : Sym) : State :=
  match unboundParent s.trie p with
  | some q => s.raise .dictMiss (q.setWidth 32)
  | none =>
    match child s.trie p h with
    | some c2 => s.raise .dictDup (c2.setWidth 32)
    | none =>
      if (Table.get s.trie (codeOf s.lc)).isSome then s.raise .codeBound s.lc
      else { s with trie := Table.set s.trie (codeOf s.lc) { parent := p, sym := h } }.complete

/-- `D_INSERT` (R114). -/
def execDInsert (s : State) : Result :=
  if !validP s.cfg s.lp then .next (s.raise .badArg 0x08)
  else if !validS s.cfg s.ls then .next (s.raise .badArg 0x0C)
  else if !validC s.cfg s.lc then .next (s.raise .badArg 0x10)
  else .next (insertEdge s (nodeP s.lp) (symOf s.ls))

/-- The `RESULT` of a probe (R115). -/
def probeResult (t : Table TrieEntry) (p : NodeRef) (h : Sym) : Word :=
  match child t p h with
  | some c => hitResult c
  | none => missResult

/-- `D_CHILD` (R115). A missing edge is not an error. -/
def execDChild (s : State) : Result :=
  if !validP s.cfg s.lp then .next (s.raise .badArg 0x08)
  else if !validS s.cfg s.ls then .next (s.raise .badArg 0x0C)
  else .next { s with result := probeResult s.trie (nodeP s.lp) (symOf s.ls) }.complete

/-- `D_LOOKUP`, its step in state DECODE (R116). -/
def execDLookup (s : State) : Result :=
  if !validLen s.lc then .next (s.raise .badArg 0x10)
  else .next { s with cur := .root, cnt := 0, estate := .dLkp }

/-- `D_LPM`, its step in state DECODE (R117). -/
def execDLpm (s : State) : Result := .next { s with cur := .root, len := 0, estate := .dLpm }

/-- A walk command's success: `RESULT <- {1'b1, 15'b0, code(CUR)} ; RLEN <- n ; complete()` (R116, R117). -/
def finishWalk (s : State) (n : Word) : Result :=
  match s.cur with
  | .root => .fault .codeOfRoot
  | .node c => .next { s with result := hitResult c, rlen := n }.complete

/-- One step of state D_LKP (R116). The symbol with no edge is consumed (decision D21). -/
def stepDLkp (s : State) : Result :=
  if s.cnt = s.lc then finishWalk s s.lc
  else
    match s.symPeek with
    | none => .next (s.raise .inEnd s.cnt)
    | some h =>
      match child s.trie s.cur h with
      | none => .next (s.symPop.raise .dictMiss s.cnt)
      | some c => .next { s.walkTo c with cnt := s.cnt + 1 }

/-- One step of state D_LPM (R117). -/
def stepDLpm (s : State) : Result :=
  match s.walkStep with
  | .go c => .next { s.walkTo c with len := s.len + 1 }
  | .stopEnd => if s.len = 0 then .next (s.raise .inEnd 0) else finishWalk s s.len
  | .stopAt h => if s.len = 0 then .next (s.raise .dictMiss (h.setWidth 32)) else finishWalk s s.len

end Sys2Proof.Machine
end

