-- ==== Sys2Proof/Machine/Expand.lean ====
section
/-!
DEFINITION. `C_EXPAND` and the expand state machine (42_expand.md R180 to R190).
-/

namespace Sys2Proof.Machine

/-- `C_EXPAND w=W`, its step in state DECODE (R180; 30_encoding.md R83). -/
def execCExpand (w : Nat) (s : State) : Result := .next (s.startCodec w .eInit)

/-- State E_INIT (R183). -/
def stepEInit (s : State) : Result :=
  .next { s with
    dtab := seedDtab s.cfg, nextCode := BitVec.ofNat 17 (s.cfg.r + 1), cnt := 0, estate := .eFirst }

/-- State E_FIRST (R184): the first code is a literal or `EOF_CODE`. -/
def stepEFirst (s : State) : Result :=
  match s.codeRead with
  | none => .next (s.raise .inEnd 0)
  | some (v, s1) =>
    if isEof s.cfg v then .next { s1 with cnt := 1, estate := .eClose }
    else if isLiteral s.cfg v then .next { s1 with cnt := 1, code := v, estate := .eEmit }
    else .next ({ s1 with cnt := 1 }.raise .badCode (v.setWidth 32))

/-- State E_EMIT (R185): every symbol of `DTAB[CODE]`, first to last, in one step (log entry 19). -/
def stepEEmit (s : State) : Result :=
  match Table.get s.dtab s.code with
  | none => .fault .unboundDecodeEntry
  | some xs => .next { s.emit (xs.toList.map .sym) with estate := .eLook }

/-- `DTAB[v] = some ys` with `v < MAX_CODE` (R187, R188). -/
def definedSeq (s : State) (v : Code) : Option SymSeq :=
  if v.toNat < s.cfg.maxCode then Table.get s.dtab v else none

/-- The sequence the lookahead `v` stands for when the table has room and `xs` is the current sequence (R187): the
self-referential edge case, the ordinary case, or none. -/
def lookaheadSeq (s : State) (xs : SymSeq) (v : Code) : Option SymSeq :=
  if v.toNat = s.nextCode.toNat then some (xs.snoc xs.head) else definedSeq s v

/-- State E_LOOK, table with room (R187). -/
def lookGrow (s : State) (v : Code) : Result :=
  match Table.get s.dtab s.code with
  | none => .fault .unboundDecodeEntry
  | some xs =>
    match lookaheadSeq s xs v with
    | none => .next (s.raise .badCode (v.setWidth 32))
    | some ys =>
      .next { s with
        dtab := Table.set s.dtab (codeOfNext s.nextCode) (xs.snoc ys.head)
        nextCode := s.nextCode + 1, code := v, estate := .eEmit }

/-- State E_LOOK, full table (R188): the table is frozen. -/
def lookFrozen (s : State) (v : Code) : Result :=
  match definedSeq s v with
  | some _ => .next { s with code := v, estate := .eEmit }
  | none => .next (s.raise .badCode (v.setWidth 32))

/-- State E_LOOK (R186): the read, and then R187 or R188 in the same step. -/
def stepELook (s : State) : Result :=
  match s.codeRead with
  | none => .next (s.raise .inEnd s.cnt)
  | some (v, s1) =>
    if isEof s.cfg v then .next { s1 with cnt := s.cnt + 1, estate := .eClose }
    else if hasRoom s then lookGrow { s1 with cnt := s.cnt + 1 } v
    else lookFrozen { s1 with cnt := s.cnt + 1 } v

/-- State E_CLOSE (R189). -/
def stepEClose (s : State) : Result := .next s.sinkClose.complete

end Sys2Proof.Machine
end

