-- ==== Sys2Proof/Machine/Dispatch.lean ====
section
/-!
DEFINITION. The first step of every command, the one it runs in state DECODE (43_control.md R225): one arm per
constructor of Instr.
-/

namespace Sys2Proof.Machine

/-- The step a decoded command runs in state DECODE (43_control.md R225; 30_encoding.md R81). -/
def exec (i : Instr) (s : State) : Host.Outcome State Fault Refusal :=
  match i with
  | .nop => Sys2Proof.Machine.execNop s
  | .clear => Sys2Proof.Machine.execClear s
  | .dSeed => Sys2Proof.Machine.execDSeed s
  | .dInsert => Sys2Proof.Machine.execDInsert s
  | .dChild => Sys2Proof.Machine.execDChild s
  | .dLookup => Sys2Proof.Machine.execDLookup s
  | .dLpm => Sys2Proof.Machine.execDLpm s
  | .cCompress w => Sys2Proof.Machine.execCCompress w s
  | .cExpand w => Sys2Proof.Machine.execCExpand w s

end Sys2Proof.Machine
end

