-- ==== Sys2Proof/Machine/Engine.lean ====
section
/-!
DEFINITION. One engine step (00_scope.md R16; 10_state.md R35; 43_control.md R225): the rule of the state `ESTATE` is in.
-/

namespace Sys2Proof.Machine

/-- State DECODE (30_encoding.md R85, R86): a word that is no command raises `ILLEGAL_CMD(LCMD)`; a command runs its
first step in the same step (43_control.md R225). -/
def stepDecode (s : State) : Result :=
  match decode s.lcmd with
  | .error _ => .next (s.raise .illegalCmd s.lcmd)
  | .ok i => exec i s

/-- One engine step. An engine step is possible only while `ESTATE != IDLE` (70_reset_and_hazards.md R288): an idle
engine "keeps all its state" (60_exceptions.md R258). -/
def engineStep (s : State) : Result :=
  match s.estate with
  | .idle => .next s
  | .decode => stepDecode s
  | .dLkp => stepDLkp s
  | .dLpm => stepDLpm s
  | .cInit => stepCInit s
  | .cScan => stepCScan s
  | .cWalk => stepCWalk s
  | .cEof => stepCEof s
  | .cClose => stepCClose s
  | .eInit => stepEInit s
  | .eFirst => stepEFirst s
  | .eEmit => stepEEmit s
  | .eLook => stepELook s
  | .eClose => stepEClose s

/-- `n` engine steps with nothing between them, stopping at the first fault: what 70_reset_and_hazards.md R286 counts. -/
def engineRun : Nat → State → Result
  | 0, s => .next s
  | n + 1, s =>
    match engineStep s with
    | .next t => engineRun n t
    | .fault f => .fault f
    | .refused r => .refused r

end Sys2Proof.Machine
end

