-- ==== Sys2Proof/Machine/Events.lean ====
section
/-!
DEFINITION. One transition of the system (70_reset_and_hazards.md R288): a host access, an engine step, a reset, or an
environment's change to its port while `BUSY = 0`.
-/

namespace Sys2Proof.Machine

/-- One turn of `WAIT` (30_encoding.md R93): `RD STATUS`; while its bit 0 is 1 the host comes again, and between two
polls the engine takes a step (log entry 9). -/
def hostPoll (s : State) : State :=
  let v := readValue s Csr.status.offset
  let t := s.logRead Csr.status.offset v
  if v.getLsbD 0 then { t with agenda := .engine :: .poll :: t.agenda } else t

/-- `SYM_IN` gets new contents (10_state.md R47), each a `SYM_W`-bit value, only while `BUSY = 0` (R288). -/
def fillSymIn (xs : List Sym) (s : State) : Result :=
  if s.busy then .refused .portWhileBusy
  else if xs.all fun h => decide (h.toNat < s.cfg.r) then .next { s with symIn := xs }
  else .refused .symbolTooWide

/-- `CODE_IN` gets new contents (10_state.md R48), only while `BUSY = 0` (R288). -/
def fillCodeIn (xs : List Code) (s : State) : Result :=
  if s.busy then .refused .portWhileBusy else .next { s with codeIn := xs }

/-- The output environment takes the history of `OUT` (95_test_vectors.md programs P2 and P4), only while `BUSY = 0`. -/
def takeOut (s : State) : Result :=
  if s.busy then .refused .portWhileBusy else .next { s with out := [] }

/-- One transition (R288), on a state whose agenda no longer holds the event. -/
def perform (e : Event) (s : State) : Result :=
  match e with
  | .engine => engineStep s
  | .read addr size => hostRead addr size s
  | .write addr size v => hostWrite addr size v s
  | .poll => .next (hostPoll s)
  | .reset => .next s.platformReset
  | .fillSymIn xs => fillSymIn xs s
  | .fillCodeIn xs => fillCodeIn xs s
  | .takeOut => takeOut s

/-- The next transition: the first event of the agenda, or the engine's own progress when nothing else is to come
(R288 "while `ESTATE != IDLE`, an engine step eventually happens"; log entry 5). -/
def transition (s : State) : Result :=
  match s.agenda with
  | [] => engineStep s
  | e :: rest => perform e { s with agenda := rest }

/-- The command word `v` as if the host had just written it and the block accepted it, with the engine's turn next
(43_control.md R224; log entry 10). -/
def placeCommand (s : State) (v : Word) : State := { s.accept v with agenda := .engine :: s.agenda }

end Sys2Proof.Machine
end

