-- ==== Sys2Proof/Machine/Step.lean ====
section
/-!
DEFINITION. One step of the machine, and how the host's check places an instruction. Both only call the operations of
Machine/Events.lean.
-/

namespace Sys2Proof.Machine

/-- One step: the next transition (70_reset_and_hazards.md R288). A configuration outside the limits is refused
(decision D4). -/
def step (s : State) : Host.Outcome State Fault Refusal :=
  if s.cfg.legal then transition s else .refused .illegalConfig

/-- `s` with the command word `w` accepted and the engine's turn next, so that the very next step decodes and runs it
(43_control.md R224, R225; log entry 10). The block fetches nothing (20_memory.md R74). -/
def State.withFetchWord (s : State) (nbits w : Nat) : State := placeCommand s (BitVec.ofNat 32 (w % 2 ^ nbits))

end Sys2Proof.Machine
end

