-- ==== Sys2Proof/Machine/Program.lean ====
section
/-!
DEFINITION. Host programs: the assembler syntax and the pseudo-instructions of 30_encoding.md R92 and R93, as the events
they stand for.
-/

namespace Sys2Proof.Machine

/-- The operand `p` of `D_INSERT` and `D_CHILD` (R92). -/
inductive ParentArg where
  | root
  | code (p : Word)
deriving DecidableEq, Repr

/-- "`p=ROOT` stands for `ARG_P = 0x00010000`, and `p=<code>` for `ARG_P = <code>`" (R93). -/
def ParentArg.value : ParentArg → Word
  | .root => 0x00010000#32
  | .code p => p

/-- One line of a host program (R92). -/
inductive HostOp where
  /-- A command with no operand list: it "writes only `CMD` and uses whatever `ARG_*` hold". -/
  | bare (i : Instr)
  | dInsert (p : ParentArg) (s c : Word)
  | dChild (p : ParentArg) (s : Word)
  | dLookup (len : Word)
  | wait
  | rd (x : Csr)
  | wr (x : Csr) (v : Word)
deriving DecidableEq, Repr

/-- `RD <reg>` (R92): a 32-bit read of the named register. -/
def rdEvent (c : Config) (x : Csr) : Event := .read (c.csrBase + x.offset) 4

/-- `WR <reg>, <value>` (R92): a 32-bit write of the named register. -/
def wrEvent (c : Config) (x : Csr) (v : Word) : Event := .write (c.csrBase + x.offset) 4 v

/-- The expansion of one line (R93). -/
def HostOp.expand (c : Config) : HostOp → List Event
  | .bare i => [wrEvent c .cmd (encode i)]
  | .dInsert p s k =>
    [wrEvent c .argP p.value, wrEvent c .argS s, wrEvent c .argC k, wrEvent c .cmd (encode .dInsert)]
  | .dChild p s => [wrEvent c .argP p.value, wrEvent c .argS s, wrEvent c .cmd (encode .dChild)]
  | .dLookup len => [wrEvent c .argC len, wrEvent c .cmd (encode .dLookup)]
  | .wait => [.poll]
  | .rd x => [rdEvent c x]
  | .wr x v => [wrEvent c x v]

/-- A host program, its lines in order (20_memory.md R70). -/
def assemble (c : Config) (ops : List HostOp) : List Event := ops.flatMap (HostOp.expand c)

/-- A block about to run a host program: the program's events come before whatever else was to come. -/
def State.loadProgram (ops : List HostOp) (s : State) : State :=
  { s with agenda := assemble s.cfg ops ++ s.agenda }

end Sys2Proof.Machine
end

