-- ==== Sys2Proof/Machine/Reference.lean ====
section
/-!
DEFINITION. The functions the two codec jobs compute, transcribed from 41_compress.md R151 and 42_expand.md R181. They
know nothing of the state machines: the compress function searches the present sequences (10_state.md R44), not the
edges of the trie. The claims of Certificates/ compare the state machines with them (R158, R182).
-/

namespace Sys2Proof.Machine

/-- The code of a sequence that is present in the dictionary (10_state.md R44). -/
def codeOfSeq (t : Table TrieEntry) (xs : List Sym) : Option Code :=
  (t.find? fun e => seqOf t e.1 == some xs).map fun e => e.1

/-- The longest present prefix of `text` among those of at most `k` symbols: its code and its length. -/
def longestPresent (t : Table TrieEntry) (text : List Sym) : Nat → Option (Code × Nat)
  | 0 => none
  | k + 1 =>
    match codeOfSeq t (text.take (k + 1)) with
    | some c => some (c, k + 1)
    | none => longestPresent t text k

/-- What `compress(text)` returns (R151). -/
structure CompressResult where
  codes : List Code
  trie : Table TrieEntry
  next : Nat
deriving DecidableEq, Repr

/-- Step 3 of R151: "If the matched prefix does not reach the end of the input and the table is not full", `h` being the
symbol after the match of code `c`. -/
def refGrow (cfg : Config) (r : CompressResult) (c : Code) (h : Sym) : CompressResult :=
  if r.next < cfg.maxCode then
    { r with trie := Table.set r.trie (BitVec.ofNat 16 r.next) { parent := .node c, sym := h }, next := r.next + 1 }
  else r

/-- The loop of R151 on the text from the offset on. Each round consumes at least one symbol, so the length of the text
is fuel enough. -/
def refCompressLoop (cfg : Config) : Nat → List Sym → CompressResult → CompressResult
  | 0, _, r => r
  | fuel + 1, text, r =>
    match longestPresent r.trie text text.length with
    | none => r
    | some (c, k) =>
      let r' := { r with codes := r.codes ++ [c] }
      match text.drop k with
      | [] => r'
      | h :: rest => refCompressLoop cfg fuel (h :: rest) (refGrow cfg r' c h)

/-- `compress(text)` (R151). -/
def refCompress (cfg : Config) (text : List Sym) : CompressResult :=
  let r := refCompressLoop cfg text.length text { codes := [], trie := seedTrie cfg, next := cfg.r + 1 }
  { r with codes := r.codes ++ [BitVec.ofNat 16 cfg.eofCode] }

/-- How `expand()` ends (R181): by `return`, or by an error with its info. -/
inductive ExpandEnd where
  | finished
  | inEnd (k : Nat)
  | badCode (v : Code)
deriving DecidableEq, Repr

/-- What `expand()` leaves (R181): the symbols written, the table, the counter, the items not read, and how it ends. -/
structure ExpandResult where
  out : List Sym
  dtab : Table SymSeq
  next : Nat
  left : List Code
  fin : ExpandEnd
deriving DecidableEq, Repr

/-- The sequence the lookahead `l` stands for (R181, step 3): the edge case only when the table has room. -/
def refLookahead (cfg : Config) (d : Table SymSeq) (next : Nat) (val : SymSeq) (l : Code) : Option SymSeq :=
  if next < cfg.maxCode ∧ l.toNat = next then some (val.snoc val.head)
  else if l.toNat < cfg.maxCode then Table.get d l
  else none

/-- The loop of R181: `items` are still to be read, `k` have been read, `val` is the current sequence. -/
def refExpandLoop (cfg : Config) (w : Nat) :
    (items : List Code) → (d : Table SymSeq) → (next : Nat) → (val : SymSeq) → (k : Nat) → (out : List Sym) →
      ExpandResult
  | [], d, next, val, k, out => { out := out ++ val.toList, dtab := d, next := next, left := [], fin := .inEnd k }
  | x :: items, d, next, val, k, out =>
    let l := lowBits x w
    let out' := out ++ val.toList
    if l.toNat = cfg.eofCode then { out := out', dtab := d, next := next, left := items, fin := .finished }
    else
      match refLookahead cfg d next val l with
      | none => { out := out', dtab := d, next := next, left := items, fin := .badCode l }
      | some s =>
        if next < cfg.maxCode then
          refExpandLoop cfg w items (Table.set d (BitVec.ofNat 16 next) (val.snoc s.head)) (next + 1) s (k + 1) out'
        else refExpandLoop cfg w items d next s (k + 1) out'

/-- `expand()` on the items `items` of `CODE_IN` with the code width `w` (R181). The first code is `EOF_CODE` or a
literal (decision D26). -/
def refExpand (cfg : Config) (w : Nat) (items : List Code) : ExpandResult :=
  let d := seedDtab cfg
  let next := cfg.r + 1
  match items with
  | [] => { out := [], dtab := d, next := next, left := [], fin := .inEnd 0 }
  | x :: rest =>
    let c := lowBits x w
    if c.toNat = cfg.eofCode then { out := [], dtab := d, next := next, left := rest, fin := .finished }
    else if c.toNat < cfg.r then
      match Table.get d c with
      | none => { out := [], dtab := d, next := next, left := rest, fin := .badCode c }
      | some val => refExpandLoop cfg w rest d next val 1 []
    else { out := [], dtab := d, next := next, left := rest, fin := .badCode c }

end Sys2Proof.Machine
end

