-- ==== Sys2Proof/Safety.lean ====
section
/-!
DEFINITION. What a safe state is: the invariants the spec states of the tables (10_state.md R42, R46), of the status bits
(10_state.md R24, 43_control.md R227), of the ports (R47, R49) and of a running job, in the terms the claims use.
-/

namespace Sys2Proof.Machine

/-- The invariants of `TRIE` (10_state.md R42), and its canonical form. -/
structure TrieOk (c : Config) (t : Table TrieEntry) : Prop where
  /-- The canonical form: strictly rising codes below `MAX_CODE` (R41). -/
  wf : Table.wf c.maxCode t
  /-- (T1) `EOF_CODE` is never bound. -/
  eofUnbound : ∀ v, (Table.get t v).isSome → v.toNat ≠ c.eofCode
  /-- (T2) The parent of a bound entry is bound. -/
  parentBound : ∀ v e q, Table.get t v = some e → e.parent = .node q → (Table.get t q).isSome
  /-- (T2) Every parent chain ends at `ROOT`. -/
  chainEnds : ∀ v, (Table.get t v).isSome → (seqOf t v).isSome
  /-- (T3) A node has at most one child per symbol. -/
  edgeUnique : ∀ v₁ v₂ e, Table.get t v₁ = some e → Table.get t v₂ = some e → v₁ = v₂
  /-- (T4) Every bound entry's symbol is below `R`. -/
  symBound : ∀ v e, Table.get t v = some e → e.sym.toNat < c.r

/-- The invariants of `DTAB` (10_state.md R46), and its canonical form. -/
structure DtabOk (c : Config) (d : Table SymSeq) : Prop where
  /-- The canonical form: strictly rising codes below `MAX_CODE`. -/
  wf : Table.wf c.maxCode d
  /-- "`DTAB[EOF_CODE]` is never written". -/
  eofUnbound : ∀ v, (Table.get d v).isSome → v.toNat ≠ c.eofCode
  /-- Every stored symbol is below `R`. -/
  symBound : ∀ v xs, Table.get d v = some xs → ∀ h ∈ xs.toList, h.toNat < c.r

/-- The bound codes of a codec job's table: the literals, and the growth codes below the counter (30_encoding.md R89). -/
def GrownTo {α : Type} (c : Config) (t : Table α) (next : Nat) : Prop :=
  c.r + 1 ≤ next ∧ next ≤ c.maxCode ∧
    ∀ v : Code, (Table.get t v).isSome ↔ v.toNat < c.r ∨ (c.r < v.toNat ∧ v.toNat < next)

/-- The literals stand for themselves (10_state.md R45). -/
def LiteralsSeeded (c : Config) (t : Table TrieEntry) : Prop :=
  ∀ h : Sym, h.toNat < c.r → Table.get t (litCode h) = some { parent := .root, sym := h }

/-- The node `p` stands for the sequence `xs`: the root for the empty one, the node of code `c` for `seq(c)`
(10_state.md R44). -/
def NodeSeq (t : Table TrieEntry) (p : NodeRef) (xs : List Sym) : Prop :=
  (p = .root ∧ xs = []) ∨ ∃ c, p = .node c ∧ seqOf t c = some xs

/-- A sequence is present in the dictionary (10_state.md R44): some bound code stands for it. -/
def Present (t : Table TrieEntry) (xs : List Sym) : Prop := ∃ c, seqOf t c = some xs

/-- A prefix walk that has consumed `n` symbols is at the node of an `n`-symbol sequence (40_dictionary.md R112). -/
def WalkAt (t : Table TrieEntry) (cur : NodeRef) (n : Nat) : Prop := ∃ xs, NodeSeq t cur xs ∧ xs.length = n

/-- An event the block may write (10_state.md R49): a code fits its width, a symbol is below `R`. -/
def OutEvent.ok (c : Config) : OutEvent → Prop
  | .code v w => v.toNat < 2 ^ w
  | .sym h => h.toNat < c.r
  | .close => True

/-- `n` steps of the machine, stopping at the first fault or refusal. -/
def runSteps : Nat → State → Result
  | 0, s => .next s
  | n + 1, s =>
    match step s with
    | .next t => runSteps n t
    | .fault f => .fault f
    | .refused r => .refused r

/-- A state in which a command has just ended well, spelled from 43_control.md R226. -/
def State.ended (s : State) : State := { s with busy := false, done := true, estate := .idle }

/-- A state in which a command has just failed with cause code `n` and detail `info`, spelled from 60_exceptions.md
R243. -/
def State.failed (s : State) (n : BitVec 4) (info : Word) : State :=
  { s with errcode := n, errinfo := info, err := true, done := false, busy := false, estate := .idle }

/-- What the host and the environments can see or will see of a state: everything but the engine registers that are
unspecified after reset (10_state.md R53). -/
def State.withoutScratch (s : State) : State :=
  { s with cur := .root, len := 0, code := 0, lcmd := 0, lp := 0, ls := 0, lc := 0, wl := 0, cnt := 0 }

/-- The status bits (10_state.md R24; 43_control.md R227; 60_exceptions.md R242, R249). -/
structure StatusOk (s : State) : Prop where
  /-- `STATUS.BUSY = (ESTATE != IDLE)` (R35). -/
  busyIff : s.busy = true ↔ s.estate ≠ .idle
  /-- "`DONE = 0` whenever `BUSY = 1`". -/
  busyNotDone : s.busy = true → s.done = false
  /-- "`DONE` and `ERR` are never both 1". -/
  doneNotErr : s.done = true → s.err = false
  /-- `ERRCODE` is "0 when `ERR = 0`", and so is `ERRINFO` (R242). -/
  quiet : s.err = false → s.errcode = 0 ∧ s.errinfo = 0
  /-- A pending error has one of the causes 1 to 8 (R241). -/
  caused : s.err = true → 1 ≤ s.errcode.toNat ∧ s.errcode.toNat ≤ 8
  /-- "While `ERR = 1` the only accepted command is `CLEAR`" (R249). -/
  errRuns : s.err = true → s.busy = true → s.estate = .decode ∧ s.lcmd = 0x00000001#32

/-- What holds of the engine registers and tables in each state of a running job (10_state.md R35). -/
def JobOk (s : State) : Prop :=
  match s.estate with
  | .idle => True
  | .decode => True
  | .dLkp => s.lc ≠ 0 ∧ WalkAt s.trie s.cur s.cnt.toNat
  | .dLpm => WalkAt s.trie s.cur s.len.toNat
  | .cInit => s.cfg.widthOk s.wl.toNat = true
  | .cScan => s.cfg.widthOk s.wl.toNat = true ∧ GrownTo s.cfg s.trie s.nextCode.toNat ∧ LiteralsSeeded s.cfg s.trie
  | .cWalk =>
    s.cfg.widthOk s.wl.toNat = true ∧ GrownTo s.cfg s.trie s.nextCode.toNat ∧ LiteralsSeeded s.cfg s.trie ∧
      ∃ c, s.cur = .node c ∧ (Table.get s.trie c).isSome
  | .cEof => s.cfg.widthOk s.wl.toNat = true
  | .cClose => s.cfg.widthOk s.wl.toNat = true
  | .eInit => s.cfg.widthOk s.wl.toNat = true
  | .eFirst => s.cfg.widthOk s.wl.toNat = true ∧ GrownTo s.cfg s.dtab s.nextCode.toNat
  | .eEmit =>
    s.cfg.widthOk s.wl.toNat = true ∧ GrownTo s.cfg s.dtab s.nextCode.toNat ∧ (Table.get s.dtab s.code).isSome
  | .eLook =>
    s.cfg.widthOk s.wl.toNat = true ∧ GrownTo s.cfg s.dtab s.nextCode.toNat ∧ (Table.get s.dtab s.code).isSome
  | .eClose => s.cfg.widthOk s.wl.toNat = true

/-- The invariant of the machine. -/
structure Inv (s : State) : Prop where
  legal : s.cfg.legal = true
  status : StatusOk s
  trie : TrieOk s.cfg s.trie
  dtab : DtabOk s.cfg s.dtab
  /-- "Its value never exceeds `MAX_CODE`" (R30). -/
  nextBound : s.nextCode.toNat ≤ s.cfg.maxCode
  /-- "`[30:16]` reserved and read as 0" (R28). -/
  resultReserved : s.result.extractLsb' 16 15 = 0#15
  /-- `STATUS.W` is the width of a command that passed validation, or the reset value (R24). -/
  statW : s.statW = 0 ∨ s.cfg.widthOk s.statW.toNat = true
  /-- Each item of `SYM_IN` is a `SYM_W`-bit value (R47). -/
  symIn : ∀ h ∈ s.symIn, h.toNat < s.cfg.r
  /-- Each event of `OUT` has its width (R49). -/
  out : ∀ e ∈ s.out, e.ok s.cfg
  job : JobOk s

end Sys2Proof.Machine
end

