-- ==== Sys2Proof/Certificates/Slice0/Obligations.lean ====
section
/-!
DEFINITION. What is claimed of the model, for the provers. Each docstring names the rules of spec/ it rests on.
-/

open Sys2Proof Sys2Proof.Machine

/-! ### Encoding (30_encoding.md) -/

/-- 30_encoding.md R81, R87, R93: the words of R81's table, and R93's two examples. -/
def Obligations.SpecWordsDecode : Prop :=
  decode 0x00000000#32 = .ok .nop ∧ decode 0x00000001#32 = .ok .clear ∧ decode 0x00000002#32 = .ok .dSeed ∧
  decode 0x00000003#32 = .ok .dInsert ∧ decode 0x00000004#32 = .ok .dChild ∧ decode 0x00000005#32 = .ok .dLookup ∧
  decode 0x00000006#32 = .ok .dLpm ∧ decode 0x00000C08#32 = .ok (.cCompress 12) ∧
  decode 0x00000909#32 = .ok (.cExpand 9)

/-- R80, R81, R83, R93: the decoder gives every well-formed command back from its word, with its width. -/
def Obligations.DecodeOfEncode : Prop :=
  ∀ i : Instr, i.wellFormed = true → decode (encode i) = .ok i

/-- R80 to R83: a word that decodes is the word of the command it decodes to, so no two words are one command. -/
def Obligations.EncodeOfDecode : Prop :=
  ∀ (v : Word) (i : Instr), decode v = .ok i → i.wellFormed = true ∧ encode i = v

/-- R86 (and R82, R83): which words are reserved, bit for bit, and that each of them raises `ILLEGAL_CMD` with the whole
word, with no other effect. -/
def Obligations.ReservedWordsRaiseIllegalCmd : Prop :=
  ∀ s : State, s.estate = .decode →
    (s.lcmd.extractLsb' 0 4 = 7#4 ∨ 10 ≤ (s.lcmd.extractLsb' 0 4).toNat ∨
      ((s.lcmd.extractLsb' 0 4).toNat ≤ 6 ∧ s.lcmd.extractLsb' 4 28 ≠ 0#28) ∨
      ((s.lcmd.extractLsb' 0 4 = 8#4 ∨ s.lcmd.extractLsb' 0 4 = 9#4) ∧
        (s.lcmd.extractLsb' 4 4 ≠ 0#4 ∨ s.lcmd.extractLsb' 13 19 ≠ 0#19))) →
    (∃ e, decode s.lcmd = .error e) ∧ engineStep s = .next (s.failed 1 s.lcmd)

/-- R85, R225: in state DECODE the engine's step is the meaning of the command its word decodes to. The model's own
around it: the engine takes its turn when the agenda is empty or says so (log entry 5). -/
def Obligations.StepRunsDecodedCommand : Prop :=
  ∀ (s : State) (i : Instr), s.cfg.legal = true → s.estate = .decode → decode s.lcmd = .ok i →
    (s.agenda = [] → step s = exec i s) ∧
    ∀ rest, s.agenda = .engine :: rest → step s = exec i { s with agenda := rest }

/-- The model's choice of how a program comes to run (log entry 10), resting on R224 and R225: the very next step after
`withFetchWord` is the meaning of the command, on the state the command's acceptance leaves. -/
def Obligations.PlacedWordRunsNext : Prop :=
  ∀ (s : State) (w : Nat) (i : Instr), s.cfg.legal = true → w < 2 ^ 32 → decode (BitVec.ofNat 32 w) = .ok i →
    step (s.withFetchWord 32 w) = exec i
      { s with lcmd := BitVec.ofNat 32 w, lp := s.argP, ls := s.argS, lc := s.argC, busy := true, done := false,
               estate := .decode }

/-! ### Command acceptance (43_control.md) -/

/-- 43_control.md R224, R222 and R223: which `CMD` writes are accepted and what acceptance does; which are dropped, and
that a drop does nothing but set `OVR`; after an error `CLEAR` alone is accepted. -/
def Obligations.CommandWriteAcceptedOrDropped : Prop :=
  ∀ (s : State) (v : Word) (rest : List Event), s.cfg.legal = true → s.agenda = .write s.cfg.csrBase 4 v :: rest →
    (s.busy = false → (s.err = false ∨ v = 0x00000001#32) → step s = .next
      { s with agenda := rest, lcmd := v, lp := s.argP, ls := s.argS, lc := s.argC, busy := true, done := false,
               estate := .decode }) ∧
    (s.busy = true → step s = .next { s with agenda := rest, ovr := true }) ∧
    (s.busy = false → s.err = true → v ≠ 0x00000001#32 → step s = .next { s with agenda := rest, ovr := true })

/-- The host's and the environments' other events: 10_state.md R47, R48 and 70_reset_and_hazards.md R288 for the refills,
30_encoding.md R93 for `WAIT`. The model's own (log entry 7): a refill replaces the port's list, `OUT` is emptied by an
event, and each of these is refused, under a name of its own, while a job runs or for a symbol not below `R`. The
model's own (log entry 9): a poll that reads `BUSY = 1` lets the engine take one step before the next poll. -/
def Obligations.PortsChangeOnlyBetweenJobsAndWaitPolls : Prop :=
  ∀ (s : State) (rest : List Event), s.cfg.legal = true →
    (∀ xs, s.agenda = .fillSymIn xs :: rest →
      (s.busy = false → (∀ h ∈ xs, h.toNat < s.cfg.r) → step s = .next { s with agenda := rest, symIn := xs }) ∧
      (s.busy = false → (∃ h ∈ xs, s.cfg.r ≤ h.toNat) → step s = .refused .symbolTooWide) ∧
      (s.busy = true → step s = .refused .portWhileBusy)) ∧
    (∀ xs, s.agenda = .fillCodeIn xs :: rest →
      (s.busy = false → step s = .next { s with agenda := rest, codeIn := xs }) ∧
      (s.busy = true → step s = .refused .portWhileBusy)) ∧
    (s.agenda = .takeOut :: rest →
      (s.busy = false → step s = .next { s with agenda := rest, out := [] }) ∧
      (s.busy = true → step s = .refused .portWhileBusy)) ∧
    (s.agenda = .poll :: rest →
      (s.busy = false → step s = .next
        { s with agenda := rest, freeCtr := s.freeCtr + 1,
                 hostReads := s.hostReads ++ [{ offset := 0x04, value := readValue s 0x04 }] }) ∧
      (s.busy = true → step s = .next
        { s with agenda := .engine :: .poll :: rest, freeCtr := s.freeCtr + 1,
                 hostReads := s.hostReads ++ [{ offset := 0x04, value := readValue s 0x04 }] }))

/-- 20_memory.md R70, 30_encoding.md R93: a `D_INSERT` line of a host program on an idle block without error passes
exactly its operands to the command, whatever the registers held, and leaves everything else. -/
def Obligations.OperandWritesThenCommandPassOperands : Prop :=
  ∀ (s : State) (p : ParentArg) (h k : Word), s.cfg.legal = true → s.busy = false → s.err = false →
    runSteps 4 (s.loadProgram [.dInsert p h k]) = .next
      { s with argP := p.value, argS := h, argC := k, lp := p.value, ls := h, lc := k, lcmd := 0x00000003#32,
               busy := true, done := false, estate := .decode }

/-- 70_reset_and_hazards.md R276 (10_state.md R39): an operand register changes nothing in an engine step, whatever the
command and its state, so an operand write during a job takes effect only for the next command. -/
def Obligations.RunningJobIgnoresOperandRegisters : Prop :=
  ∀ (s t : State) (a b c : Word), engineStep s = .next t →
    t.argP = s.argP ∧ t.argS = s.argS ∧ t.argC = s.argC ∧
    engineStep { s with argP := a, argS := b, argC := c } = .next { t with argP := a, argS := b, argC := c }

/-! ### The register window (10_state.md, 20_memory.md) -/

/-- 20_memory.md R65 and R60: exactly the aligned 32-bit accesses inside the window have a meaning; every other read and
write is refused. R65's words refuse the narrower, wider and misaligned ones; that an access outside the window is
refused too is read from R60, "The block does not decode any address outside the window" (log entry 17, DEDUCED). -/
def Obligations.MeaninglessAccessRefused : Prop :=
  ∀ (s : State) (addr size : Nat) (v : Word) (rest : List Event), s.cfg.legal = true →
    ((s.cfg.csrBase ≤ addr ∧ addr < s.cfg.csrBase + 64 ∧ size = 4 ∧ (addr - s.cfg.csrBase) % 4 = 0) →
      (s.agenda = .read addr size :: rest → ∃ t, step s = .next t) ∧
      (s.agenda = .write addr size v :: rest → ∃ t, step s = .next t)) ∧
    (¬ (s.cfg.csrBase ≤ addr ∧ addr < s.cfg.csrBase + 64 ∧ size = 4 ∧ (addr - s.cfg.csrBase) % 4 = 0) →
      (s.agenda = .read addr size :: rest → ∃ r, step s = .refused r) ∧
      (s.agenda = .write addr size v :: rest → ∃ r, step s = .refused r))

/-- 20_memory.md R66: a read of any offset of the window returns `readValue` of it and changes no state of the block;
only the host's record of the value and the counter of free values move (the model's own fields). While no job runs,
reading again gives the same value. -/
def Obligations.ReadsChangeNoState : Prop :=
  ∀ (s : State) (off : Nat) (rest : List Event), s.cfg.legal = true → off < 64 → off % 4 = 0 →
    s.agenda = .read (s.cfg.csrBase + off) 4 :: rest →
    step s = .next
        { s with agenda := rest, hostReads := s.hostReads ++ [{ offset := off, value := readValue s off }],
                 freeCtr := s.freeCtr + 1 } ∧
      (s.busy = false → ∀ (t : State), t = { s with
          agenda := .read (s.cfg.csrBase + off) 4 :: rest
          hostReads := s.hostReads ++ [{ offset := off, value := readValue s off }], freeCtr := s.freeCtr + 1 } →
        step t = .next { t with
          agenda := rest, hostReads := t.hostReads ++ [{ offset := off, value := readValue s off }],
          freeCtr := t.freeCtr + 1 })

/-- 10_state.md R33: unmapped offsets and `CMD` read 0, and a write to an unmapped offset or a read-only register changes
no state; R66 for its last sentence. -/
def Obligations.UnmappedAndReadOnlyOffsets : Prop :=
  ∀ (s : State) (off : Nat) (v : Word) (rest : List Event), s.cfg.legal = true → off < 64 → off % 4 = 0 →
    ((off = 0x00 ∨ 0x28 ≤ off) → s.agenda = .read (s.cfg.csrBase + off) 4 :: rest →
      step s = .next { s with agenda := rest, hostReads := s.hostReads ++ [{ offset := off, value := 0 }],
                              freeCtr := s.freeCtr + 1 }) ∧
    ((off = 0x04 ∨ 0x14 ≤ off) → s.agenda = .write (s.cfg.csrBase + off) 4 v :: rest →
      step s = .next { s with agenda := rest }) ∧
    (s.agenda = .read (s.cfg.csrBase + off) 4 :: rest → step s = .next
      { s with agenda := rest, hostReads := s.hostReads ++ [{ offset := off, value := readValue s off }],
               freeCtr := s.freeCtr + 1 })

/-- 10_state.md R25, R26, R27, 20_memory.md R67: a write of `ARG_P`, `ARG_S` or `ARG_C` stores all 32 bits and does
nothing else, at any time, and a later read gives them back. -/
def Obligations.OperandRegistersStoreAndReadBack : Prop :=
  ∀ (s : State) (v : Word) (rest : List Event), s.cfg.legal = true →
    (s.agenda = .write (s.cfg.csrBase + 0x08) 4 v :: rest → step s = .next { s with agenda := rest, argP := v }) ∧
    (s.agenda = .write (s.cfg.csrBase + 0x0C) 4 v :: rest → step s = .next { s with agenda := rest, argS := v }) ∧
    (s.agenda = .write (s.cfg.csrBase + 0x10) 4 v :: rest → step s = .next { s with agenda := rest, argC := v }) ∧
    readValue s 0x08 = s.argP ∧ readValue s 0x0C = s.argS ∧ readValue s 0x10 = s.argC

/-- 10_state.md R24, R22, R28 to R31: the fields of `STATUS` as a read returns them while no job runs, reserved bits 0,
`FULL` the view of `NEXT_CODE`; and the other read-only registers, with the reserved bits of `RESULT` 0 in every state
with the invariant. -/
def Obligations.IdleReadsShowTheRegisters : Prop :=
  ∀ s : State, s.busy = false →
    let v := readValue s 0x04
    v.getLsbD 0 = false ∧ v.getLsbD 1 = s.done ∧ v.getLsbD 2 = s.err ∧ v.getLsbD 3 = s.ovr ∧
    (v.getLsbD 4 = true ↔ s.nextCode.toNat = s.cfg.maxCode) ∧ v.extractLsb' 5 3 = 0#3 ∧
    v.extractLsb' 8 4 = s.errcode ∧ v.extractLsb' 12 4 = 0#4 ∧ v.extractLsb' 16 5 = s.statW ∧
    v.extractLsb' 21 11 = 0#11 ∧
    readValue s 0x14 = s.result ∧ readValue s 0x18 = s.rlen ∧ readValue s 0x20 = s.errinfo ∧
    (readValue s 0x1C).extractLsb' 0 17 = s.nextCode ∧ (readValue s 0x1C).extractLsb' 17 15 = 0#15 ∧
    (Inv s → (readValue s 0x14).extractLsb' 16 15 = 0#15)

/-- 10_state.md R34: while a job runs, a `STATUS` read shows `BUSY = 1` and the settled fields as the rules left them, and
`ERRINFO`, `ARG_P`, `ARG_S`, `ARG_C` and `PARAM` read as usual. Nothing is said of the reads the rule leaves open (log
entry 6). -/
def Obligations.BusyReadsKeepSettledFields : Prop :=
  ∀ s : State, s.busy = true →
    let v := readValue s 0x04
    v.getLsbD 0 = true ∧ v.getLsbD 1 = s.done ∧ v.getLsbD 2 = s.err ∧ v.getLsbD 3 = s.ovr ∧
    v.extractLsb' 8 4 = s.errcode ∧ v.extractLsb' 16 5 = s.statW ∧ readValue s 0x20 = s.errinfo ∧
    readValue s 0x08 = s.argP ∧ readValue s 0x0C = s.argS ∧ readValue s 0x10 = s.argC ∧
    readValue s 0x24 = BitVec.ofNat 16 (s.cfg.maxCode - 1) ++ 0#12 ++ BitVec.ofNat 4 s.cfg.symW

/-- 10_state.md R32: `PARAM` is a constant from which a host recovers `SYM_W`, `R`, `EOF_CODE` and `MAX_CODE`, in every
legal configuration, at any time; `0x0FFF0008` in the default one. -/
def Obligations.ParamRecoversConfiguration : Prop :=
  (∀ s : State, s.cfg.legal = true →
    let v := readValue s 0x24
    (v.extractLsb' 0 4).toNat = s.cfg.symW ∧ v.extractLsb' 4 12 = 0#12 ∧
    (v.extractLsb' 16 16).toNat = s.cfg.maxCode - 1 ∧ s.cfg.maxCode = (v.extractLsb' 16 16).toNat + 1 ∧
    s.cfg.r = 2 ^ (v.extractLsb' 0 4).toNat ∧ s.cfg.eofCode = s.cfg.r ∧
    (∀ n, n ≤ 16 → ((v.extractLsb' 16 16).toNat + 1 ≤ 2 ^ n ↔ s.cfg.wMin ≤ n))) ∧
  readValue State.reset 0x24 = 0x0FFF0008#32

/-! ### Control commands (43_control.md) -/

/-- 43_control.md R220, R221: what `NOP` and `CLEAR` do, and that they do nothing else. -/
def Obligations.NopAndClearComplete : Prop :=
  ∀ s : State,
    exec .nop s = .next s.ended ∧
    exec .clear s = .next ({ s with err := false, errcode := 0, ovr := false, errinfo := 0 } : State).ended

/-- 43_control.md R221, 60_exceptions.md R248: whatever error is pending, a `CLEAR` that follows it puts the block back
into service: after the write and one engine step no error is pending, and nothing but the error state is changed. -/
def Obligations.ClearReturnsToService : Prop :=
  ∀ (s : State) (rest : List Event), Inv s → s.busy = false →
    s.agenda = .write s.cfg.csrBase 4 0x00000001#32 :: .engine :: rest →
    ∃ t, runSteps 2 s = .next t ∧
      t = { s with agenda := rest, err := false, errcode := 0, ovr := false, errinfo := 0, done := true,
                   lcmd := 0x00000001#32, lp := s.argP, ls := s.argS, lc := s.argC } ∧
      ∀ v, t.accepts v = true

/-! ### Dictionary commands (40_dictionary.md) -/

/-- 10_state.md R45: the seeded trie, entry by entry, its sequences and its edges from the root. -/
def Obligations.SeededTrieHoldsTheLiterals : Prop :=
  ∀ c : Config, c.legal = true →
    (∀ v : Code, v.toNat < c.r →
      Table.get (seedTrie c) v = some { parent := .root, sym := BitVec.ofNat 15 v.toNat } ∧
      seqOf (seedTrie c) v = some [BitVec.ofNat 15 v.toNat]) ∧
    (∀ v : Code, c.r ≤ v.toNat → Table.get (seedTrie c) v = none) ∧
    ∀ h : Sym, h.toNat < c.r → child (seedTrie c) .root h = some (litCode h) ∧ (litCode h).toNat = h.toNat

/-- 40_dictionary.md R113: `D_SEED` puts the seeded trie in place, whatever was bound, changes nothing else, and running
it twice is running it once. -/
def Obligations.SeedReplacesTheTrie : Prop :=
  ∀ s : State,
    exec .dSeed s = .next ({ s with trie := seedTrie s.cfg } : State).ended ∧
    ∀ t, exec .dSeed s = .next t → exec .dSeed t = .next t

/-- 40_dictionary.md R111: the operand checks, bit for bit, and what a failed one raises: for `D_INSERT` and `D_CHILD`
the offset of the first operand that fails, with no other effect. -/
def Obligations.OperandChecksRaiseBadArg : Prop :=
  ∀ (s : State) (i : Instr), i = .dInsert ∨ i = .dChild →
    let okP := s.lp.extractLsb' 17 15 = 0#15 ∧
      ((s.lp.getLsbD 16 = true ∧ s.lp.extractLsb' 0 16 = 0#16) ∨
       (s.lp.getLsbD 16 = false ∧ (s.lp.extractLsb' 0 16).toNat < s.cfg.maxCode))
    let okS := s.ls.toNat < s.cfg.r
    let okC := s.lc.toNat < s.cfg.maxCode ∧ s.lc.toNat ≠ s.cfg.eofCode
    (validP s.cfg s.lp = true ↔ okP) ∧ (validS s.cfg s.ls = true ↔ okS) ∧
    (s.lp.getLsbD 16 = true → nodeP s.lp = .root) ∧
    (s.lp.getLsbD 16 = false → nodeP s.lp = .node (s.lp.extractLsb' 0 16)) ∧
    (¬ okP → exec i s = .next (s.failed 3 0x08#32)) ∧
    (okP → ¬ okS → exec i s = .next (s.failed 3 0x0C#32)) ∧
    (i = .dInsert → okP → okS → ¬ okC → exec i s = .next (s.failed 3 0x10#32)) ∧
    (okP → okS → (i = .dInsert → okC) → exec i s ≠ .next (s.failed 3 0x08#32) ∧
      exec i s ≠ .next (s.failed 3 0x0C#32) ∧ exec i s ≠ .next (s.failed 3 0x10#32))

/-- 40_dictionary.md R114, the success case: a valid `D_INSERT` with a present parent, a free edge and an unbound code
binds the code, and only it; the sequence the code stands for is the parent's plus the symbol. -/
def Obligations.InsertBindsTheEdge : Prop :=
  ∀ s : State, TrieOk s.cfg s.trie → validP s.cfg s.lp = true → validS s.cfg s.ls = true →
    s.lc.toNat < s.cfg.maxCode → s.lc.toNat ≠ s.cfg.eofCode → s.cfg.legal = true →
    (∀ q, nodeP s.lp = .node q → (Table.get s.trie q).isSome) → child s.trie (nodeP s.lp) (symOf s.ls) = none →
    Table.get s.trie (codeOf s.lc) = none →
    ∃ T, exec .dInsert s = .next ({ s with trie := T } : State).ended ∧ TrieOk s.cfg T ∧
      (codeOf s.lc).toNat = s.lc.toNat ∧ (symOf s.ls).toNat = s.ls.toNat ∧
      Table.get T (codeOf s.lc) = some { parent := nodeP s.lp, sym := symOf s.ls } ∧
      (∀ v, v ≠ codeOf s.lc → Table.get T v = Table.get s.trie v) ∧
      ∀ xs, NodeSeq s.trie (nodeP s.lp) xs → seqOf T (codeOf s.lc) = some (xs ++ [symOf s.ls])

/-- 40_dictionary.md R114, the errors: with valid operands, the first run-time condition that fails decides, and `TRIE`
and everything else stay. -/
def Obligations.InsertErrorsInOrder : Prop :=
  ∀ s : State, TrieOk s.cfg s.trie → validP s.cfg s.lp = true → validS s.cfg s.ls = true →
    s.lc.toNat < s.cfg.maxCode → s.lc.toNat ≠ s.cfg.eofCode →
    (∀ q, nodeP s.lp = .node q → Table.get s.trie q = none →
      exec .dInsert s = .next (s.failed 6 (q.setWidth 32))) ∧
    ((∀ q, nodeP s.lp = .node q → (Table.get s.trie q).isSome) →
      (∀ c, Table.get s.trie c = some { parent := nodeP s.lp, sym := symOf s.ls } →
        exec .dInsert s = .next (s.failed 4 (c.setWidth 32))) ∧
      ((∀ c, Table.get s.trie c ≠ some { parent := nodeP s.lp, sym := symOf s.ls }) →
        (Table.get s.trie (codeOf s.lc)).isSome → exec .dInsert s = .next (s.failed 5 s.lc)))

/-- 40_dictionary.md R115: `D_CHILD` answers the one edge it is asked for: a hit with the child's code, or 0; an unbound
parent has no children; nothing else changes. -/
def Obligations.ChildProbesOneEdge : Prop :=
  ∀ s : State, TrieOk s.cfg s.trie → validP s.cfg s.lp = true → validS s.cfg s.ls = true →
    ∃ r, exec .dChild s = .next ({ s with result := r } : State).ended ∧
      (∀ c, Table.get s.trie c = some { parent := nodeP s.lp, sym := symOf s.ls } →
        r.getLsbD 31 = true ∧ r.extractLsb' 16 15 = 0#15 ∧ r.extractLsb' 0 16 = c) ∧
      ((∀ c, Table.get s.trie c ≠ some { parent := nodeP s.lp, sym := symOf s.ls }) → r = 0#32) ∧
      (∀ q, nodeP s.lp = .node q → Table.get s.trie q = none → r = 0#32)

/-- 40_dictionary.md R116, R117: the first steps of `D_LOOKUP` and `D_LPM`. -/
def Obligations.WalkCommandsStart : Prop :=
  ∀ s : State,
    (s.lc ≠ 0 → exec .dLookup s = .next { s with cur := .root, cnt := 0, estate := .dLkp }) ∧
    (s.lc = 0 → exec .dLookup s = .next (s.failed 3 0x10#32)) ∧
    exec .dLpm s = .next { s with cur := .root, len := 0, estate := .dLpm }

/-- 40_dictionary.md R116, 70_reset_and_hazards.md R286: `D_LOOKUP` of a present sequence of `L` symbols takes `L + 2`
engine steps, returns the code and the length, consumes exactly the `L` symbols, and changes nothing else (`CUR` and
`CNT` are the walk's). -/
def Obligations.LookupFindsPresentSequence : Prop :=
  ∀ (s : State) (xs rest : List Sym) (c : Code), TrieOk s.cfg s.trie → s.cfg.legal = true → s.estate = .decode →
    s.lcmd = encode .dLookup → s.symIn = xs ++ rest → s.lc.toNat = xs.length → seqOf s.trie c = some xs →
    engineRun (xs.length + 2) s = .next
      ({ s with cur := .node c, cnt := s.lc, result := hitResult c, rlen := s.lc, symIn := rest } : State).ended

/-- 40_dictionary.md R116, 60_exceptions.md R244: `D_LOOKUP` fails at the first symbol, of index `i`, that has no edge
from the node reached: that symbol is consumed, `DICT_MISS(i)`; or at the end of `SYM_IN` after `i` symbols:
`IN_END(i)`. `RESULT` and `RLEN` stay. -/
def Obligations.LookupReportsWhereItFails : Prop :=
  ∀ (s : State) (ys rest : List Sym) (p : NodeRef), TrieOk s.cfg s.trie → s.cfg.legal = true → s.estate = .decode →
    s.lcmd = encode .dLookup → ys.length < s.lc.toNat → NodeSeq s.trie p ys → s.symIn = ys ++ rest →
    (∀ h rest', rest = h :: rest' → child s.trie p h = none →
      engineRun (ys.length + 2) s = .next
        (({ s with cur := p, cnt := BitVec.ofNat 32 ys.length, symIn := rest' } : State).failed 6
          (BitVec.ofNat 32 ys.length))) ∧
    (rest = [] →
      engineRun (ys.length + 2) s = .next
        (({ s with cur := p, cnt := BitVec.ofNat 32 ys.length, symIn := [] } : State).failed 7
          (BitVec.ofNat 32 ys.length)))

/-- 40_dictionary.md R118 (R117): when some prefix of the input is present, `D_LPM` succeeds and its answer is the
LONGEST present prefix, its code, and its length; exactly its symbols are consumed. -/
def Obligations.LpmFindsLongestPresentPrefix : Prop :=
  ∀ (s : State) (k : Nat) (c : Code), TrieOk s.cfg s.trie → s.cfg.legal = true → s.estate = .decode →
    s.lcmd = encode .dLpm → k ≤ s.symIn.length → seqOf s.trie c = some (s.symIn.take k) →
    (∀ j, k < j → j ≤ s.symIn.length → ¬ Present s.trie (s.symIn.take j)) →
    engineRun (k + 2) s = .next
      ({ s with cur := .node c, len := BitVec.ofNat 32 k, result := hitResult c, rlen := BitVec.ofNat 32 k,
                symIn := s.symIn.drop k } : State).ended ∧
    ∀ j, 1 ≤ j → j ≤ k → Present s.trie (s.symIn.take j)

/-- 40_dictionary.md R117: `D_LPM` fails only when no prefix is present, in 2 steps, consuming nothing: `IN_END(0)` on an
empty input, else `DICT_MISS` of the first symbol. When the first symbol alone is present, seeded trie or not, it
succeeds with the longest present prefix; on a trie with the literals that is every non-empty input. -/
def Obligations.LpmFailsOnlyWithoutPrefix : Prop :=
  ∀ s : State, TrieOk s.cfg s.trie → s.cfg.legal = true → s.estate = .decode → s.lcmd = encode .dLpm →
    (s.symIn = [] → engineRun 2 s = .next (({ s with cur := .root, len := 0 } : State).failed 7 0#32)) ∧
    (∀ h rest, s.symIn = h :: rest → ¬ Present s.trie [h] →
      engineRun 2 s = .next (({ s with cur := .root, len := 0 } : State).failed 6 (h.setWidth 32))) ∧
    (∀ h rest, s.symIn = h :: rest →
      (Present s.trie [h] ∨ (h.toNat < s.cfg.r ∧ LiteralsSeeded s.cfg s.trie)) →
      ∃ k c t, 1 ≤ k ∧ k ≤ s.symIn.length ∧ seqOf s.trie c = some (s.symIn.take k) ∧
        (∀ j, k < j → j ≤ s.symIn.length → ¬ Present s.trie (s.symIn.take j)) ∧
        engineRun (k + 2) s = .next t ∧ t.estate = .idle ∧ t.done = true ∧ t.rlen.toNat = k ∧
        t.result = hitResult c ∧ t.symIn = s.symIn.drop k)

/-- 40_dictionary.md R110, 20_memory.md R61: no step of a dictionary command writes `NEXT_CODE`, `DTAB`, `CODE_IN`,
`OUT`, `STATUS.W` or an operand register; only `D_SEED` and `D_INSERT` write `TRIE`; only `D_CHILD` and the walks write
`RESULT`, only the walks `RLEN`. -/
def Obligations.DictionaryCommandsFrame : Prop :=
  ∀ (s t : State),
    (exec .dSeed s = .next t ∨ exec .dInsert s = .next t ∨ exec .dChild s = .next t ∨ exec .dLookup s = .next t ∨
      exec .dLpm s = .next t ∨ stepDLkp s = .next t ∨ stepDLpm s = .next t) →
    t.cfg = s.cfg ∧ t.nextCode = s.nextCode ∧ t.dtab = s.dtab ∧ t.codeIn = s.codeIn ∧ t.out = s.out ∧
    t.statW = s.statW ∧ t.wl = s.wl ∧ t.code = s.code ∧ t.argP = s.argP ∧ t.argS = s.argS ∧ t.argC = s.argC ∧
    t.lcmd = s.lcmd ∧ t.lp = s.lp ∧ t.ls = s.ls ∧ t.lc = s.lc ∧ t.ovr = s.ovr ∧
    (exec .dSeed s = .next t ∨ exec .dInsert s = .next t ∨ t.trie = s.trie) ∧
    (exec .dChild s = .next t ∨ stepDLkp s = .next t ∨ stepDLpm s = .next t ∨ t.result = s.result) ∧
    (stepDLkp s = .next t ∨ stepDLpm s = .next t ∨ (t.rlen = s.rlen ∧ t.symIn = s.symIn))

/-! ### The codec commands' start (30_encoding.md R83) -/

/-- 30_encoding.md R83, 41_compress.md R150, 42_expand.md R180: a legal width is latched and shown in `STATUS.W`, and the
job begins; any other width raises `BAD_WIDTH(W)` with no other effect. -/
def Obligations.CodecCommandsStart : Prop :=
  ∀ (s : State) (w : Nat),
    (s.cfg.wMin ≤ w ∧ w ≤ 16 →
      exec (.cCompress w) s = .next { s with wl := BitVec.ofNat 5 w, statW := BitVec.ofNat 5 w, estate := .cInit } ∧
      exec (.cExpand w) s = .next { s with wl := BitVec.ofNat 5 w, statW := BitVec.ofNat 5 w, estate := .eInit } ∧
      (BitVec.ofNat 5 w).toNat = w) ∧
    (¬ (s.cfg.wMin ≤ w ∧ w ≤ 16) →
      exec (.cCompress w) s = .next (s.failed 2 (BitVec.ofNat 32 w)) ∧
      exec (.cExpand w) s = .next (s.failed 2 (BitVec.ofNat 32 w)))

/-! ### The compress engine (41_compress.md) -/

/-- 41_compress.md R153. -/
def Obligations.CompressInitSeeds : Prop :=
  ∀ s : State, s.cfg.legal = true → s.estate = .cInit →
    ∃ T, engineStep s = .next { s with trie := T, nextCode := BitVec.ofNat 17 (s.cfg.r + 1), estate := .cScan } ∧
      (BitVec.ofNat 17 (s.cfg.r + 1) : NextCode).toNat = s.cfg.r + 1 ∧
      ∀ v : Code, Table.get T v =
        if v.toNat < s.cfg.r then some { parent := .root, sym := BitVec.ofNat 15 v.toNat } else none

/-- 41_compress.md R154. -/
def Obligations.CompressScanStartsMatch : Prop :=
  ∀ s : State, s.estate = .cScan →
    (s.symIn = [] → engineStep s = .next { s with estate := .cEof }) ∧
    ∀ h rest, s.symIn = h :: rest →
      engineStep s = .next { s with symIn := rest, cur := .node (litCode h), estate := .cWalk } ∧
      (Inv s → child s.trie .root h = some (litCode h))

/-- 41_compress.md R155: the match is extended, or it ends with the emission of its code and, if a symbol follows and the
table is not full, the binding of the next code, which is unbound before; the binding keeps the trie's invariants. -/
def Obligations.CompressWalkExtendsOrEmits : Prop :=
  ∀ (s : State) (m : Code), Inv s → s.estate = .cWalk → s.cur = .node m →
    (s.symIn = [] → engineStep s = .next { s with out := s.out ++ [.code m s.wl.toNat], estate := .cEof }) ∧
    (∀ h rest c, s.symIn = h :: rest → Table.get s.trie c = some { parent := .node m, sym := h } →
      engineStep s = .next { s with symIn := rest, cur := .node c }) ∧
    (∀ h rest, s.symIn = h :: rest → (∀ c, Table.get s.trie c ≠ some { parent := .node m, sym := h }) →
      (s.nextCode.toNat < s.cfg.maxCode → ∃ T,
        engineStep s = .next { s with
          out := s.out ++ [.code m s.wl.toNat], trie := T, nextCode := s.nextCode + 1, estate := .cScan } ∧
        (s.nextCode + 1).toNat = s.nextCode.toNat + 1 ∧ TrieOk s.cfg T ∧
        (∀ v : Code, v.toNat = s.nextCode.toNat → Table.get s.trie v = none) ∧
        ∀ v : Code, Table.get T v =
          if v.toNat = s.nextCode.toNat then some { parent := .node m, sym := h } else Table.get s.trie v) ∧
      (s.nextCode.toNat = s.cfg.maxCode →
        engineStep s = .next { s with out := s.out ++ [.code m s.wl.toNat], estate := .cScan }))

/-- 41_compress.md R156 and R157. -/
def Obligations.CompressEndsWithEofThenClose : Prop :=
  ∀ s : State, s.cfg.legal = true →
    (s.estate = .cEof → ∃ v, engineStep s = .next { s with out := s.out ++ [.code v s.wl.toNat], estate := .cClose } ∧
      v.toNat = s.cfg.eofCode) ∧
    (s.estate = .cClose → engineStep s = .next ({ s with out := s.out ++ [.close] } : State).ended)

/-- 41_compress.md R158, R151, R161 (and R162, R286): from acceptance, a `C_COMPRESS` job with a legal width ends in IDLE
after exactly the engine steps R286 counts, with the results of the function R151 and nothing else changed but `CUR`, which
the walk moves, and the latches, which acceptance and decode write. -/
def Obligations.CompressJobComputesReference : Prop :=
  ∀ (s : State) (w : Nat), s.cfg.legal = true → s.cfg.widthOk w = true → (∀ h ∈ s.symIn, h.toNat < s.cfg.r) →
    let r := refCompress s.cfg s.symIn
    ∃ t, engineRun (if s.symIn = [] then 5 else s.symIn.length + (r.codes.length - 1) + 4)
        (s.accept (encode (.cCompress w))) = .next t ∧
      t.out = s.out ++ r.codes.map (fun v => .code v w) ++ [.close] ∧ t.symIn = [] ∧ t.trie = r.trie ∧
      t.nextCode.toNat = r.next ∧ t.statW.toNat = w ∧ t.busy = false ∧ t.done = true ∧ t.estate = .idle ∧
      t.cfg = s.cfg ∧ t.dtab = s.dtab ∧ t.codeIn = s.codeIn ∧ t.result = s.result ∧ t.rlen = s.rlen ∧
      t.errinfo = s.errinfo ∧ t.err = s.err ∧ t.errcode = s.errcode ∧ t.ovr = s.ovr ∧ t.argP = s.argP ∧
      t.argS = s.argS ∧ t.argC = s.argC ∧ t.len = s.len ∧ t.code = s.code ∧ t.cnt = s.cnt ∧
      t.lcmd = encode (.cCompress w) ∧ t.lp = s.argP ∧ t.ls = s.argS ∧ t.lc = s.argC ∧ t.wl.toNat = w ∧
      t.agenda = s.agenda ∧ t.hostReads = s.hostReads ∧ t.freeCtr = s.freeCtr

/-- 41_compress.md R159, 30_encoding.md R89, R90: the codes a compress job writes are below `MAX_CODE` and end with the
one `EOF_CODE`, and with `m` codes before it the final counter is `min(MAX_CODE, R + m)`, `R + 1` on empty input. -/
def Obligations.CompressGrowthPolicy : Prop :=
  ∀ (c : Config) (text : List Sym), c.legal = true → (∀ h ∈ text, h.toNat < c.r) →
    let r := refCompress c text
    (∃ codes, r.codes = codes ++ [BitVec.ofNat 16 c.eofCode] ∧
      (∀ v ∈ codes, v.toNat < c.maxCode ∧ v.toNat ≠ c.eofCode) ∧
      r.next = if text = [] then c.r + 1 else min c.maxCode (c.r + codes.length)) ∧
    TrieOk c r.trie ∧ GrownTo c r.trie r.next

/-- 41_compress.md R160: once decode has passed, a `C_COMPRESS` job raises no error: from every state of the compress
machine the job runs to its successful end. -/
def Obligations.CompressNeverRaises : Prop :=
  ∀ s : State, Inv s →
    (s.estate = .cInit ∨ s.estate = .cScan ∨ s.estate = .cWalk ∨ s.estate = .cEof ∨ s.estate = .cClose) →
    ∃ n t, engineRun n s = .next t ∧ t.estate = .idle ∧ t.done = true ∧ t.err = false ∧
      ∀ m u, m ≤ n → engineRun m s = .next u → u.err = false

/-! ### The expand engine (42_expand.md) -/

/-- 42_expand.md R183. -/
def Obligations.ExpandInitSeeds : Prop :=
  ∀ s : State, s.cfg.legal = true → s.estate = .eInit →
    ∃ D, engineStep s = .next
        { s with dtab := D, nextCode := BitVec.ofNat 17 (s.cfg.r + 1), cnt := 0, estate := .eFirst } ∧
      (BitVec.ofNat 17 (s.cfg.r + 1) : NextCode).toNat = s.cfg.r + 1 ∧
      ∀ v : Code, Table.get D v =
        if v.toNat < s.cfg.r then some { head := BitVec.ofNat 15 v.toNat, tail := [] } else none

/-- 42_expand.md R184 (10_state.md R48 for the bits of an item). -/
def Obligations.ExpandFirstCodeMustBeLiteral : Prop :=
  ∀ s : State, s.estate = .eFirst →
    (s.codeIn = [] → engineStep s = .next (s.failed 7 0#32)) ∧
    ∀ (x v : Code) rest, s.codeIn = x :: rest → v.toNat = x.toNat % 2 ^ s.wl.toNat →
      (v.toNat = s.cfg.eofCode → engineStep s = .next { s with codeIn := rest, cnt := 1, estate := .eClose }) ∧
      (v.toNat < s.cfg.r → engineStep s = .next { s with codeIn := rest, cnt := 1, code := v, estate := .eEmit }) ∧
      (s.cfg.r < v.toNat →
        engineStep s = .next (({ s with codeIn := rest, cnt := 1 } : State).failed 8 (v.setWidth 32)))

/-- 42_expand.md R185. That the whole sequence is written in ONE step is the grain R185 itself calls a modelling choice
(log entry 19, DESIGN CHOICE). -/
def Obligations.ExpandEmitsWholeSequence : Prop :=
  ∀ s : State, Inv s → s.estate = .eEmit →
    ∃ xs, Table.get s.dtab s.code = some xs ∧
      engineStep s = .next { s with out := s.out ++ xs.toList.map (fun h => .sym h), estate := .eLook }

/-- 42_expand.md R186. -/
def Obligations.ExpandLookaheadRead : Prop :=
  ∀ s : State, s.estate = .eLook →
    (s.codeIn = [] → engineStep s = .next (s.failed 7 s.cnt)) ∧
    (∀ x rest, s.codeIn = x :: rest → x.toNat % 2 ^ s.wl.toNat = s.cfg.eofCode →
      engineStep s = .next { s with codeIn := rest, cnt := s.cnt + 1, estate := .eClose })

/-- 42_expand.md R187, R190 (and R196 for the error's effect): a lookahead `v` that is not `EOF_CODE`, with room in the
table: the self-referential case, the ordinary case, and `BAD_CODE`. -/
def Obligations.ExpandLookaheadGrowsTable : Prop :=
  ∀ (s : State) (x v : Code) (rest : List Code) (xs : SymSeq), Inv s → s.estate = .eLook → s.codeIn = x :: rest →
    v.toNat = x.toNat % 2 ^ s.wl.toNat → v.toNat ≠ s.cfg.eofCode → s.nextCode.toNat < s.cfg.maxCode →
    Table.get s.dtab s.code = some xs →
    (v.toNat = s.nextCode.toNat → ∃ D,
      engineStep s = .next { s with codeIn := rest, cnt := s.cnt + 1, dtab := D, nextCode := s.nextCode + 1,
                                    code := v, estate := .eEmit } ∧
      ∀ u : Code, Table.get D u =
        if u.toNat = s.nextCode.toNat then some (xs.snoc xs.head) else Table.get s.dtab u) ∧
    (∀ ys, v.toNat ≠ s.nextCode.toNat → Table.get s.dtab v = some ys → ∃ D,
      engineStep s = .next { s with codeIn := rest, cnt := s.cnt + 1, dtab := D, nextCode := s.nextCode + 1,
                                    code := v, estate := .eEmit } ∧
      ∀ u : Code, Table.get D u =
        if u.toNat = s.nextCode.toNat then some (xs.snoc ys.head) else Table.get s.dtab u) ∧
    (s.nextCode.toNat < v.toNat →
      engineStep s = .next (({ s with codeIn := rest, cnt := s.cnt + 1 } : State).failed 8 (v.setWidth 32))) ∧
    (v.toNat < s.nextCode.toNat → (Table.get s.dtab v).isSome)

/-- 42_expand.md R188, R190: a lookahead with a full table: the table is frozen, every code below `MAX_CODE` but `EOF_CODE`
is bound, and only a code out of range raises. -/
def Obligations.ExpandLookaheadFrozenTable : Prop :=
  ∀ (s : State) (x v : Code) (rest : List Code), Inv s → s.estate = .eLook → s.codeIn = x :: rest →
    v.toNat = x.toNat % 2 ^ s.wl.toNat → v.toNat ≠ s.cfg.eofCode → s.nextCode.toNat = s.cfg.maxCode →
    (v.toNat < s.cfg.maxCode → (Table.get s.dtab v).isSome ∧
      engineStep s = .next { s with codeIn := rest, cnt := s.cnt + 1, code := v, estate := .eEmit }) ∧
    (s.cfg.maxCode ≤ v.toNat →
      engineStep s = .next (({ s with codeIn := rest, cnt := s.cnt + 1 } : State).failed 8 (v.setWidth 32)))

/-- 42_expand.md R182, R181, R189, R196 (and R195): from acceptance, a `C_EXPAND` job with a legal width ends in IDLE with
the results of the function R181: on `return` its symbols and one `Close`, on an error its cause and info with the
symbols written before it, the table and the counter as they stood, the read items consumed and no `Close`. With `j` items
read it takes the engine steps 70_reset_and_hazards.md R286 counts: `2k + 4` for `k = j - 1` codes before `EOF_CODE`,
`2j + 1` for an error on the `j`-th code, `2j + 3` for `IN_END` after `j` codes. -/
def Obligations.ExpandJobComputesReference : Prop :=
  ∀ (s : State) (w : Nat), s.cfg.legal = true → s.cfg.widthOk w = true →
    let r := refExpand s.cfg w s.codeIn
    ∃ used t, s.codeIn = used ++ r.left ∧
      engineRun
        (match r.fin with
          | .finished => 2 * (used.length - 1) + 4
          | .inEnd _ => 2 * used.length + 3
          | .badCode _ => 2 * used.length + 1)
        (s.accept (encode (.cExpand w))) = .next t ∧ t.estate = .idle ∧ t.busy = false ∧
      t.dtab = r.dtab ∧ t.nextCode.toNat = r.next ∧ t.codeIn = r.left ∧ t.statW.toNat = w ∧ t.cfg = s.cfg ∧
      t.trie = s.trie ∧ t.symIn = s.symIn ∧ t.result = s.result ∧ t.rlen = s.rlen ∧ t.ovr = s.ovr ∧
      t.argP = s.argP ∧ t.argS = s.argS ∧ t.argC = s.argC ∧ t.cur = s.cur ∧ t.len = s.len ∧
      match r.fin with
      | .finished =>
        1 ≤ used.length ∧ t.out = s.out ++ r.out.map (fun h => .sym h) ++ [.close] ∧ t.done = true ∧
          t.err = s.err ∧ t.errcode = s.errcode ∧ t.errinfo = s.errinfo
      | .inEnd k =>
        k = used.length ∧ t.out = s.out ++ r.out.map (fun h => .sym h) ∧ t.done = false ∧ t.err = true ∧
          t.errcode = 7 ∧ t.errinfo = BitVec.ofNat 32 k
      | .badCode v =>
        1 ≤ used.length ∧ t.out = s.out ++ r.out.map (fun h => .sym h) ∧ t.done = false ∧ t.err = true ∧
          t.errcode = 8 ∧ t.errinfo = v.setWidth 32

/-- 42_expand.md R193: what stands in `CODE_IN` after the `EOF_CODE` that ends a job has no effect on the job and stays
there. -/
def Obligations.ExpandReadsNothingAfterEof : Prop :=
  ∀ (s t : State) (n : Nat) (extra : List Code), s.estate = .eInit →
    engineRun n s = .next t → t.estate = .idle → t.done = true →
    engineRun n { s with codeIn := s.codeIn ++ extra } = .next { t with codeIn := t.codeIn ++ extra }

/-- 42_expand.md R192: compressing any text and expanding what was written, with the same legal width, gives the text
back, and both jobs end with the same `NEXT_CODE`. -/
def Obligations.RoundTrip : Prop :=
  ∀ (s : State) (w : Nat), s.cfg.legal = true → s.cfg.widthOk w = true → (∀ h ∈ s.symIn, h.toNat < s.cfg.r) →
    ∃ n t codes, engineRun n (s.accept (encode (.cCompress w))) = .next t ∧ t.estate = .idle ∧ t.done = true ∧
      t.out = s.out ++ codes.map (fun v => .code v w) ++ [.close] ∧
      ∀ (u : State) (left : List Code), u.cfg = s.cfg → u.codeIn = codes ++ left →
        ∃ n' t', engineRun n' (u.accept (encode (.cExpand w))) = .next t' ∧ t'.estate = .idle ∧ t'.done = true ∧
          t'.out = u.out ++ s.symIn.map (fun h => .sym h) ++ [.close] ∧ t'.nextCode = t.nextCode ∧ t'.codeIn = left

/-! ### Errors (60_exceptions.md) -/

/-- 60_exceptions.md R243, R241, 43_control.md R227: a job that ends in an engine step ends in exactly one of the two
ways: well, with `DONE` and no error; or failed, with `ERR`, `DONE = 0` and a cause of R241. -/
def Obligations.JobEndsDoneOrFailed : Prop :=
  ∀ s t : State, Inv s → s.busy = true → engineStep s = .next t → t.busy = false →
    t.estate = .idle ∧
    ((t.done = true ∧ t.err = false ∧ t.errcode = 0 ∧ t.errinfo = 0) ∨
     (t.done = false ∧ t.err = true ∧ 1 ≤ t.errcode.toNat ∧ t.errcode.toNat ≤ 8))

/-- 60_exceptions.md R247: `ERR` stays set, with the first error's `ERRCODE` and `ERRINFO`, until an accepted `CLEAR` or a
reset; every other `CMD` write is dropped and sets `OVR`. -/
def Obligations.ErrorIsSticky : Prop :=
  ∀ s t : State, Inv s → s.err = true → step s = .next t →
    ((t.err = true ∧ t.errcode = s.errcode ∧ t.errinfo = s.errinfo) ∨
      s.agenda.head? = some .reset ∨
      (s.estate = .decode ∧ s.lcmd = 0x00000001#32 ∧ (s.agenda = [] ∨ s.agenda.head? = some .engine))) ∧
    ∀ v rest, s.agenda = .write s.cfg.csrBase 4 v :: rest → v ≠ 0x00000001#32 →
      t = { s with agenda := rest, ovr := true }

/-- 60_exceptions.md R245, 41_compress.md R157, 42_expand.md R189, 70_reset_and_hazards.md R284: `Close` is written only by
the step that ends a codec job well, once, as its last event; a step that raises writes nothing to `OUT`. -/
def Obligations.CloseOnlyEndsASuccessfulJob : Prop :=
  ∀ s t : State, Inv s → s.estate ≠ .idle → engineStep s = .next t →
    ∃ es, t.out = s.out ++ es ∧
      (OutEvent.close ∈ es → es = [.close] ∧ (s.estate = .cClose ∨ s.estate = .eClose) ∧ t.done = true ∧
        t.estate = .idle) ∧
      (t.err = true → es = [])

/-- 60_exceptions.md R244: a decode-time error, an error of `D_INSERT` or `D_CHILD`, and `BAD_ARG` from `D_LOOKUP` have
no effect but the error entry: no table is seeded, no port is read or written, no result is written. -/
def Obligations.FirstStepErrorsHaveNoOtherEffect : Prop :=
  ∀ s t : State, Inv s → s.estate = .decode → s.err = false → engineStep s = .next t → t.err = true →
    t = s.failed t.errcode t.errinfo

/-! ### Ports (20_memory.md R72; 10_state.md R47 to R49) -/

/-- 20_memory.md R72, 10_state.md R47 to R49: an engine step appends to `OUT`, and consumes `SYM_IN` and `CODE_IN` from
their heads, at most one item each. -/
def Obligations.EngineKeepsStreamOrder : Prop :=
  ∀ s t : State, engineStep s = .next t →
    s.out <+: t.out ∧ (t.symIn = s.symIn ∨ t.symIn = s.symIn.tail) ∧
    (t.codeIn = s.codeIn ∨ t.codeIn = s.codeIn.tail)

/-- 20_memory.md R61, 10_state.md R54: which engine states touch which table and port: only compress and the dictionary
commands write `TRIE`, only expand writes `DTAB` and reads `CODE_IN`; the configuration is never written (R21). -/
def Obligations.TablesHaveTheirWriters : Prop :=
  ∀ s t : State, engineStep s = .next t →
    t.cfg = s.cfg ∧ t.agenda = s.agenda ∧ t.hostReads = s.hostReads ∧ t.freeCtr = s.freeCtr ∧
    (t.trie = s.trie ∨ s.estate = .cInit ∨ s.estate = .cWalk ∨
      (s.estate = .decode ∧ (decode s.lcmd = .ok .dSeed ∨ decode s.lcmd = .ok .dInsert))) ∧
    (t.dtab = s.dtab ∨ s.estate = .eInit ∨ s.estate = .eLook) ∧
    (t.codeIn = s.codeIn ∨ s.estate = .eFirst ∨ s.estate = .eLook) ∧
    (t.nextCode = s.nextCode ∨ s.estate = .cInit ∨ s.estate = .cWalk ∨ s.estate = .eInit ∨ s.estate = .eLook) ∧
    (t.statW = s.statW ∨ (s.estate = .decode ∧
      ∃ w, decode s.lcmd = .ok (.cCompress w) ∨ decode s.lcmd = .ok (.cExpand w)))

/-! ### Reset (70_reset_and_hazards.md) -/

/-- 70_reset_and_hazards.md R272, R271, 10_state.md R53: a reset at any moment leaves the block idle, the control and status
registers 0 but for `PARAM`, which keeps its constant, the tables empty, no error, and the ports as the abandoned job
left them. Nothing is said of `CUR`, `LEN`, `CODE`, `CNT` and the latches, which are unspecified (log entry 3). -/
def Obligations.ResetAbandonsTheJob : Prop :=
  ∀ (s : State) (rest : List Event), s.cfg.legal = true → s.agenda = .reset :: rest →
    ∃ t, step s = .next t ∧ t.agenda = rest ∧ t.estate = .idle ∧ t.busy = false ∧ t.done = false ∧ t.err = false ∧
      t.ovr = false ∧ t.errcode = 0 ∧ t.statW = 0 ∧ t.argP = 0 ∧ t.argS = 0 ∧ t.argC = 0 ∧ t.result = 0 ∧
      t.rlen = 0 ∧ t.nextCode = 0 ∧ t.errinfo = 0 ∧ t.trie = [] ∧ t.dtab = [] ∧ t.cfg = s.cfg ∧
      t.symIn = s.symIn ∧ t.codeIn = s.codeIn ∧ t.out = s.out ∧ readValue t 0x04 = 0#32 ∧
      readValue t 0x24 = BitVec.ofNat 16 (s.cfg.maxCode - 1) ++ 0#12 ++ BitVec.ofNat 4 s.cfg.symW

/-- 70_reset_and_hazards.md R271, 93_implementation_defined.md S1: the values the spec leaves unspecified at reset are
never read before a job writes them. Whatever an idle block holds in them, the same transitions follow and every state
agrees on everything else (log entry 3 names the values the model puts there). -/
def Obligations.UnspecifiedRegistersUnobservable : Prop :=
  ∀ (s s' : State) (n : Nat), s.estate = .idle → s.withoutScratch = s'.withoutScratch →
    match runSteps n s, runSteps n s' with
    | .next t, .next t' => t.withoutScratch = t'.withoutScratch
    | .fault f, .fault f' => f = f'
    | .refused r, .refused r' => r = r'
    | _, _ => False

/-! ### The invariant -/

/-- 10_state.md R42, R46, R53: the state after reset meets the invariant, in every legal configuration. -/
def Obligations.ResetMeetsInvariant : Prop :=
  (∀ c : Config, c.legal = true → Inv (State.resetOf c)) ∧ Inv State.reset

/-- 10_state.md R24, R28, R30, R42, R46, 43_control.md R227: every step of the machine, whatever the transition, keeps the
invariant. -/
def Obligations.StepKeepsInvariant : Prop :=
  ∀ s t : State, Inv s → step s = .next t → Inv t

/-- 42_expand.md R191 ("always bound here", R185) and 40_dictionary.md R116 ("`CUR` is never `ROOT`"): from a state with
the invariant the machine never faults, and an engine step always answers a next state. -/
def Obligations.MachineNeverFaults : Prop :=
  ∀ s : State, Inv s → (∃ t, engineStep s = .next t) ∧ ∀ f, step s ≠ .fault f

/-- 70_reset_and_hazards.md R286 ("Every command therefore terminates when its input port is finite"): from every state
with the invariant the engine is idle within the steps R286 counts. -/
def Obligations.EveryJobTerminates : Prop :=
  ∀ s : State, Inv s → ∃ n t, n ≤ 2 * (s.symIn.length + s.codeIn.length) + 5 ∧ engineRun n s = .next t ∧
    t.estate = .idle
end

