-- ==== Sys2Proof/Laws/Decode.lean ====
section
/-!
SUPPORT. The decoder's inversion lemmas (30_encoding.md R81, R85): what a word that decodes looks like.
-/

namespace Sys2Proof

theorem decodeN_ok_iff {i j : Instr} {v : Word} : decodeN i v = .ok j ↔ reservedClearN v = true ∧ j = i := by
  unfold decodeN
  split
  · rename_i h; simp [h, eq_comm]
  · rename_i h; simp [h]

theorem decodeW_ok_iff {mk : Nat → Instr} {j : Instr} {v : Word} :
    decodeW mk v = .ok j ↔ reservedClearW v = true ∧ j = mk (fieldW v) := by
  unfold decodeW
  split
  · rename_i h; simp [h, eq_comm]
  · rename_i h; simp [h]

/-- The width field is a value from 0 to 31 (R83). -/
theorem fieldW_lt (v : Word) : fieldW v < 32 := (v.extractLsb' 8 5).isLt

/-- What a decoded command says of its word: the opcode, the reserved bits, the width. -/
theorem decode_ok_cases {v : Word} {i : Instr} (h : decode v = .ok i) :
    (reservedClearN v = true ∧
      (((fieldOpc v).toNat = 0 ∧ i = .nop) ∨ ((fieldOpc v).toNat = 1 ∧ i = .clear) ∨
       ((fieldOpc v).toNat = 2 ∧ i = .dSeed) ∨ ((fieldOpc v).toNat = 3 ∧ i = .dInsert) ∨
       ((fieldOpc v).toNat = 4 ∧ i = .dChild) ∨ ((fieldOpc v).toNat = 5 ∧ i = .dLookup) ∨
       ((fieldOpc v).toNat = 6 ∧ i = .dLpm))) ∨
    (reservedClearW v = true ∧
      (((fieldOpc v).toNat = 8 ∧ i = .cCompress (fieldW v)) ∨ ((fieldOpc v).toNat = 9 ∧ i = .cExpand (fieldW v)))) := by
  unfold decode at h
  split at h <;> simp_all [decodeN_ok_iff, decodeW_ok_iff]

/-- `CLEAR`'s word always passes decode (60_exceptions.md R249). -/
theorem decode_clear : decode 0x00000001#32 = .ok .clear := by decide

end Sys2Proof
end

