-- ==== Sys2Proof/Laws/State.lean ====
section
/-!
SUPPORT. What each shared update does to each field of State: one lemma per field per update, true by rfl.
-/

namespace Sys2Proof.Machine

/-! The successful end of a command (43_control.md R226). -/

@[simp] theorem State.complete_cfg (s : State) : s.complete.cfg = s.cfg := rfl
@[simp] theorem State.complete_busy (s : State) : s.complete.busy = false := rfl
@[simp] theorem State.complete_done (s : State) : s.complete.done = true := rfl
@[simp] theorem State.complete_err (s : State) : s.complete.err = s.err := rfl
@[simp] theorem State.complete_ovr (s : State) : s.complete.ovr = s.ovr := rfl
@[simp] theorem State.complete_errcode (s : State) : s.complete.errcode = s.errcode := rfl
@[simp] theorem State.complete_statW (s : State) : s.complete.statW = s.statW := rfl
@[simp] theorem State.complete_argP (s : State) : s.complete.argP = s.argP := rfl
@[simp] theorem State.complete_argS (s : State) : s.complete.argS = s.argS := rfl
@[simp] theorem State.complete_argC (s : State) : s.complete.argC = s.argC := rfl
@[simp] theorem State.complete_result (s : State) : s.complete.result = s.result := rfl
@[simp] theorem State.complete_rlen (s : State) : s.complete.rlen = s.rlen := rfl
@[simp] theorem State.complete_nextCode (s : State) : s.complete.nextCode = s.nextCode := rfl
@[simp] theorem State.complete_errinfo (s : State) : s.complete.errinfo = s.errinfo := rfl
@[simp] theorem State.complete_estate (s : State) : s.complete.estate = .idle := rfl
@[simp] theorem State.complete_cur (s : State) : s.complete.cur = s.cur := rfl
@[simp] theorem State.complete_len (s : State) : s.complete.len = s.len := rfl
@[simp] theorem State.complete_code (s : State) : s.complete.code = s.code := rfl
@[simp] theorem State.complete_lcmd (s : State) : s.complete.lcmd = s.lcmd := rfl
@[simp] theorem State.complete_lp (s : State) : s.complete.lp = s.lp := rfl
@[simp] theorem State.complete_ls (s : State) : s.complete.ls = s.ls := rfl
@[simp] theorem State.complete_lc (s : State) : s.complete.lc = s.lc := rfl
@[simp] theorem State.complete_wl (s : State) : s.complete.wl = s.wl := rfl
@[simp] theorem State.complete_cnt (s : State) : s.complete.cnt = s.cnt := rfl
@[simp] theorem State.complete_trie (s : State) : s.complete.trie = s.trie := rfl
@[simp] theorem State.complete_dtab (s : State) : s.complete.dtab = s.dtab := rfl
@[simp] theorem State.complete_symIn (s : State) : s.complete.symIn = s.symIn := rfl
@[simp] theorem State.complete_codeIn (s : State) : s.complete.codeIn = s.codeIn := rfl
@[simp] theorem State.complete_out (s : State) : s.complete.out = s.out := rfl
@[simp] theorem State.complete_agenda (s : State) : s.complete.agenda = s.agenda := rfl
@[simp] theorem State.complete_hostReads (s : State) : s.complete.hostReads = s.hostReads := rfl
@[simp] theorem State.complete_freeCtr (s : State) : s.complete.freeCtr = s.freeCtr := rfl

/-! The error entry (60_exceptions.md R243). -/

@[simp] theorem State.raise_cfg (x : Cause) (i : Word) (s : State) : (s.raise x i).cfg = s.cfg := rfl
@[simp] theorem State.raise_busy (x : Cause) (i : Word) (s : State) : (s.raise x i).busy = false := rfl
@[simp] theorem State.raise_done (x : Cause) (i : Word) (s : State) : (s.raise x i).done = false := rfl
@[simp] theorem State.raise_err (x : Cause) (i : Word) (s : State) : (s.raise x i).err = true := rfl
@[simp] theorem State.raise_ovr (x : Cause) (i : Word) (s : State) : (s.raise x i).ovr = s.ovr := rfl
@[simp] theorem State.raise_errcode (x : Cause) (i : Word) (s : State) : (s.raise x i).errcode = x.code := rfl
@[simp] theorem State.raise_statW (x : Cause) (i : Word) (s : State) : (s.raise x i).statW = s.statW := rfl
@[simp] theorem State.raise_argP (x : Cause) (i : Word) (s : State) : (s.raise x i).argP = s.argP := rfl
@[simp] theorem State.raise_argS (x : Cause) (i : Word) (s : State) : (s.raise x i).argS = s.argS := rfl
@[simp] theorem State.raise_argC (x : Cause) (i : Word) (s : State) : (s.raise x i).argC = s.argC := rfl
@[simp] theorem State.raise_result (x : Cause) (i : Word) (s : State) : (s.raise x i).result = s.result := rfl
@[simp] theorem State.raise_rlen (x : Cause) (i : Word) (s : State) : (s.raise x i).rlen = s.rlen := rfl
@[simp] theorem State.raise_nextCode (x : Cause) (i : Word) (s : State) : (s.raise x i).nextCode = s.nextCode := rfl
@[simp] theorem State.raise_errinfo (x : Cause) (i : Word) (s : State) : (s.raise x i).errinfo = i := rfl
@[simp] theorem State.raise_estate (x : Cause) (i : Word) (s : State) : (s.raise x i).estate = .idle := rfl
@[simp] theorem State.raise_cur (x : Cause) (i : Word) (s : State) : (s.raise x i).cur = s.cur := rfl
@[simp] theorem State.raise_len (x : Cause) (i : Word) (s : State) : (s.raise x i).len = s.len := rfl
@[simp] theorem State.raise_code (x : Cause) (i : Word) (s : State) : (s.raise x i).code = s.code := rfl
@[simp] theorem State.raise_lcmd (x : Cause) (i : Word) (s : State) : (s.raise x i).lcmd = s.lcmd := rfl
@[simp] theorem State.raise_lp (x : Cause) (i : Word) (s : State) : (s.raise x i).lp = s.lp := rfl
@[simp] theorem State.raise_ls (x : Cause) (i : Word) (s : State) : (s.raise x i).ls = s.ls := rfl
@[simp] theorem State.raise_lc (x : Cause) (i : Word) (s : State) : (s.raise x i).lc = s.lc := rfl
@[simp] theorem State.raise_wl (x : Cause) (i : Word) (s : State) : (s.raise x i).wl = s.wl := rfl
@[simp] theorem State.raise_cnt (x : Cause) (i : Word) (s : State) : (s.raise x i).cnt = s.cnt := rfl
@[simp] theorem State.raise_trie (x : Cause) (i : Word) (s : State) : (s.raise x i).trie = s.trie := rfl
@[simp] theorem State.raise_dtab (x : Cause) (i : Word) (s : State) : (s.raise x i).dtab = s.dtab := rfl
@[simp] theorem State.raise_symIn (x : Cause) (i : Word) (s : State) : (s.raise x i).symIn = s.symIn := rfl
@[simp] theorem State.raise_codeIn (x : Cause) (i : Word) (s : State) : (s.raise x i).codeIn = s.codeIn := rfl
@[simp] theorem State.raise_out (x : Cause) (i : Word) (s : State) : (s.raise x i).out = s.out := rfl
@[simp] theorem State.raise_agenda (x : Cause) (i : Word) (s : State) : (s.raise x i).agenda = s.agenda := rfl
@[simp] theorem State.raise_hostReads (x : Cause) (i : Word) (s : State) : (s.raise x i).hostReads = s.hostReads := rfl
@[simp] theorem State.raise_freeCtr (x : Cause) (i : Word) (s : State) : (s.raise x i).freeCtr = s.freeCtr := rfl

/-! The return from an error (43_control.md R221). -/

@[simp] theorem State.clearError_cfg (s : State) : s.clearError.cfg = s.cfg := rfl
@[simp] theorem State.clearError_busy (s : State) : s.clearError.busy = s.busy := rfl
@[simp] theorem State.clearError_done (s : State) : s.clearError.done = s.done := rfl
@[simp] theorem State.clearError_err (s : State) : s.clearError.err = false := rfl
@[simp] theorem State.clearError_ovr (s : State) : s.clearError.ovr = false := rfl
@[simp] theorem State.clearError_errcode (s : State) : s.clearError.errcode = 0 := rfl
@[simp] theorem State.clearError_statW (s : State) : s.clearError.statW = s.statW := rfl
@[simp] theorem State.clearError_argP (s : State) : s.clearError.argP = s.argP := rfl
@[simp] theorem State.clearError_argS (s : State) : s.clearError.argS = s.argS := rfl
@[simp] theorem State.clearError_argC (s : State) : s.clearError.argC = s.argC := rfl
@[simp] theorem State.clearError_result (s : State) : s.clearError.result = s.result := rfl
@[simp] theorem State.clearError_rlen (s : State) : s.clearError.rlen = s.rlen := rfl
@[simp] theorem State.clearError_nextCode (s : State) : s.clearError.nextCode = s.nextCode := rfl
@[simp] theorem State.clearError_errinfo (s : State) : s.clearError.errinfo = 0 := rfl
@[simp] theorem State.clearError_estate (s : State) : s.clearError.estate = s.estate := rfl
@[simp] theorem State.clearError_cur (s : State) : s.clearError.cur = s.cur := rfl
@[simp] theorem State.clearError_len (s : State) : s.clearError.len = s.len := rfl
@[simp] theorem State.clearError_code (s : State) : s.clearError.code = s.code := rfl
@[simp] theorem State.clearError_lcmd (s : State) : s.clearError.lcmd = s.lcmd := rfl
@[simp] theorem State.clearError_lp (s : State) : s.clearError.lp = s.lp := rfl
@[simp] theorem State.clearError_ls (s : State) : s.clearError.ls = s.ls := rfl
@[simp] theorem State.clearError_lc (s : State) : s.clearError.lc = s.lc := rfl
@[simp] theorem State.clearError_wl (s : State) : s.clearError.wl = s.wl := rfl
@[simp] theorem State.clearError_cnt (s : State) : s.clearError.cnt = s.cnt := rfl
@[simp] theorem State.clearError_trie (s : State) : s.clearError.trie = s.trie := rfl
@[simp] theorem State.clearError_dtab (s : State) : s.clearError.dtab = s.dtab := rfl
@[simp] theorem State.clearError_symIn (s : State) : s.clearError.symIn = s.symIn := rfl
@[simp] theorem State.clearError_codeIn (s : State) : s.clearError.codeIn = s.codeIn := rfl
@[simp] theorem State.clearError_out (s : State) : s.clearError.out = s.out := rfl
@[simp] theorem State.clearError_agenda (s : State) : s.clearError.agenda = s.agenda := rfl
@[simp] theorem State.clearError_hostReads (s : State) : s.clearError.hostReads = s.hostReads := rfl
@[simp] theorem State.clearError_freeCtr (s : State) : s.clearError.freeCtr = s.freeCtr := rfl

/-! Acceptance (43_control.md R224). -/

@[simp] theorem State.accept_cfg (v : Word) (s : State) : (s.accept v).cfg = s.cfg := rfl
@[simp] theorem State.accept_busy (v : Word) (s : State) : (s.accept v).busy = true := rfl
@[simp] theorem State.accept_done (v : Word) (s : State) : (s.accept v).done = false := rfl
@[simp] theorem State.accept_err (v : Word) (s : State) : (s.accept v).err = s.err := rfl
@[simp] theorem State.accept_ovr (v : Word) (s : State) : (s.accept v).ovr = s.ovr := rfl
@[simp] theorem State.accept_errcode (v : Word) (s : State) : (s.accept v).errcode = s.errcode := rfl
@[simp] theorem State.accept_statW (v : Word) (s : State) : (s.accept v).statW = s.statW := rfl
@[simp] theorem State.accept_argP (v : Word) (s : State) : (s.accept v).argP = s.argP := rfl
@[simp] theorem State.accept_argS (v : Word) (s : State) : (s.accept v).argS = s.argS := rfl
@[simp] theorem State.accept_argC (v : Word) (s : State) : (s.accept v).argC = s.argC := rfl
@[simp] theorem State.accept_result (v : Word) (s : State) : (s.accept v).result = s.result := rfl
@[simp] theorem State.accept_rlen (v : Word) (s : State) : (s.accept v).rlen = s.rlen := rfl
@[simp] theorem State.accept_nextCode (v : Word) (s : State) : (s.accept v).nextCode = s.nextCode := rfl
@[simp] theorem State.accept_errinfo (v : Word) (s : State) : (s.accept v).errinfo = s.errinfo := rfl
@[simp] theorem State.accept_estate (v : Word) (s : State) : (s.accept v).estate = .decode := rfl
@[simp] theorem State.accept_cur (v : Word) (s : State) : (s.accept v).cur = s.cur := rfl
@[simp] theorem State.accept_len (v : Word) (s : State) : (s.accept v).len = s.len := rfl
@[simp] theorem State.accept_code (v : Word) (s : State) : (s.accept v).code = s.code := rfl
@[simp] theorem State.accept_lcmd (v : Word) (s : State) : (s.accept v).lcmd = v := rfl
@[simp] theorem State.accept_lp (v : Word) (s : State) : (s.accept v).lp = s.argP := rfl
@[simp] theorem State.accept_ls (v : Word) (s : State) : (s.accept v).ls = s.argS := rfl
@[simp] theorem State.accept_lc (v : Word) (s : State) : (s.accept v).lc = s.argC := rfl
@[simp] theorem State.accept_wl (v : Word) (s : State) : (s.accept v).wl = s.wl := rfl
@[simp] theorem State.accept_cnt (v : Word) (s : State) : (s.accept v).cnt = s.cnt := rfl
@[simp] theorem State.accept_trie (v : Word) (s : State) : (s.accept v).trie = s.trie := rfl
@[simp] theorem State.accept_dtab (v : Word) (s : State) : (s.accept v).dtab = s.dtab := rfl
@[simp] theorem State.accept_symIn (v : Word) (s : State) : (s.accept v).symIn = s.symIn := rfl
@[simp] theorem State.accept_codeIn (v : Word) (s : State) : (s.accept v).codeIn = s.codeIn := rfl
@[simp] theorem State.accept_out (v : Word) (s : State) : (s.accept v).out = s.out := rfl
@[simp] theorem State.accept_agenda (v : Word) (s : State) : (s.accept v).agenda = s.agenda := rfl
@[simp] theorem State.accept_hostReads (v : Word) (s : State) : (s.accept v).hostReads = s.hostReads := rfl
@[simp] theorem State.accept_freeCtr (v : Word) (s : State) : (s.accept v).freeCtr = s.freeCtr := rfl

/-! A dropped command write (43_control.md R222, R223). -/

@[simp] theorem State.drop_cfg (s : State) : s.drop.cfg = s.cfg := rfl
@[simp] theorem State.drop_busy (s : State) : s.drop.busy = s.busy := rfl
@[simp] theorem State.drop_done (s : State) : s.drop.done = s.done := rfl
@[simp] theorem State.drop_err (s : State) : s.drop.err = s.err := rfl
@[simp] theorem State.drop_ovr (s : State) : s.drop.ovr = true := rfl
@[simp] theorem State.drop_errcode (s : State) : s.drop.errcode = s.errcode := rfl
@[simp] theorem State.drop_statW (s : State) : s.drop.statW = s.statW := rfl
@[simp] theorem State.drop_argP (s : State) : s.drop.argP = s.argP := rfl
@[simp] theorem State.drop_argS (s : State) : s.drop.argS = s.argS := rfl
@[simp] theorem State.drop_argC (s : State) : s.drop.argC = s.argC := rfl
@[simp] theorem State.drop_result (s : State) : s.drop.result = s.result := rfl
@[simp] theorem State.drop_rlen (s : State) : s.drop.rlen = s.rlen := rfl
@[simp] theorem State.drop_nextCode (s : State) : s.drop.nextCode = s.nextCode := rfl
@[simp] theorem State.drop_errinfo (s : State) : s.drop.errinfo = s.errinfo := rfl
@[simp] theorem State.drop_estate (s : State) : s.drop.estate = s.estate := rfl
@[simp] theorem State.drop_cur (s : State) : s.drop.cur = s.cur := rfl
@[simp] theorem State.drop_len (s : State) : s.drop.len = s.len := rfl
@[simp] theorem State.drop_code (s : State) : s.drop.code = s.code := rfl
@[simp] theorem State.drop_lcmd (s : State) : s.drop.lcmd = s.lcmd := rfl
@[simp] theorem State.drop_lp (s : State) : s.drop.lp = s.lp := rfl
@[simp] theorem State.drop_ls (s : State) : s.drop.ls = s.ls := rfl
@[simp] theorem State.drop_lc (s : State) : s.drop.lc = s.lc := rfl
@[simp] theorem State.drop_wl (s : State) : s.drop.wl = s.wl := rfl
@[simp] theorem State.drop_cnt (s : State) : s.drop.cnt = s.cnt := rfl
@[simp] theorem State.drop_trie (s : State) : s.drop.trie = s.trie := rfl
@[simp] theorem State.drop_dtab (s : State) : s.drop.dtab = s.dtab := rfl
@[simp] theorem State.drop_symIn (s : State) : s.drop.symIn = s.symIn := rfl
@[simp] theorem State.drop_codeIn (s : State) : s.drop.codeIn = s.codeIn := rfl
@[simp] theorem State.drop_out (s : State) : s.drop.out = s.out := rfl
@[simp] theorem State.drop_agenda (s : State) : s.drop.agenda = s.agenda := rfl
@[simp] theorem State.drop_hostReads (s : State) : s.drop.hostReads = s.hostReads := rfl
@[simp] theorem State.drop_freeCtr (s : State) : s.drop.freeCtr = s.freeCtr := rfl

/-! Events appended to OUT (10_state.md R49). -/

@[simp] theorem State.emit_cfg (es : List OutEvent) (s : State) : (s.emit es).cfg = s.cfg := rfl
@[simp] theorem State.emit_busy (es : List OutEvent) (s : State) : (s.emit es).busy = s.busy := rfl
@[simp] theorem State.emit_done (es : List OutEvent) (s : State) : (s.emit es).done = s.done := rfl
@[simp] theorem State.emit_err (es : List OutEvent) (s : State) : (s.emit es).err = s.err := rfl
@[simp] theorem State.emit_ovr (es : List OutEvent) (s : State) : (s.emit es).ovr = s.ovr := rfl
@[simp] theorem State.emit_errcode (es : List OutEvent) (s : State) : (s.emit es).errcode = s.errcode := rfl
@[simp] theorem State.emit_statW (es : List OutEvent) (s : State) : (s.emit es).statW = s.statW := rfl
@[simp] theorem State.emit_argP (es : List OutEvent) (s : State) : (s.emit es).argP = s.argP := rfl
@[simp] theorem State.emit_argS (es : List OutEvent) (s : State) : (s.emit es).argS = s.argS := rfl
@[simp] theorem State.emit_argC (es : List OutEvent) (s : State) : (s.emit es).argC = s.argC := rfl
@[simp] theorem State.emit_result (es : List OutEvent) (s : State) : (s.emit es).result = s.result := rfl
@[simp] theorem State.emit_rlen (es : List OutEvent) (s : State) : (s.emit es).rlen = s.rlen := rfl
@[simp] theorem State.emit_nextCode (es : List OutEvent) (s : State) : (s.emit es).nextCode = s.nextCode := rfl
@[simp] theorem State.emit_errinfo (es : List OutEvent) (s : State) : (s.emit es).errinfo = s.errinfo := rfl
@[simp] theorem State.emit_estate (es : List OutEvent) (s : State) : (s.emit es).estate = s.estate := rfl
@[simp] theorem State.emit_cur (es : List OutEvent) (s : State) : (s.emit es).cur = s.cur := rfl
@[simp] theorem State.emit_len (es : List OutEvent) (s : State) : (s.emit es).len = s.len := rfl
@[simp] theorem State.emit_code (es : List OutEvent) (s : State) : (s.emit es).code = s.code := rfl
@[simp] theorem State.emit_lcmd (es : List OutEvent) (s : State) : (s.emit es).lcmd = s.lcmd := rfl
@[simp] theorem State.emit_lp (es : List OutEvent) (s : State) : (s.emit es).lp = s.lp := rfl
@[simp] theorem State.emit_ls (es : List OutEvent) (s : State) : (s.emit es).ls = s.ls := rfl
@[simp] theorem State.emit_lc (es : List OutEvent) (s : State) : (s.emit es).lc = s.lc := rfl
@[simp] theorem State.emit_wl (es : List OutEvent) (s : State) : (s.emit es).wl = s.wl := rfl
@[simp] theorem State.emit_cnt (es : List OutEvent) (s : State) : (s.emit es).cnt = s.cnt := rfl
@[simp] theorem State.emit_trie (es : List OutEvent) (s : State) : (s.emit es).trie = s.trie := rfl
@[simp] theorem State.emit_dtab (es : List OutEvent) (s : State) : (s.emit es).dtab = s.dtab := rfl
@[simp] theorem State.emit_symIn (es : List OutEvent) (s : State) : (s.emit es).symIn = s.symIn := rfl
@[simp] theorem State.emit_codeIn (es : List OutEvent) (s : State) : (s.emit es).codeIn = s.codeIn := rfl
@[simp] theorem State.emit_out (es : List OutEvent) (s : State) : (s.emit es).out = s.out ++ es := rfl
@[simp] theorem State.emit_agenda (es : List OutEvent) (s : State) : (s.emit es).agenda = s.agenda := rfl
@[simp] theorem State.emit_hostReads (es : List OutEvent) (s : State) : (s.emit es).hostReads = s.hostReads := rfl
@[simp] theorem State.emit_freeCtr (es : List OutEvent) (s : State) : (s.emit es).freeCtr = s.freeCtr := rfl

/-! One symbol consumed (10_state.md R47). -/

@[simp] theorem State.symPop_cfg (s : State) : s.symPop.cfg = s.cfg := rfl
@[simp] theorem State.symPop_busy (s : State) : s.symPop.busy = s.busy := rfl
@[simp] theorem State.symPop_done (s : State) : s.symPop.done = s.done := rfl
@[simp] theorem State.symPop_err (s : State) : s.symPop.err = s.err := rfl
@[simp] theorem State.symPop_ovr (s : State) : s.symPop.ovr = s.ovr := rfl
@[simp] theorem State.symPop_errcode (s : State) : s.symPop.errcode = s.errcode := rfl
@[simp] theorem State.symPop_statW (s : State) : s.symPop.statW = s.statW := rfl
@[simp] theorem State.symPop_argP (s : State) : s.symPop.argP = s.argP := rfl
@[simp] theorem State.symPop_argS (s : State) : s.symPop.argS = s.argS := rfl
@[simp] theorem State.symPop_argC (s : State) : s.symPop.argC = s.argC := rfl
@[simp] theorem State.symPop_result (s : State) : s.symPop.result = s.result := rfl
@[simp] theorem State.symPop_rlen (s : State) : s.symPop.rlen = s.rlen := rfl
@[simp] theorem State.symPop_nextCode (s : State) : s.symPop.nextCode = s.nextCode := rfl
@[simp] theorem State.symPop_errinfo (s : State) : s.symPop.errinfo = s.errinfo := rfl
@[simp] theorem State.symPop_estate (s : State) : s.symPop.estate = s.estate := rfl
@[simp] theorem State.symPop_cur (s : State) : s.symPop.cur = s.cur := rfl
@[simp] theorem State.symPop_len (s : State) : s.symPop.len = s.len := rfl
@[simp] theorem State.symPop_code (s : State) : s.symPop.code = s.code := rfl
@[simp] theorem State.symPop_lcmd (s : State) : s.symPop.lcmd = s.lcmd := rfl
@[simp] theorem State.symPop_lp (s : State) : s.symPop.lp = s.lp := rfl
@[simp] theorem State.symPop_ls (s : State) : s.symPop.ls = s.ls := rfl
@[simp] theorem State.symPop_lc (s : State) : s.symPop.lc = s.lc := rfl
@[simp] theorem State.symPop_wl (s : State) : s.symPop.wl = s.wl := rfl
@[simp] theorem State.symPop_cnt (s : State) : s.symPop.cnt = s.cnt := rfl
@[simp] theorem State.symPop_trie (s : State) : s.symPop.trie = s.trie := rfl
@[simp] theorem State.symPop_dtab (s : State) : s.symPop.dtab = s.dtab := rfl
@[simp] theorem State.symPop_symIn (s : State) : s.symPop.symIn = s.symIn.tail := rfl
@[simp] theorem State.symPop_codeIn (s : State) : s.symPop.codeIn = s.codeIn := rfl
@[simp] theorem State.symPop_out (s : State) : s.symPop.out = s.out := rfl
@[simp] theorem State.symPop_agenda (s : State) : s.symPop.agenda = s.agenda := rfl
@[simp] theorem State.symPop_hostReads (s : State) : s.symPop.hostReads = s.hostReads := rfl
@[simp] theorem State.symPop_freeCtr (s : State) : s.symPop.freeCtr = s.freeCtr := rfl

/-! The walk moves to a child (40_dictionary.md R112). -/

@[simp] theorem State.walkTo_cfg (c : Code) (s : State) : (s.walkTo c).cfg = s.cfg := rfl
@[simp] theorem State.walkTo_busy (c : Code) (s : State) : (s.walkTo c).busy = s.busy := rfl
@[simp] theorem State.walkTo_done (c : Code) (s : State) : (s.walkTo c).done = s.done := rfl
@[simp] theorem State.walkTo_err (c : Code) (s : State) : (s.walkTo c).err = s.err := rfl
@[simp] theorem State.walkTo_ovr (c : Code) (s : State) : (s.walkTo c).ovr = s.ovr := rfl
@[simp] theorem State.walkTo_errcode (c : Code) (s : State) : (s.walkTo c).errcode = s.errcode := rfl
@[simp] theorem State.walkTo_statW (c : Code) (s : State) : (s.walkTo c).statW = s.statW := rfl
@[simp] theorem State.walkTo_argP (c : Code) (s : State) : (s.walkTo c).argP = s.argP := rfl
@[simp] theorem State.walkTo_argS (c : Code) (s : State) : (s.walkTo c).argS = s.argS := rfl
@[simp] theorem State.walkTo_argC (c : Code) (s : State) : (s.walkTo c).argC = s.argC := rfl
@[simp] theorem State.walkTo_result (c : Code) (s : State) : (s.walkTo c).result = s.result := rfl
@[simp] theorem State.walkTo_rlen (c : Code) (s : State) : (s.walkTo c).rlen = s.rlen := rfl
@[simp] theorem State.walkTo_nextCode (c : Code) (s : State) : (s.walkTo c).nextCode = s.nextCode := rfl
@[simp] theorem State.walkTo_errinfo (c : Code) (s : State) : (s.walkTo c).errinfo = s.errinfo := rfl
@[simp] theorem State.walkTo_estate (c : Code) (s : State) : (s.walkTo c).estate = s.estate := rfl
@[simp] theorem State.walkTo_cur (c : Code) (s : State) : (s.walkTo c).cur = .node c := rfl
@[simp] theorem State.walkTo_len (c : Code) (s : State) : (s.walkTo c).len = s.len := rfl
@[simp] theorem State.walkTo_code (c : Code) (s : State) : (s.walkTo c).code = s.code := rfl
@[simp] theorem State.walkTo_lcmd (c : Code) (s : State) : (s.walkTo c).lcmd = s.lcmd := rfl
@[simp] theorem State.walkTo_lp (c : Code) (s : State) : (s.walkTo c).lp = s.lp := rfl
@[simp] theorem State.walkTo_ls (c : Code) (s : State) : (s.walkTo c).ls = s.ls := rfl
@[simp] theorem State.walkTo_lc (c : Code) (s : State) : (s.walkTo c).lc = s.lc := rfl
@[simp] theorem State.walkTo_wl (c : Code) (s : State) : (s.walkTo c).wl = s.wl := rfl
@[simp] theorem State.walkTo_cnt (c : Code) (s : State) : (s.walkTo c).cnt = s.cnt := rfl
@[simp] theorem State.walkTo_trie (c : Code) (s : State) : (s.walkTo c).trie = s.trie := rfl
@[simp] theorem State.walkTo_dtab (c : Code) (s : State) : (s.walkTo c).dtab = s.dtab := rfl
@[simp] theorem State.walkTo_symIn (c : Code) (s : State) : (s.walkTo c).symIn = s.symIn.tail := rfl
@[simp] theorem State.walkTo_codeIn (c : Code) (s : State) : (s.walkTo c).codeIn = s.codeIn := rfl
@[simp] theorem State.walkTo_out (c : Code) (s : State) : (s.walkTo c).out = s.out := rfl
@[simp] theorem State.walkTo_agenda (c : Code) (s : State) : (s.walkTo c).agenda = s.agenda := rfl
@[simp] theorem State.walkTo_hostReads (c : Code) (s : State) : (s.walkTo c).hostReads = s.hostReads := rfl
@[simp] theorem State.walkTo_freeCtr (c : Code) (s : State) : (s.walkTo c).freeCtr = s.freeCtr := rfl

/-! The width of a codec command (30_encoding.md R83). -/

@[simp] theorem State.latchWidth_cfg (w : Nat) (s : State) : (s.latchWidth w).cfg = s.cfg := rfl
@[simp] theorem State.latchWidth_busy (w : Nat) (s : State) : (s.latchWidth w).busy = s.busy := rfl
@[simp] theorem State.latchWidth_done (w : Nat) (s : State) : (s.latchWidth w).done = s.done := rfl
@[simp] theorem State.latchWidth_err (w : Nat) (s : State) : (s.latchWidth w).err = s.err := rfl
@[simp] theorem State.latchWidth_ovr (w : Nat) (s : State) : (s.latchWidth w).ovr = s.ovr := rfl
@[simp] theorem State.latchWidth_errcode (w : Nat) (s : State) : (s.latchWidth w).errcode = s.errcode := rfl
@[simp] theorem State.latchWidth_statW (w : Nat) (s : State) : (s.latchWidth w).statW = BitVec.ofNat 5 w := rfl
@[simp] theorem State.latchWidth_argP (w : Nat) (s : State) : (s.latchWidth w).argP = s.argP := rfl
@[simp] theorem State.latchWidth_argS (w : Nat) (s : State) : (s.latchWidth w).argS = s.argS := rfl
@[simp] theorem State.latchWidth_argC (w : Nat) (s : State) : (s.latchWidth w).argC = s.argC := rfl
@[simp] theorem State.latchWidth_result (w : Nat) (s : State) : (s.latchWidth w).result = s.result := rfl
@[simp] theorem State.latchWidth_rlen (w : Nat) (s : State) : (s.latchWidth w).rlen = s.rlen := rfl
@[simp] theorem State.latchWidth_nextCode (w : Nat) (s : State) : (s.latchWidth w).nextCode = s.nextCode := rfl
@[simp] theorem State.latchWidth_errinfo (w : Nat) (s : State) : (s.latchWidth w).errinfo = s.errinfo := rfl
@[simp] theorem State.latchWidth_estate (w : Nat) (s : State) : (s.latchWidth w).estate = s.estate := rfl
@[simp] theorem State.latchWidth_cur (w : Nat) (s : State) : (s.latchWidth w).cur = s.cur := rfl
@[simp] theorem State.latchWidth_len (w : Nat) (s : State) : (s.latchWidth w).len = s.len := rfl
@[simp] theorem State.latchWidth_code (w : Nat) (s : State) : (s.latchWidth w).code = s.code := rfl
@[simp] theorem State.latchWidth_lcmd (w : Nat) (s : State) : (s.latchWidth w).lcmd = s.lcmd := rfl
@[simp] theorem State.latchWidth_lp (w : Nat) (s : State) : (s.latchWidth w).lp = s.lp := rfl
@[simp] theorem State.latchWidth_ls (w : Nat) (s : State) : (s.latchWidth w).ls = s.ls := rfl
@[simp] theorem State.latchWidth_lc (w : Nat) (s : State) : (s.latchWidth w).lc = s.lc := rfl
@[simp] theorem State.latchWidth_wl (w : Nat) (s : State) : (s.latchWidth w).wl = BitVec.ofNat 5 w := rfl
@[simp] theorem State.latchWidth_cnt (w : Nat) (s : State) : (s.latchWidth w).cnt = s.cnt := rfl
@[simp] theorem State.latchWidth_trie (w : Nat) (s : State) : (s.latchWidth w).trie = s.trie := rfl
@[simp] theorem State.latchWidth_dtab (w : Nat) (s : State) : (s.latchWidth w).dtab = s.dtab := rfl
@[simp] theorem State.latchWidth_symIn (w : Nat) (s : State) : (s.latchWidth w).symIn = s.symIn := rfl
@[simp] theorem State.latchWidth_codeIn (w : Nat) (s : State) : (s.latchWidth w).codeIn = s.codeIn := rfl
@[simp] theorem State.latchWidth_out (w : Nat) (s : State) : (s.latchWidth w).out = s.out := rfl
@[simp] theorem State.latchWidth_agenda (w : Nat) (s : State) : (s.latchWidth w).agenda = s.agenda := rfl
@[simp] theorem State.latchWidth_hostReads (w : Nat) (s : State) : (s.latchWidth w).hostReads = s.hostReads := rfl
@[simp] theorem State.latchWidth_freeCtr (w : Nat) (s : State) : (s.latchWidth w).freeCtr = s.freeCtr := rfl

/-! The host's record of a read (20_memory.md R66). -/

@[simp] theorem State.logRead_cfg (o : Nat) (v : Word) (s : State) : (s.logRead o v).cfg = s.cfg := rfl
@[simp] theorem State.logRead_busy (o : Nat) (v : Word) (s : State) : (s.logRead o v).busy = s.busy := rfl
@[simp] theorem State.logRead_done (o : Nat) (v : Word) (s : State) : (s.logRead o v).done = s.done := rfl
@[simp] theorem State.logRead_err (o : Nat) (v : Word) (s : State) : (s.logRead o v).err = s.err := rfl
@[simp] theorem State.logRead_ovr (o : Nat) (v : Word) (s : State) : (s.logRead o v).ovr = s.ovr := rfl
@[simp] theorem State.logRead_errcode (o : Nat) (v : Word) (s : State) : (s.logRead o v).errcode = s.errcode := rfl
@[simp] theorem State.logRead_statW (o : Nat) (v : Word) (s : State) : (s.logRead o v).statW = s.statW := rfl
@[simp] theorem State.logRead_argP (o : Nat) (v : Word) (s : State) : (s.logRead o v).argP = s.argP := rfl
@[simp] theorem State.logRead_argS (o : Nat) (v : Word) (s : State) : (s.logRead o v).argS = s.argS := rfl
@[simp] theorem State.logRead_argC (o : Nat) (v : Word) (s : State) : (s.logRead o v).argC = s.argC := rfl
@[simp] theorem State.logRead_result (o : Nat) (v : Word) (s : State) : (s.logRead o v).result = s.result := rfl
@[simp] theorem State.logRead_rlen (o : Nat) (v : Word) (s : State) : (s.logRead o v).rlen = s.rlen := rfl
@[simp] theorem State.logRead_nextCode (o : Nat) (v : Word) (s : State) : (s.logRead o v).nextCode = s.nextCode := rfl
@[simp] theorem State.logRead_errinfo (o : Nat) (v : Word) (s : State) : (s.logRead o v).errinfo = s.errinfo := rfl
@[simp] theorem State.logRead_estate (o : Nat) (v : Word) (s : State) : (s.logRead o v).estate = s.estate := rfl
@[simp] theorem State.logRead_cur (o : Nat) (v : Word) (s : State) : (s.logRead o v).cur = s.cur := rfl
@[simp] theorem State.logRead_len (o : Nat) (v : Word) (s : State) : (s.logRead o v).len = s.len := rfl
@[simp] theorem State.logRead_code (o : Nat) (v : Word) (s : State) : (s.logRead o v).code = s.code := rfl
@[simp] theorem State.logRead_lcmd (o : Nat) (v : Word) (s : State) : (s.logRead o v).lcmd = s.lcmd := rfl
@[simp] theorem State.logRead_lp (o : Nat) (v : Word) (s : State) : (s.logRead o v).lp = s.lp := rfl
@[simp] theorem State.logRead_ls (o : Nat) (v : Word) (s : State) : (s.logRead o v).ls = s.ls := rfl
@[simp] theorem State.logRead_lc (o : Nat) (v : Word) (s : State) : (s.logRead o v).lc = s.lc := rfl
@[simp] theorem State.logRead_wl (o : Nat) (v : Word) (s : State) : (s.logRead o v).wl = s.wl := rfl
@[simp] theorem State.logRead_cnt (o : Nat) (v : Word) (s : State) : (s.logRead o v).cnt = s.cnt := rfl
@[simp] theorem State.logRead_trie (o : Nat) (v : Word) (s : State) : (s.logRead o v).trie = s.trie := rfl
@[simp] theorem State.logRead_dtab (o : Nat) (v : Word) (s : State) : (s.logRead o v).dtab = s.dtab := rfl
@[simp] theorem State.logRead_symIn (o : Nat) (v : Word) (s : State) : (s.logRead o v).symIn = s.symIn := rfl
@[simp] theorem State.logRead_codeIn (o : Nat) (v : Word) (s : State) : (s.logRead o v).codeIn = s.codeIn := rfl
@[simp] theorem State.logRead_out (o : Nat) (v : Word) (s : State) : (s.logRead o v).out = s.out := rfl
@[simp] theorem State.logRead_agenda (o : Nat) (v : Word) (s : State) : (s.logRead o v).agenda = s.agenda := rfl
@[simp] theorem State.logRead_hostReads (o : Nat) (v : Word) (s : State) : (s.logRead o v).hostReads = s.hostReads ++ [{ offset := o, value := v }] := rfl
@[simp] theorem State.logRead_freeCtr (o : Nat) (v : Word) (s : State) : (s.logRead o v).freeCtr = s.freeCtr + 1 := rfl

/-! A reset (70_reset_and_hazards.md R271, R272). -/

@[simp] theorem State.platformReset_cfg (s : State) : s.platformReset.cfg = s.cfg := rfl
@[simp] theorem State.platformReset_busy (s : State) : s.platformReset.busy = false := rfl
@[simp] theorem State.platformReset_done (s : State) : s.platformReset.done = false := rfl
@[simp] theorem State.platformReset_err (s : State) : s.platformReset.err = false := rfl
@[simp] theorem State.platformReset_ovr (s : State) : s.platformReset.ovr = false := rfl
@[simp] theorem State.platformReset_errcode (s : State) : s.platformReset.errcode = 0 := rfl
@[simp] theorem State.platformReset_statW (s : State) : s.platformReset.statW = 0 := rfl
@[simp] theorem State.platformReset_argP (s : State) : s.platformReset.argP = 0 := rfl
@[simp] theorem State.platformReset_argS (s : State) : s.platformReset.argS = 0 := rfl
@[simp] theorem State.platformReset_argC (s : State) : s.platformReset.argC = 0 := rfl
@[simp] theorem State.platformReset_result (s : State) : s.platformReset.result = 0 := rfl
@[simp] theorem State.platformReset_rlen (s : State) : s.platformReset.rlen = 0 := rfl
@[simp] theorem State.platformReset_nextCode (s : State) : s.platformReset.nextCode = 0 := rfl
@[simp] theorem State.platformReset_errinfo (s : State) : s.platformReset.errinfo = 0 := rfl
@[simp] theorem State.platformReset_estate (s : State) : s.platformReset.estate = .idle := rfl
@[simp] theorem State.platformReset_cur (s : State) : s.platformReset.cur = .root := rfl
@[simp] theorem State.platformReset_len (s : State) : s.platformReset.len = 0 := rfl
@[simp] theorem State.platformReset_code (s : State) : s.platformReset.code = 0 := rfl
@[simp] theorem State.platformReset_lcmd (s : State) : s.platformReset.lcmd = 0 := rfl
@[simp] theorem State.platformReset_lp (s : State) : s.platformReset.lp = 0 := rfl
@[simp] theorem State.platformReset_ls (s : State) : s.platformReset.ls = 0 := rfl
@[simp] theorem State.platformReset_lc (s : State) : s.platformReset.lc = 0 := rfl
@[simp] theorem State.platformReset_wl (s : State) : s.platformReset.wl = 0 := rfl
@[simp] theorem State.platformReset_cnt (s : State) : s.platformReset.cnt = 0 := rfl
@[simp] theorem State.platformReset_trie (s : State) : s.platformReset.trie = [] := rfl
@[simp] theorem State.platformReset_dtab (s : State) : s.platformReset.dtab = [] := rfl
@[simp] theorem State.platformReset_symIn (s : State) : s.platformReset.symIn = s.symIn := rfl
@[simp] theorem State.platformReset_codeIn (s : State) : s.platformReset.codeIn = s.codeIn := rfl
@[simp] theorem State.platformReset_out (s : State) : s.platformReset.out = s.out := rfl
@[simp] theorem State.platformReset_agenda (s : State) : s.platformReset.agenda = s.agenda := rfl
@[simp] theorem State.platformReset_hostReads (s : State) : s.platformReset.hostReads = s.hostReads := rfl
@[simp] theorem State.platformReset_freeCtr (s : State) : s.platformReset.freeCtr = s.freeCtr := rfl

/-! The writes of OUT are appends of one event (00_scope.md R15). -/

@[simp] theorem State.codeWrite_eq (v : Code) (s : State) : s.codeWrite v = s.emit [.code v s.wl.toNat] := rfl

@[simp] theorem State.sinkClose_eq (s : State) : s.sinkClose = s.emit [.close] := rfl

end Sys2Proof.Machine
end

