-- ==== Sys2Proof/Laws/Params.lean ====
section
/-!
SUPPORT. The derived parameters (00_scope.md R6 to R10): what a legal configuration gives, and what a legal width gives.
-/

namespace Sys2Proof

/-- A legal configuration, unpacked (R6, R8). -/
theorem Config.legal_iff {c : Config} :
    c.legal = true ↔ 1 ≤ c.symW ∧ c.symW ≤ 15 ∧ c.r + 1 ≤ c.maxCode ∧ c.maxCode ≤ 65536 := by
  simp [Config.legal, and_assoc]

/-- There are at most `2^15` literals (R6, R7). -/
theorem Config.legal_r_le {c : Config} (h : c.legal = true) : c.r ≤ 32768 := by
  have h15 := (Config.legal_iff.mp h).2.1
  calc c.r = 2 ^ c.symW := rfl
    _ ≤ 2 ^ 15 := Nat.pow_le_pow_right (by omega) h15
    _ = 32768 := rfl

theorem Config.legal_r_lt {c : Config} (h : c.legal = true) : c.r < c.maxCode := (Config.legal_iff.mp h).2.2.1

theorem Config.legal_maxCode_le {c : Config} (h : c.legal = true) : c.maxCode ≤ 65536 := (Config.legal_iff.mp h).2.2.2

theorem Config.r_pos (c : Config) : 0 < c.r := Nat.two_pow_pos c.symW

/-- `W_MIN` is a width every code fits (R9): `2^W_MIN >= MAX_CODE`, and it is at most 16. -/
theorem Config.wMin_spec {c : Config} (h : c.maxCode ≤ 65536) : c.maxCode ≤ 2 ^ c.wMin ∧ c.wMin ≤ 16 := by
  have hsome : ((List.range 17).find? fun n => decide (c.maxCode ≤ 2 ^ n)).isSome := by
    rw [List.find?_isSome]
    exact ⟨16, by simp, by simpa using h⟩
  obtain ⟨n, hn⟩ := Option.isSome_iff_exists.mp hsome
  have hp := List.find?_some hn
  have hm := List.mem_of_find?_eq_some hn
  simp only [List.mem_range] at hm
  simp only [Config.wMin, hn, Option.getD_some]
  exact ⟨by simpa using hp, by omega⟩

/-- `W_MIN` is the smallest such width (R9). -/
theorem Config.wMin_least {c : Config} {n : Nat} (h : c.maxCode ≤ 2 ^ n) (hn : n ≤ 16) : c.wMin ≤ n := by
  have hsome : ((List.range 17).find? fun n => decide (c.maxCode ≤ 2 ^ n)).isSome := by
    rw [List.find?_isSome]
    exact ⟨n, by simp; omega, by simpa using h⟩
  obtain ⟨m, hm⟩ := Option.isSome_iff_exists.mp hsome
  simp only [Config.wMin, hm, Option.getD_some]
  by_contra hlt
  rw [List.find?_range_eq_some] at hm
  exact absurd (hm.2.2 n (by omega)) (by simpa using h)

theorem Config.widthOk_iff {c : Config} {w : Nat} : c.widthOk w = true ↔ c.wMin ≤ w ∧ w ≤ 16 := by
  simp [Config.widthOk]

/-- "every code fits": a code below `MAX_CODE` fits a legal width (R10; 30_encoding.md R90). -/
theorem Config.widthOk_fits {c : Config} {w n : Nat} (hl : c.legal = true) (hw : c.widthOk w = true)
    (hn : n < c.maxCode) : n < 2 ^ w := by
  have h1 := (Config.wMin_spec (Config.legal_maxCode_le hl)).1
  have h2 := (Config.widthOk_iff.mp hw).1
  calc n < c.maxCode := hn
    _ ≤ 2 ^ c.wMin := h1
    _ ≤ 2 ^ w := Nat.pow_le_pow_right (by omega) h2

/-- A legal width survives its 5-bit register. -/
theorem Config.widthOk_toNat {c : Config} {w : Nat} (hw : c.widthOk w = true) : (BitVec.ofNat 5 w).toNat = w := by
  have := (Config.widthOk_iff.mp hw).2
  simp only [BitVec.toNat_ofNat]
  omega

end Sys2Proof
end

