-- ==== Sys2Proof/Laws/Tables.lean ====
section
/-!
SUPPORT. The laws of the tables (10_state.md R41 to R46): read after write, the canonical form is kept, the seeded tables,
`child` and `seq`.
-/

namespace Sys2Proof.Machine

variable {α : Type}

/-! ### Read after write -/

@[simp] theorem Table.get_nil (c : Code) : Table.get ([] : Table α) c = none := rfl

theorem Table.get_cons (k c : Code) (v : α) (t : Table α) :
    Table.get ((k, v) :: t) c = if k = c then some v else Table.get t c := rfl

@[simp] theorem Table.get_set_same (t : Table α) (c : Code) (a : α) : Table.get (Table.set t c a) c = some a := by
  induction t with
  | nil => simp [Table.set, Table.get]
  | cons e t ih =>
    obtain ⟨k, v⟩ := e
    simp only [Table.set]
    split
    · simp [Table.get]
    · split
      · simp [Table.get]
      · rename_i hne
        simp [Table.get, Ne.symm hne, ih]

theorem Table.get_set_other (t : Table α) {c d : Code} (a : α) (h : d ≠ c) :
    Table.get (Table.set t c a) d = Table.get t d := by
  induction t with
  | nil => simp [Table.set, Table.get, Ne.symm h]
  | cons e t ih =>
    obtain ⟨k, v⟩ := e
    simp only [Table.set]
    split
    · simp [Table.get, Ne.symm h]
    · split
      · rename_i heq
        subst heq
        simp [Table.get, Ne.symm h]
      · simp [Table.get, ih]

theorem Table.get_set (t : Table α) (c d : Code) (a : α) :
    Table.get (Table.set t c a) d = if d = c then some a else Table.get t d := by
  split
  · rename_i h; subst h; exact Table.get_set_same t d a
  · rename_i h; exact Table.get_set_other t a h

/-! ### The canonical form -/

theorem Table.wf_nil (n : Nat) : Table.wf n ([] : Table α) := by simp [Table.wf]

theorem Table.mem_of_get {t : Table α} {c : Code} {a : α} (h : Table.get t c = some a) : (c, a) ∈ t := by
  induction t with
  | nil => simp at h
  | cons e t ih =>
    obtain ⟨k, v⟩ := e
    simp only [Table.get_cons] at h
    split at h
    · rename_i hk
      simp_all
    · exact List.mem_cons_of_mem _ (ih h)

theorem Table.get_of_mem {n : Nat} {t : Table α} (hw : Table.wf n t) {c : Code} {a : α} (h : (c, a) ∈ t) :
    Table.get t c = some a := by
  induction t with
  | nil => simp at h
  | cons e t ih =>
    obtain ⟨k, v⟩ := e
    obtain ⟨hp, hb⟩ := hw
    rw [List.pairwise_cons] at hp
    simp only [Table.get_cons]
    rcases List.mem_cons.mp h with heq | hin
    · cases heq; simp
    · have hlt := hp.1 _ hin
      have hne : k ≠ c := fun hk => by subst hk; simp at hlt
      rw [if_neg hne]
      exact ih ⟨hp.2, fun x hx => hb x (List.mem_cons_of_mem _ hx)⟩ hin

theorem Table.get_lt {n : Nat} {t : Table α} (hw : Table.wf n t) {c : Code} (h : (Table.get t c).isSome) :
    c.toNat < n := by
  obtain ⟨a, ha⟩ := Option.isSome_iff_exists.mp h
  exact hw.2 _ (Table.mem_of_get ha)

theorem Table.mem_set {t : Table α} {c : Code} {a : α} {x : Code × α} (h : x ∈ Table.set t c a) :
    x = (c, a) ∨ x ∈ t := by
  induction t with
  | nil => simpa [Table.set] using h
  | cons e t ih =>
    obtain ⟨k, v⟩ := e
    simp only [Table.set] at h
    split at h
    · simpa using h
    · split at h
      · rcases List.mem_cons.mp h with h | h
        · exact .inl h
        · exact .inr (List.mem_cons_of_mem _ h)
      · rcases List.mem_cons.mp h with h | h
        · exact .inr (by simp [h])
        · exact (ih h).imp id (List.mem_cons_of_mem _)

/-- Every table write keeps the canonical form. -/
theorem Table.wf_set {n : Nat} {t : Table α} (hw : Table.wf n t) {c : Code} (a : α) (hc : c.toNat < n) :
    Table.wf n (Table.set t c a) := by
  refine ⟨?_, fun x hx => (Table.mem_set hx).elim (fun h => by simpa [h] using hc) (hw.2 x)⟩
  obtain ⟨hp, -⟩ := hw
  induction t with
  | nil => simp [Table.set]
  | cons e t ih =>
    obtain ⟨k, v⟩ := e
    rw [List.pairwise_cons] at hp
    simp only [Table.set]
    split
    · rename_i hlt
      refine List.pairwise_cons.mpr ⟨fun x hx => ?_, List.pairwise_cons.mpr hp⟩
      rcases List.mem_cons.mp hx with h | h
      · simpa [h] using hlt
      · exact hlt.trans (hp.1 x h)
    · split
      · rename_i heq
        subst heq
        exact List.pairwise_cons.mpr hp
      · rename_i hnlt hne
        refine List.pairwise_cons.mpr ⟨fun x hx => ?_, ih hp.2⟩
        rcases Table.mem_set hx with h | h
        · have : c.toNat ≠ k.toNat := fun h' => hne (BitVec.eq_of_toNat_eq h')
          simp only [h]
          omega
        · exact hp.1 x h

theorem Table.length_set_of_none {t : Table α} {c : Code} (a : α) (h : Table.get t c = none) :
    (Table.set t c a).length = t.length + 1 := by
  induction t with
  | nil => simp [Table.set]
  | cons e t ih =>
    obtain ⟨k, v⟩ := e
    simp only [Table.get_cons] at h
    split at h
    · simp at h
    · rename_i hk
      simp only [Table.set]
      split
      · simp
      · rw [if_neg (Ne.symm hk)]
        simp [ih h]

/-- A canonical table of `n` entries lists at most `n` of them. -/
theorem Table.length_le {n : Nat} {t : Table α} (hw : Table.wf n t) : t.length ≤ n := by
  have hnd : (t.map fun x => x.1.toNat).Nodup := by
    rw [List.Nodup, List.pairwise_map]
    exact hw.1.imp fun h => Nat.ne_of_lt h
  have hsub : (t.map fun x => x.1.toNat) ⊆ List.range n := by
    intro k hk
    obtain ⟨x, hx, rfl⟩ := List.mem_map.mp hk
    exact List.mem_range.mpr (hw.2 x hx)
  simpa using (List.subperm_of_subset hnd hsub).length_le

/-! ### The seeded tables -/

theorem Table.get_append (t u : Table α) (c : Code) :
    Table.get (t ++ u) c = (Table.get t c).or (Table.get u c) := by
  induction t with
  | nil => simp
  | cons e t ih =>
    obtain ⟨k, v⟩ := e
    simp only [List.cons_append, Table.get_cons]
    split <;> simp [ih]

theorem Table.get_map_range (n : Nat) (hn : n ≤ 65536) (f : Nat → α) (v : Code) :
    Table.get ((List.range n).map fun k => (BitVec.ofNat 16 k, f k)) v =
      if v.toNat < n then some (f v.toNat) else none := by
  induction n with
  | zero => simp
  | succ n ih =>
    rw [List.range_succ, List.map_append, Table.get_append, ih (by omega)]
    simp only [List.map_cons, List.map_nil, Table.get_cons, Table.get_nil]
    by_cases hlt : v.toNat < n
    · simp [hlt, Nat.lt_succ_of_lt hlt]
    · by_cases heq : v.toNat = n
      · have hv : BitVec.ofNat 16 n = v := by
          apply BitVec.eq_of_toNat_eq
          simp only [BitVec.toNat_ofNat]
          omega
        simp [hv, heq]
      · have hv : BitVec.ofNat 16 n ≠ v := by
          intro h
          apply heq
          rw [← h]
          simp only [BitVec.toNat_ofNat]
          omega
        simp [hv, hlt, show ¬ v.toNat < n + 1 by omega]

theorem Table.wf_map_range (n m : Nat) (hn : n ≤ 65536) (hm : n ≤ m) (f : Nat → α) :
    Table.wf m ((List.range n).map fun k => (BitVec.ofNat 16 k, f k)) := by
  refine ⟨?_, fun x hx => ?_⟩
  · rw [List.pairwise_map]
    refine List.pairwise_lt_range.imp_of_mem fun {a b} ha hb hab => ?_
    simp only [List.mem_range] at ha hb
    simp only [BitVec.toNat_ofNat]
    omega
  · obtain ⟨k, hk, rfl⟩ := List.mem_map.mp hx
    simp only [List.mem_range] at hk
    simp only [BitVec.toNat_ofNat]
    omega

/-- `SEED_T` (10_state.md R45): a literal is the child of `ROOT` along its own value, every other code is unbound. -/
theorem get_seedTrie {c : Config} (hl : c.legal = true) (v : Code) :
    Table.get (seedTrie c) v =
      if v.toNat < c.r then some { parent := .root, sym := BitVec.ofNat 15 v.toNat } else none := by
  have := Config.legal_r_le hl
  exact Table.get_map_range c.r (by omega) _ v

theorem wf_seedTrie {c : Config} (hl : c.legal = true) : Table.wf c.maxCode (seedTrie c) :=
  Table.wf_map_range _ _ (by have := Config.legal_r_le hl; omega) (Config.legal_r_lt hl).le _

/-- `SEED_D` (10_state.md R46): a literal stands for its own one-symbol sequence, every other code is unbound. -/
theorem get_seedDtab {c : Config} (hl : c.legal = true) (v : Code) :
    Table.get (seedDtab c) v =
      if v.toNat < c.r then some { head := BitVec.ofNat 15 v.toNat, tail := [] } else none := by
  have := Config.legal_r_le hl
  exact Table.get_map_range c.r (by omega) _ v

theorem wf_seedDtab {c : Config} (hl : c.legal = true) : Table.wf c.maxCode (seedDtab c) :=
  Table.wf_map_range _ _ (by have := Config.legal_r_le hl; omega) (Config.legal_r_lt hl).le _

/-! ### Codes, counters and symbols -/

@[simp] theorem litCode_toNat (h : Sym) : (litCode h).toNat = h.toNat := by
  have := h.isLt
  simp only [litCode, BitVec.toNat_setWidth]
  omega

theorem ofNat_litCode (h : Sym) : BitVec.ofNat 15 (litCode h).toNat = h := by
  simp

/-- Below `MAX_CODE` the counter is a code. -/
theorem codeOfNext_toNat {n : NextCode} (h : n.toNat < 65536) : (codeOfNext n).toNat = n.toNat := by
  simp only [codeOfNext, BitVec.toNat_setWidth]
  omega

/-- The guarded increment of the counter never wraps (00_scope.md R13). -/
theorem next_succ_toNat {n : NextCode} (h : n.toNat < 65536) : (n + 1).toNat = n.toNat + 1 := by
  have h1 : (1 : NextCode).toNat = 1 := rfl
  rw [BitVec.toNat_add, h1]
  omega

@[simp] theorem SymSeq.toList_snoc (x : SymSeq) (h : Sym) : (x.snoc h).toList = x.toList ++ [h] := rfl

@[simp] theorem SymSeq.snoc_head (x : SymSeq) (h : Sym) : (x.snoc h).head = x.head := rfl

/-! ### `child` (10_state.md R43) -/

theorem mem_of_child {t : Table TrieEntry} {p : NodeRef} {h : Sym} {c : Code} (hc : child t p h = some c) :
    (c, { parent := p, sym := h }) ∈ t := by
  induction t with
  | nil => simp [child] at hc
  | cons e t ih =>
    obtain ⟨k, ⟨q, s⟩⟩ := e
    simp only [child] at hc
    split at hc
    · rename_i heq
      simp_all
    · exact List.mem_cons_of_mem _ (ih hc)

theorem child_none_iff {t : Table TrieEntry} {p : NodeRef} {h : Sym} :
    child t p h = none ↔ ∀ c, (c, { parent := p, sym := h }) ∉ t := by
  induction t with
  | nil => simp [child]
  | cons e t ih =>
    obtain ⟨k, ⟨q, s⟩⟩ := e
    simp only [child]
    split
    · rename_i heq
      obtain ⟨rfl, rfl⟩ := heq
      exact iff_of_false (by simp) fun hall => hall k (List.mem_cons_self ..)
    · rename_i hne
      rw [ih]
      refine forall_congr' fun c => ?_
      simp only [List.mem_cons, Prod.mk.injEq, TrieEntry.mk.injEq, not_or]
      constructor
      · exact fun hm => ⟨fun ⟨_, h1, h2⟩ => hne ⟨h1.symm, h2.symm⟩, hm⟩
      · exact fun hm => hm.2

theorem get_of_child {n : Nat} {t : Table TrieEntry} (hw : Table.wf n t) {p : NodeRef} {h : Sym} {c : Code}
    (hc : child t p h = some c) : Table.get t c = some { parent := p, sym := h } :=
  Table.get_of_mem hw (mem_of_child hc)

theorem get_ne_of_child_none {t : Table TrieEntry} {p : NodeRef} {h : Sym} (hc : child t p h = none) (c : Code) :
    Table.get t c ≠ some { parent := p, sym := h } :=
  fun hg => child_none_iff.mp hc c (Table.mem_of_get hg)

/-- With at most one child per symbol (T3), `child` is the inverse of the table. -/
theorem child_eq_some_iff {n : Nat} {t : Table TrieEntry} (hw : Table.wf n t)
    (hu : ∀ v₁ v₂ e, Table.get t v₁ = some e → Table.get t v₂ = some e → v₁ = v₂) {p : NodeRef} {h : Sym} {c : Code} :
    child t p h = some c ↔ Table.get t c = some { parent := p, sym := h } := by
  refine ⟨get_of_child hw, fun hg => ?_⟩
  cases hc : child t p h with
  | none => exact absurd hg (get_ne_of_child_none hc c)
  | some d => rw [hu _ _ _ (get_of_child hw hc) hg]

/-! ### `seq` (10_state.md R44) -/

theorem seqFuel_mono {t : Table TrieEntry} {n m : Nat} {c : Code} {xs : List Sym} (h : seqFuel t n c = some xs)
    (hnm : n ≤ m) : seqFuel t m c = some xs := by
  induction n generalizing m c xs with
  | zero => simp [seqFuel] at h
  | succ n ih =>
    obtain ⟨m, rfl⟩ : ∃ k, m = k + 1 := ⟨m - 1, by omega⟩
    simp only [seqFuel] at h ⊢
    cases hg : Table.get t c with
    | none => simp [hg] at h
    | some e =>
      simp only [hg] at h ⊢
      cases hp : e.parent with
      | root => simpa [hp] using h
      | node q =>
        simp only [hp] at h ⊢
        obtain ⟨ys, hys, rfl⟩ := Option.map_eq_some_iff.mp h
        rw [ih hys (by omega)]
        rfl

/-- A stored sequence is not empty, and no longer than the chain followed. -/
theorem seqFuel_length {t : Table TrieEntry} {n : Nat} {c : Code} {xs : List Sym} (h : seqFuel t n c = some xs) :
    1 ≤ xs.length ∧ xs.length ≤ n := by
  induction n generalizing c xs with
  | zero => simp [seqFuel] at h
  | succ n ih =>
    simp only [seqFuel] at h
    cases hg : Table.get t c with
    | none => simp [hg] at h
    | some e =>
      simp only [hg] at h
      cases hp : e.parent with
      | root =>
        simp only [hp, Option.some.injEq] at h
        subst h
        simp
      | node q =>
        simp only [hp] at h
        obtain ⟨ys, hys, rfl⟩ := Option.map_eq_some_iff.mp h
        have := ih hys
        simp only [List.length_append, List.length_cons, List.length_nil]
        omega

/-- Binding an unbound code changes no sequence that was there. -/
theorem seqFuel_set {t : Table TrieEntry} {n : Nat} {c v : Code} {e : TrieEntry} {xs : List Sym}
    (hc : Table.get t c = none) (h : seqFuel t n v = some xs) : seqFuel (Table.set t c e) n v = some xs := by
  induction n generalizing v xs with
  | zero => simp [seqFuel] at h
  | succ n ih =>
    simp only [seqFuel] at h ⊢
    have hne : v ≠ c := fun heq => by subst heq; simp [hc] at h
    rw [Table.get_set_other _ _ hne]
    cases hg : Table.get t v with
    | none => simp [hg] at h
    | some e' =>
      simp only [hg] at h ⊢
      cases hp : e'.parent with
      | root => simpa [hp] using h
      | node q =>
        simp only [hp] at h ⊢
        obtain ⟨ys, hys, rfl⟩ := Option.map_eq_some_iff.mp h
        rw [ih hys]
        rfl

theorem seqOf_root {t : Table TrieEntry} {c : Code} {h : Sym}
    (hg : Table.get t c = some { parent := .root, sym := h }) : seqOf t c = some [h] := by
  have hlen : 0 < t.length := List.length_pos_of_mem (Table.mem_of_get hg)
  obtain ⟨n, hn⟩ : ∃ n, t.length = n + 1 := ⟨t.length - 1, by omega⟩
  simp [seqOf, hn, seqFuel, hg]

/-- `seq(c) = seq(q) ++ [s]` (10_state.md R44), where the chain of `c` is known to end. -/
theorem seqOf_node {t : Table TrieEntry} {c q : Code} {h : Sym} {xs : List Sym}
    (hg : Table.get t c = some { parent := .node q, sym := h }) (hend : (seqOf t c).isSome)
    (hq : seqOf t q = some xs) : seqOf t c = some (xs ++ [h]) := by
  obtain ⟨ys, hys⟩ := Option.isSome_iff_exists.mp hend
  have hlen : 0 < t.length := List.length_pos_of_mem (Table.mem_of_get hg)
  obtain ⟨n, hn⟩ : ∃ n, t.length = n + 1 := ⟨t.length - 1, by omega⟩
  rw [hys]
  simp only [seqOf, hn, seqFuel, hg] at hys
  obtain ⟨zs, hzs, rfl⟩ := Option.map_eq_some_iff.mp hys
  have hz : seqOf t q = some zs := seqFuel_mono hzs (by omega)
  rw [hq, Option.some.injEq] at hz
  rw [hz]

theorem seqOf_length {t : Table TrieEntry} {c : Code} {xs : List Sym} (h : seqOf t c = some xs) :
    1 ≤ xs.length ∧ xs.length ≤ t.length := seqFuel_length h

theorem seqOf_bound {t : Table TrieEntry} {c : Code} {xs : List Sym} (h : seqOf t c = some xs) :
    (Table.get t c).isSome := by
  unfold seqOf at h
  cases hn : t.length with
  | zero => simp [hn, seqFuel] at h
  | succ n =>
    rw [hn] at h
    simp only [seqFuel] at h
    cases hg : Table.get t c with
    | none => simp [hg] at h
    | some e => rfl

theorem seqOf_set_old {t : Table TrieEntry} {c v : Code} {e : TrieEntry} {xs : List Sym}
    (hc : Table.get t c = none) (h : seqOf t v = some xs) : seqOf (Table.set t c e) v = some xs := by
  unfold seqOf
  rw [Table.length_set_of_none e hc]
  exact seqFuel_mono (seqFuel_set hc h) (by omega)

theorem seqOf_set_new_root {t : Table TrieEntry} {c : Code} {h : Sym} :
    seqOf (Table.set t c { parent := .root, sym := h }) c = some [h] :=
  seqOf_root (Table.get_set_same _ _ _)

theorem seqOf_set_new_node {t : Table TrieEntry} {c q : Code} {h : Sym} {xs : List Sym}
    (hc : Table.get t c = none) (hq : seqOf t q = some xs) :
    seqOf (Table.set t c { parent := .node q, sym := h }) c = some (xs ++ [h]) := by
  unfold seqOf
  rw [Table.length_set_of_none _ hc]
  simp only [seqFuel, Table.get_set_same]
  have := seqFuel_set (e := { parent := .node q, sym := h }) hc hq
  rw [this]
  rfl

end Sys2Proof.Machine
end

