-- ==== Sys2Proof/Laws/Invariants.lean ====
section
/-!
SUPPORT. How the tables' invariants (10_state.md R42, R46) come about and are kept: the seeded and the empty tables have
them, and binding a fresh edge or a fresh code keeps them (40_dictionary.md R121; 41_compress.md R155).
-/

namespace Sys2Proof.Machine

/-! ### The trie -/

theorem TrieOk.nil (c : Config) : TrieOk c [] where
  wf := Table.wf_nil _
  eofUnbound := by simp
  parentBound := by simp
  chainEnds := by simp
  edgeUnique := by simp
  symBound := by simp

/-- `D_SEED` and C_INIT establish the invariants (40_dictionary.md R121). -/
theorem TrieOk.seed {c : Config} (hl : c.legal = true) : TrieOk c (seedTrie c) where
  wf := wf_seedTrie hl
  eofUnbound v h := by
    rw [get_seedTrie hl] at h
    split at h
    · rename_i hv; exact Nat.ne_of_lt hv
    · simp at h
  parentBound v e q h hp := by
    rw [get_seedTrie hl] at h
    split at h
    · simp only [Option.some.injEq] at h
      subst h
      simp at hp
    · simp at h
  chainEnds v h := by
    rw [get_seedTrie hl] at h
    split at h
    · rename_i hv
      rw [seqOf_root (h := BitVec.ofNat 15 v.toNat) (by rw [get_seedTrie hl, if_pos hv])]
      rfl
    · simp at h
  edgeUnique v₁ v₂ e h₁ h₂ := by
    rw [get_seedTrie hl] at h₁ h₂
    split at h₁
    · split at h₂
      · rename_i hv₁ hv₂
        simp only [Option.some.injEq] at h₁ h₂
        rw [← h₂, TrieEntry.mk.injEq] at h₁
        have hn := congrArg BitVec.toNat h₁.2
        have := Config.legal_r_le hl
        simp only [BitVec.toNat_ofNat] at hn
        apply BitVec.eq_of_toNat_eq
        omega
      · simp at h₂
    · simp at h₁
  symBound v e h := by
    rw [get_seedTrie hl] at h
    split at h
    · rename_i hv
      simp only [Option.some.injEq] at h
      subst h
      simp only [BitVec.toNat_ofNat]
      omega
    · simp at h

/-- Binding a fresh edge from a present parent to an unbound code keeps the invariants (40_dictionary.md R121). -/
theorem TrieOk.set {c : Config} {t : Table TrieEntry} (ok : TrieOk c t) {v : Code} {p : NodeRef} {h : Sym}
    (hv : v.toNat < c.maxCode) (heof : v.toNat ≠ c.eofCode) (hfree : Table.get t v = none)
    (hp : ∀ q, p = .node q → (Table.get t q).isSome) (hedge : child t p h = none) (hh : h.toNat < c.r) :
    TrieOk c (Table.set t v { parent := p, sym := h }) where
  wf := Table.wf_set ok.wf _ hv
  eofUnbound u hu := by
    rw [Table.get_set] at hu
    split at hu
    · rename_i he; rw [he]; exact heof
    · exact ok.eofUnbound u hu
  parentBound u e q hu he := by
    rw [Table.get_set] at hu ⊢
    have hq : (Table.get t q).isSome := by
      split at hu
      · simp only [Option.some.injEq] at hu
        subst hu
        exact hp q he
      · exact ok.parentBound u e q hu he
    split
    · rfl
    · exact hq
  chainEnds u hu := by
    rw [Table.get_set] at hu
    by_cases huv : u = v
    · subst huv
      cases p with
      | root => simp [seqOf_set_new_root]
      | node q =>
        obtain ⟨xs, hxs⟩ := Option.isSome_iff_exists.mp (ok.chainEnds q (hp q rfl))
        simp [seqOf_set_new_node hfree hxs]
    · rw [if_neg huv] at hu
      obtain ⟨xs, hxs⟩ := Option.isSome_iff_exists.mp (ok.chainEnds u hu)
      simp [seqOf_set_old hfree hxs]
  edgeUnique u₁ u₂ e h₁ h₂ := by
    rw [Table.get_set] at h₁ h₂
    split at h₁ <;> split at h₂
    · simp_all
    · simp only [Option.some.injEq] at h₁
      subst h₁
      exact absurd h₂ (get_ne_of_child_none hedge u₂)
    · simp only [Option.some.injEq] at h₂
      subst h₂
      exact absurd h₁ (get_ne_of_child_none hedge u₁)
    · exact ok.edgeUnique _ _ e h₁ h₂
  symBound u e hu := by
    rw [Table.get_set] at hu
    split at hu
    · simp only [Option.some.injEq] at hu
      subst hu
      exact hh
    · exact ok.symBound u e hu

theorem TrieOk.child_iff {c : Config} {t : Table TrieEntry} (ok : TrieOk c t) {p : NodeRef} {h : Sym} {v : Code} :
    child t p h = some v ↔ Table.get t v = some { parent := p, sym := h } := child_eq_some_iff ok.wf ok.edgeUnique

theorem TrieOk.length_le {c : Config} {t : Table TrieEntry} (ok : TrieOk c t) : t.length ≤ c.maxCode :=
  Table.length_le ok.wf

/-- Following an edge appends its symbol to the sequence of the node (10_state.md R44; 40_dictionary.md R112). -/
theorem TrieOk.seq_child {c : Config} {t : Table TrieEntry} (ok : TrieOk c t) {p : NodeRef} {h : Sym} {v : Code}
    {xs : List Sym} (hn : NodeSeq t p xs) (hc : child t p h = some v) : seqOf t v = some (xs ++ [h]) := by
  have hg := ok.child_iff.mp hc
  rcases hn with ⟨rfl, rfl⟩ | ⟨q, rfl, hq⟩
  · exact seqOf_root hg
  · exact seqOf_node hg (ok.chainEnds v (by simp [hg])) hq

/-- The step of a prefix walk, as what it consumes (40_dictionary.md R112). -/
theorem TrieOk.walkAt_child {c : Config} {t : Table TrieEntry} (ok : TrieOk c t) {p : NodeRef} {h : Sym} {v : Code}
    {n : Nat} (hw : WalkAt t p n) (hc : child t p h = some v) : WalkAt t (.node v) (n + 1) := by
  obtain ⟨xs, hxs, rfl⟩ := hw
  exact ⟨xs ++ [h], .inr ⟨v, rfl, ok.seq_child hxs hc⟩, by simp⟩

/-- A walk that has left the root has consumed a symbol. -/
theorem WalkAt.node_pos {t : Table TrieEntry} {v : Code} {n : Nat} (h : WalkAt t (.node v) n) : 1 ≤ n := by
  obtain ⟨xs, hxs, rfl⟩ := h
  rcases hxs with ⟨h, -⟩ | ⟨c, -, hc⟩
  · simp at h
  · exact (seqOf_length hc).1

theorem WalkAt.root_zero {t : Table TrieEntry} {n : Nat} (h : WalkAt t .root n) : n = 0 := by
  obtain ⟨xs, hxs, rfl⟩ := h
  rcases hxs with ⟨-, rfl⟩ | ⟨c, h, -⟩
  · rfl
  · simp at h

/-- A walk is never deeper than the table is long, so its 32-bit counter does not wrap (10_state.md R37). -/
theorem WalkAt.le_length {c : Config} {t : Table TrieEntry} (ok : TrieOk c t) {p : NodeRef} {n : Nat}
    (h : WalkAt t p n) : n ≤ c.maxCode := by
  obtain ⟨xs, hxs, rfl⟩ := h
  rcases hxs with ⟨-, rfl⟩ | ⟨v, -, hv⟩
  · simp
  · exact (seqOf_length hv).2.trans ok.length_le

/-! ### The decode table -/

theorem DtabOk.nil (c : Config) : DtabOk c [] where
  wf := Table.wf_nil _
  eofUnbound := by simp
  symBound := by simp

theorem DtabOk.seed {c : Config} (hl : c.legal = true) : DtabOk c (seedDtab c) where
  wf := wf_seedDtab hl
  eofUnbound v h := by
    rw [get_seedDtab hl] at h
    split at h
    · rename_i hv; exact Nat.ne_of_lt hv
    · simp at h
  symBound v xs h := by
    rw [get_seedDtab hl] at h
    split at h
    · rename_i hv
      simp only [Option.some.injEq] at h
      subst h
      intro s hs
      simp only [SymSeq.toList, List.mem_singleton] at hs
      subst hs
      simp only [BitVec.toNat_ofNat]
      omega
    · simp at h

theorem DtabOk.set {c : Config} {d : Table SymSeq} (ok : DtabOk c d) {v : Code} {xs : SymSeq}
    (hv : v.toNat < c.maxCode) (heof : v.toNat ≠ c.eofCode) (hxs : ∀ h ∈ xs.toList, h.toNat < c.r) :
    DtabOk c (Table.set d v xs) where
  wf := Table.wf_set ok.wf _ hv
  eofUnbound u hu := by
    rw [Table.get_set] at hu
    split at hu
    · rename_i he; rw [he]; exact heof
    · exact ok.eofUnbound u hu
  symBound u ys hu := by
    rw [Table.get_set] at hu
    split at hu
    · simp only [Option.some.injEq] at hu
      subst hu
      exact hxs
    · exact ok.symBound u ys hu

/-! ### The tables of a codec job -/

theorem GrownTo.seedTrie {c : Config} (hl : c.legal = true) : GrownTo c (seedTrie c) (c.r + 1) := by
  refine ⟨le_rfl, Config.legal_r_lt hl, fun v => ?_⟩
  rw [get_seedTrie hl]
  split
  · rename_i hv; simp [hv]
  · rename_i hv; simp [hv]

theorem GrownTo.seedDtab {c : Config} (hl : c.legal = true) : GrownTo c (seedDtab c) (c.r + 1) := by
  refine ⟨le_rfl, Config.legal_r_lt hl, fun v => ?_⟩
  rw [get_seedDtab hl]
  split
  · rename_i hv; simp [hv]
  · rename_i hv; simp [hv]

/-- Binding the next code, and counting it, keeps the bound codes a job's (30_encoding.md R89). -/
theorem GrownTo.set {α : Type} {c : Config} {t : Table α} {n : Nat} (hg : GrownTo c t n) (hn : n < c.maxCode)
    {v : Code} (hv : v.toNat = n) (a : α) : GrownTo c (Table.set t v a) (n + 1) := by
  obtain ⟨h1, h2, h3⟩ := hg
  refine ⟨by omega, by omega, fun u => ?_⟩
  rw [Table.get_set]
  split
  · rename_i hu
    subst hu
    simp only [Option.isSome_some, true_iff]
    omega
  · rename_i hu
    have hne : u.toNat ≠ n := fun h => hu (BitVec.eq_of_toNat_eq (h.trans hv.symm))
    rw [h3 u]
    omega

/-- The next code is not bound yet, and is not `EOF_CODE` (41_compress.md R155). -/
theorem GrownTo.next_free {α : Type} {c : Config} {t : Table α} {n : Nat} (hg : GrownTo c t n) {v : Code}
    (hv : v.toNat = n) : Table.get t v = none ∧ v.toNat ≠ c.eofCode := by
  obtain ⟨h1, h2, h3⟩ := hg
  have h := h3 v
  constructor
  · cases hg : Table.get t v with
    | none => rfl
    | some a => simp [hg] at h; omega
  · simp only [Config.eofCode]; omega

theorem LiteralsSeeded.seed {c : Config} (hl : c.legal = true) : LiteralsSeeded c (seedTrie c) := by
  intro h hh
  rw [get_seedTrie hl]
  simp [hh]

theorem LiteralsSeeded.set {c : Config} {t : Table TrieEntry} (hs : LiteralsSeeded c t) {v : Code} {e : TrieEntry}
    (hv : c.r ≤ v.toNat) : LiteralsSeeded c (Table.set t v e) := by
  intro h hh
  rw [Table.get_set_other _ _ (fun heq => ?_)]
  · exact hs h hh
  · rw [← heq, litCode_toNat] at hv
    omega

end Sys2Proof.Machine
end

