-- ==== Sys2Proof/Laws/Ops.lean ====
section
/-!
SUPPORT. One lemma for each shared operation, saying once everything it can do. Later proofs cite these and do not unfold
the operation.
-/

namespace Sys2Proof.Machine

/-- A `CMD` write is accepted or dropped, and each of the two exactly when the rules say so (43_control.md R222 to
R224). -/
theorem State.requestCmd_cases (v : Word) (s : State) :
    (s.busy = false ∧ (s.err = false ∨ v = 0x00000001#32) ∧ s.requestCmd v = s.accept v) ∨
    ((s.busy = true ∨ (s.err = true ∧ v ≠ 0x00000001#32)) ∧ s.requestCmd v = s.drop) := by
  unfold State.requestCmd State.accepts
  cases hb : s.busy <;> cases he : s.err <;> by_cases hv : v = 0x00000001#32 <;> simp [hv]

/-- What a walk step finds (40_dictionary.md R112). -/
theorem State.walkStep_cases (s : State) :
    (s.symIn = [] ∧ s.walkStep = .stopEnd) ∨
    (∃ h rest, s.symIn = h :: rest ∧ child s.trie s.cur h = none ∧ s.walkStep = .stopAt h) ∨
    (∃ h rest c, s.symIn = h :: rest ∧ child s.trie s.cur h = some c ∧ s.walkStep = .go c) := by
  unfold State.walkStep State.symPeek
  cases hs : s.symIn with
  | nil => simp
  | cons h rest => cases hc : child s.trie s.cur h <;> simp [hc]

/-- What a read of the head symbol finds (10_state.md R47). -/
theorem State.symPeek_cases (s : State) :
    (s.symIn = [] ∧ s.symPeek = none) ∨ ∃ h rest, s.symIn = h :: rest ∧ s.symPeek = some h := by
  unfold State.symPeek
  cases hs : s.symIn <;> simp

/-- What `CodeRead()` does (10_state.md R48). -/
theorem State.codeRead_cases (s : State) :
    (s.codeIn = [] ∧ s.codeRead = none) ∨
    ∃ x rest, s.codeIn = x :: rest ∧ s.codeRead = some (lowBits x s.wl.toNat, { s with codeIn := rest }) := by
  unfold State.codeRead
  cases hs : s.codeIn <;> simp

/-- A code read has the width of the job (30_encoding.md R90). -/
theorem lowBits_lt (x : Code) (w : Nat) : (lowBits x w).toNat < 2 ^ w := by
  have h1 : x.toNat % 2 ^ w < 2 ^ w := Nat.mod_lt _ (Nat.two_pow_pos w)
  simp only [lowBits, BitVec.toNat_ofNat]
  exact (Nat.mod_le _ _).trans_lt h1

/-- Reading a code that fits its width gives the code back (30_encoding.md R90). -/
theorem lowBits_of_lt {x : Code} {w : Nat} (h : x.toNat < 2 ^ w) : lowBits x w = x := by
  apply BitVec.eq_of_toNat_eq
  have := x.isLt
  simp only [lowBits, BitVec.toNat_ofNat, Nat.mod_eq_of_lt h]
  omega

/-- A codec command starts its job or raises `BAD_WIDTH` (30_encoding.md R83). -/
theorem State.startCodec_cases (w : Nat) (e : EState) (s : State) :
    (s.cfg.widthOk w = true ∧ s.startCodec w e = { s.latchWidth w with estate := e }) ∨
    (s.cfg.widthOk w = false ∧ s.startCodec w e = s.raise .badWidth (BitVec.ofNat 32 w)) := by
  unfold State.startCodec
  cases s.cfg.widthOk w <;> simp

/-- A walk command that succeeds (40_dictionary.md R116, R117). -/
theorem finishWalk_cases (s : State) (n : Word) :
    (s.cur = .root ∧ finishWalk s n = .fault .codeOfRoot) ∨
    ∃ c, s.cur = .node c ∧ finishWalk s n = .next { s with result := hitResult c, rlen := n }.complete := by
  unfold finishWalk
  cases s.cur <;> simp

/-- `D_INSERT`'s run-time conditions, in their order (40_dictionary.md R114). -/
theorem insertEdge_cases (s : State) (p : NodeRef) (h : Sym) :
    (∃ q, p = .node q ∧ Table.get s.trie q = none ∧ insertEdge s p h = s.raise .dictMiss (q.setWidth 32)) ∨
    ((∀ q, p = .node q → (Table.get s.trie q).isSome) ∧
      ((∃ c, child s.trie p h = some c ∧ insertEdge s p h = s.raise .dictDup (c.setWidth 32)) ∨
       (child s.trie p h = none ∧
         (((Table.get s.trie (codeOf s.lc)).isSome ∧ insertEdge s p h = s.raise .codeBound s.lc) ∨
          (Table.get s.trie (codeOf s.lc) = none ∧
            insertEdge s p h =
              { s with trie := Table.set s.trie (codeOf s.lc) { parent := p, sym := h } }.complete))))) := by
  unfold insertEdge
  have key : unboundParent s.trie p = none → ∀ q, p = .node q → (Table.get s.trie q).isSome := by
    intro hu q hq
    subst hq
    cases hg : Table.get s.trie q <;> simp_all [unboundParent]
  cases hu : unboundParent s.trie p with
  | some q =>
    left
    cases p with
    | root => simp [unboundParent] at hu
    | node r =>
      cases hg : Table.get s.trie r with
      | some e => simp [unboundParent, hg] at hu
      | none =>
        simp only [unboundParent, hg, Option.isSome_none, Bool.false_eq_true, if_false, Option.some.injEq] at hu
        subst hu
        exact ⟨r, rfl, hg, rfl⟩
  | none =>
    right
    refine ⟨key hu, ?_⟩
    cases hc : child s.trie p h with
    | some c => exact .inl ⟨c, rfl, rfl⟩
    | none =>
      refine .inr ⟨rfl, ?_⟩
      cases hg : Table.get s.trie (codeOf s.lc) <;> simp

/-- Growth of the trie (41_compress.md R155). -/
theorem growTrie_cases (s : State) (c : Code) (h : Sym) :
    (s.nextCode.toNat < s.cfg.maxCode ∧
      growTrie s c h = { s with
        trie := Table.set s.trie (codeOfNext s.nextCode) { parent := .node c, sym := h }
        nextCode := s.nextCode + 1 }) ∨
    (s.cfg.maxCode ≤ s.nextCode.toNat ∧ growTrie s c h = s) := by
  unfold growTrie hasRoom
  by_cases hr : s.nextCode.toNat < s.cfg.maxCode
  · simp [hr]
  · simp [hr]; omega

/-- Which accesses have a meaning (20_memory.md R60, R65). -/
theorem accessOffset_ok_iff {c : Config} {addr size off : Nat} :
    accessOffset c addr size = .ok off ↔
      c.csrBase ≤ addr ∧ addr < c.csrBase + 64 ∧ size = 4 ∧ (addr - c.csrBase) % 4 = 0 ∧ off = addr - c.csrBase := by
  unfold accessOffset
  split
  · simp; omega
  · split
    · simp_all
    · split
      · simp_all
      · rename_i h1 h2 h3
        simp only [not_or, Nat.not_lt, Nat.not_le, not_not] at h1 h2 h3
        simp [h1, h2, h3, eq_comm]

/-- A register of the window is reached at its offset (10_state.md R22). -/
theorem csrAt_offset (x : Csr) : csrAt x.offset = some x := by cases x <;> rfl

theorem accessOffset_csr (c : Config) (x : Csr) : accessOffset c (c.csrBase + x.offset) 4 = .ok x.offset := by
  rw [accessOffset_ok_iff]
  cases x <;> simp [Csr.offset]

/-- A host read (20_memory.md R66): a refusal, or only the host's record moves. -/
theorem hostRead_cases (addr size : Nat) (s : State) :
    (∃ r, accessOffset s.cfg addr size = .error r ∧ hostRead addr size s = .refused r) ∨
    ∃ off, accessOffset s.cfg addr size = .ok off ∧ hostRead addr size s = .next (s.logRead off (readValue s off)) := by
  unfold hostRead
  cases accessOffset s.cfg addr size <;> simp

/-- A host write (20_memory.md R67): a refusal, a command request, an operand stored, or nothing. -/
theorem hostWrite_cases (addr size : Nat) (v : Word) (s : State) :
    (∃ r, accessOffset s.cfg addr size = .error r ∧ hostWrite addr size v s = .refused r) ∨
    ∃ off, accessOffset s.cfg addr size = .ok off ∧
      ((csrAt off = some .cmd ∧ hostWrite addr size v s = .next (s.requestCmd v)) ∨
       (csrAt off = some .argP ∧ hostWrite addr size v s = .next { s with argP := v }) ∨
       (csrAt off = some .argS ∧ hostWrite addr size v s = .next { s with argS := v }) ∨
       (csrAt off = some .argC ∧ hostWrite addr size v s = .next { s with argC := v }) ∨
       (csrAt off ≠ some .cmd ∧ csrAt off ≠ some .argP ∧ csrAt off ≠ some .argS ∧ csrAt off ≠ some .argC ∧
         hostWrite addr size v s = .next s)) := by
  unfold hostWrite
  cases ha : accessOffset s.cfg addr size with
  | error r => simp
  | ok off =>
    right
    refine ⟨off, rfl, ?_⟩
    cases hx : csrAt off with
    | none => simp [writeOffset, hx]
    | some x => cases x <;> simp [writeOffset, hx, writeCsr]

/-- Bit 0 of `STATUS` is `BUSY`, whatever `FULL` reads as (10_state.md R24). -/
theorem statusWith_busy (s : State) (full : Bool) : (statusWith s full).getLsbD 0 = s.busy := by
  unfold statusWith
  rw [BitVec.getLsbD_append]
  cases s.busy <;> simp

/-- A read of `STATUS` shows `BUSY` at any time (10_state.md R34). -/
theorem readValue_status_busy (s : State) : (readValue s Csr.status.offset).getLsbD 0 = s.busy := by
  unfold readValue
  rw [csrAt_offset]
  dsimp only
  split
  · exact statusWith_busy s _
  · exact statusWith_busy s _

/-- What is still to come does not show in a read. -/
theorem readValue_agenda (s : State) (a : List Event) (off : Nat) :
    readValue { s with agenda := a } off = readValue s off := by
  unfold readValue
  cases csrAt off with
  | none => rfl
  | some x => cases hb : s.busy <;> cases x <;> simp [csrIdleValue, csrBusyValue, statusWord, statusWith, fullFlag, hb]

/-- While no job runs, a read depends on nothing of the model's own fields (20_memory.md R66). -/
theorem readValue_idle {s : State} (hb : s.busy = false) (a : List Event) (r : List HostRead) (n off : Nat) :
    readValue { s with agenda := a, hostReads := r, freeCtr := n } off = readValue s off := by
  unfold readValue
  cases csrAt off with
  | none => rfl
  | some x => cases x <;> simp [csrIdleValue, statusWord, statusWith, fullFlag, hb]

/-- A turn of the host's poll (30_encoding.md R93): it reads `STATUS`, and comes again after an engine step exactly while
`BUSY = 1`. -/
theorem hostPoll_cases (s : State) :
    (s.busy = false ∧ hostPoll s = s.logRead Csr.status.offset (readValue s Csr.status.offset)) ∨
    (s.busy = true ∧ hostPoll s = { s.logRead Csr.status.offset (readValue s Csr.status.offset) with
      agenda := .engine :: .poll :: s.agenda }) := by
  simp only [hostPoll, readValue_status_busy]
  cases s.busy
  · exact .inl ⟨rfl, rfl⟩
  · exact .inr ⟨rfl, rfl⟩

/-- The three cases of an expand lookahead with room (42_expand.md R187). -/
theorem lookaheadSeq_cases (s : State) (xs : SymSeq) (v : Code) :
    (v.toNat = s.nextCode.toNat ∧ lookaheadSeq s xs v = some (xs.snoc xs.head)) ∨
    (v.toNat ≠ s.nextCode.toNat ∧ v.toNat < s.cfg.maxCode ∧ lookaheadSeq s xs v = Table.get s.dtab v) ∨
    (v.toNat ≠ s.nextCode.toNat ∧ s.cfg.maxCode ≤ v.toNat ∧ lookaheadSeq s xs v = none) := by
  unfold lookaheadSeq definedSeq
  by_cases h1 : v.toNat = s.nextCode.toNat
  · simp [h1]
  · by_cases h2 : v.toNat < s.cfg.maxCode
    · simp [h1, h2]
    · simp [h1, h2]; omega

end Sys2Proof.Machine
end

