-- ==== Sys2Proof/Laws/PerInstr.lean ====
section
/-!
SUPPORT. Statements about every command as syntax, one lemma per constructor. Family TableRow: the word of a command
carries its row's fixed bits of spec/opcode_table.json.
-/

namespace Sys2Proof.Laws.TableRow

/-- The row's `mask` in spec/opcode_table.json. -/
def mask : Instr → Word
  | .nop => 0xFFFFFFFF#32
  | .clear => 0xFFFFFFFF#32
  | .dSeed => 0xFFFFFFFF#32
  | .dInsert => 0xFFFFFFFF#32
  | .dChild => 0xFFFFFFFF#32
  | .dLookup => 0xFFFFFFFF#32
  | .dLpm => 0xFFFFFFFF#32
  | .cCompress _ => 0xFFFFE0FF#32
  | .cExpand _ => 0xFFFFE0FF#32

/-- The row's `match` in spec/opcode_table.json. -/
def pattern : Instr → Word
  | .nop => 0x00000000#32
  | .clear => 0x00000001#32
  | .dSeed => 0x00000002#32
  | .dInsert => 0x00000003#32
  | .dChild => 0x00000004#32
  | .dLookup => 0x00000005#32
  | .dLpm => 0x00000006#32
  | .cCompress _ => 0x00000008#32
  | .cExpand _ => 0x00000009#32

/-- The word of a well-formed command has its row's fixed bits. -/
def Statement (i : Instr) : Prop := i.wellFormed = true → encode i &&& mask i = pattern i

theorem nop : Statement .nop := fun _ => by decide
theorem clear : Statement .clear := fun _ => by decide
theorem dSeed : Statement .dSeed := fun _ => by decide
theorem dInsert : Statement .dInsert := fun _ => by decide
theorem dChild : Statement .dChild := fun _ => by decide
theorem dLookup : Statement .dLookup := fun _ => by decide
theorem dLpm : Statement .dLpm := fun _ => by decide

theorem encodeW_fixed {w : Nat} (h : w < 32) :
    encodeW 0x8#32 w &&& 0xFFFFE0FF#32 = 0x8#32 ∧ encodeW 0x9#32 w &&& 0xFFFFE0FF#32 = 0x9#32 := by
  revert w
  decide

theorem cCompress (w : Nat) : Statement (.cCompress w) := fun h => (encodeW_fixed (by simpa [Instr.wellFormed] using h)).1

theorem cExpand (w : Nat) : Statement (.cExpand w) := fun h => (encodeW_fixed (by simpa [Instr.wellFormed] using h)).2

end Sys2Proof.Laws.TableRow
end

