-- ==== Sys2Proof/Laws/Steps.lean ====
section
/-!
SUPPORT. One inversion lemma for each engine state that branches, saying once what its step can do, guards included; and
how the invariant of Safety.lean passes through the shared operations.
-/

namespace Sys2Proof.Machine

/-! ### The first steps -/

/-- A command's first step never stops: it ends well, goes on, or takes the error entry (43_control.md R225). -/
theorem exec_next (i : Instr) (s : State) : ∃ t, exec i s = .next t := by
  cases i <;>
    simp only [exec, execNop, execClear, execDSeed, execDInsert, execDChild, execDLookup, execDLpm, execCCompress,
      execCExpand] <;>
    repeat' split
  all_goals exact ⟨_, rfl⟩

/-! ### The steps of a running job -/

/-- D_LKP (40_dictionary.md R116): the walk is complete; or the input ends; or the symbol has no edge and is consumed; or
the walk goes on. -/
theorem stepDLkp_cases (s : State) :
    (s.cnt = s.lc ∧ stepDLkp s = finishWalk s s.lc) ∨
    (s.cnt ≠ s.lc ∧
      ((s.symIn = [] ∧ stepDLkp s = .next (s.raise .inEnd s.cnt)) ∨
       (∃ h rest, s.symIn = h :: rest ∧ child s.trie s.cur h = none ∧
         stepDLkp s = .next (s.symPop.raise .dictMiss s.cnt)) ∨
       ∃ h rest c, s.symIn = h :: rest ∧ child s.trie s.cur h = some c ∧
         stepDLkp s = .next { s.walkTo c with cnt := s.cnt + 1 })) := by
  unfold stepDLkp State.symPeek
  by_cases hc : s.cnt = s.lc
  · simp [hc]
  · cases hs : s.symIn with
    | nil => simp [hc]
    | cons h rest => cases hk : child s.trie s.cur h <;> simp [hc, hk]

/-- D_LPM (40_dictionary.md R117): the walk goes on, or it stops at the end of the input or at a symbol without an edge;
a stop at the root is an error and consumes nothing. -/
theorem stepDLpm_cases (s : State) :
    (∃ h rest c, s.symIn = h :: rest ∧ child s.trie s.cur h = some c ∧
      stepDLpm s = .next { s.walkTo c with len := s.len + 1 }) ∨
    (s.len ≠ 0 ∧ (s.symIn = [] ∨ ∃ h rest, s.symIn = h :: rest ∧ child s.trie s.cur h = none) ∧
      stepDLpm s = finishWalk s s.len) ∨
    (s.len = 0 ∧ s.symIn = [] ∧ stepDLpm s = .next (s.raise .inEnd 0)) ∨
    (∃ h rest, s.len = 0 ∧ s.symIn = h :: rest ∧ child s.trie s.cur h = none ∧
      stepDLpm s = .next (s.raise .dictMiss (h.setWidth 32))) := by
  unfold stepDLpm State.walkStep State.symPeek
  by_cases hl : s.len = 0#32 <;> cases hs : s.symIn with
  | nil => simp [hl]
  | cons h rest => cases hk : child s.trie s.cur h <;> simp [hl, hk]

/-- C_SCAN (41_compress.md R154). -/
theorem stepCScan_cases (s : State) :
    (s.symIn = [] ∧ stepCScan s = .next { s with estate := .cEof }) ∨
    ∃ h rest, s.symIn = h :: rest ∧
      stepCScan s = .next { s.symPop with cur := .node (litCode h), estate := .cWalk } := by
  unfold stepCScan State.symPeek
  cases hs : s.symIn <;> simp

/-- C_WALK at a node (41_compress.md R155). -/
theorem stepCWalk_cases {s : State} {m : Code} (hm : s.cur = .node m) :
    (s.symIn = [] ∧ stepCWalk s = .next { s.codeWrite m with estate := .cEof }) ∨
    (∃ h rest c, s.symIn = h :: rest ∧ child s.trie (.node m) h = some c ∧ stepCWalk s = .next (s.walkTo c)) ∨
    (∃ h rest, s.symIn = h :: rest ∧ child s.trie (.node m) h = none ∧
      stepCWalk s = .next { growTrie (s.codeWrite m) m h with estate := .cScan }) := by
  unfold stepCWalk State.walkStep State.symPeek
  cases hs : s.symIn with
  | nil => simp [hm]
  | cons h rest => cases hk : child s.trie (.node m) h <;> simp [hm, hk]

/-- E_FIRST (42_expand.md R184). -/
theorem stepEFirst_cases (s : State) :
    (s.codeIn = [] ∧ stepEFirst s = .next (s.raise .inEnd 0)) ∨
    ∃ x rest v, s.codeIn = x :: rest ∧ v = lowBits x s.wl.toNat ∧
      ((v.toNat = s.cfg.eofCode ∧
          stepEFirst s = .next { s with codeIn := rest, cnt := 1, estate := .eClose }) ∨
       (v.toNat ≠ s.cfg.eofCode ∧ v.toNat < s.cfg.r ∧
          stepEFirst s = .next { s with codeIn := rest, cnt := 1, code := v, estate := .eEmit }) ∨
       (v.toNat ≠ s.cfg.eofCode ∧ s.cfg.r ≤ v.toNat ∧
          stepEFirst s = .next ({ s with codeIn := rest, cnt := 1 }.raise .badCode (v.setWidth 32)))) := by
  unfold stepEFirst State.codeRead isEof isLiteral
  cases hs : s.codeIn with
  | nil => simp
  | cons x rest =>
    refine .inr ⟨x, rest, _, rfl, rfl, ?_⟩
    by_cases h1 : (lowBits x s.wl.toNat).toNat = s.cfg.eofCode
    · simp [h1]
    · by_cases h2 : (lowBits x s.wl.toNat).toNat < s.cfg.r
      · simp [h1, h2]
      · simp [h1, h2]; omega

/-- E_LOOK (42_expand.md R186): the read, and which of R187 and R188 follows it. -/
theorem stepELook_cases (s : State) :
    (s.codeIn = [] ∧ stepELook s = .next (s.raise .inEnd s.cnt)) ∨
    ∃ x rest v, s.codeIn = x :: rest ∧ v = lowBits x s.wl.toNat ∧
      ((v.toNat = s.cfg.eofCode ∧
          stepELook s = .next { s with codeIn := rest, cnt := s.cnt + 1, estate := .eClose }) ∨
       (v.toNat ≠ s.cfg.eofCode ∧ s.nextCode.toNat < s.cfg.maxCode ∧
          stepELook s = lookGrow { s with codeIn := rest, cnt := s.cnt + 1 } v) ∨
       (v.toNat ≠ s.cfg.eofCode ∧ s.cfg.maxCode ≤ s.nextCode.toNat ∧
          stepELook s = lookFrozen { s with codeIn := rest, cnt := s.cnt + 1 } v)) := by
  unfold stepELook State.codeRead isEof hasRoom
  cases hs : s.codeIn with
  | nil => simp
  | cons x rest =>
    refine .inr ⟨x, rest, _, rfl, rfl, ?_⟩
    by_cases h1 : (lowBits x s.wl.toNat).toNat = s.cfg.eofCode
    · simp [h1]
    · by_cases h2 : s.nextCode.toNat < s.cfg.maxCode
      · simp [h1, h2]
      · simp [h1, h2]; omega

/-! ### The status bits through the shared operations -/

/-- In a running job past DECODE no error is pending (60_exceptions.md R249). -/
theorem StatusOk.running {s : State} (h : StatusOk s) (hi : s.estate ≠ .idle) (hd : s.estate ≠ .decode) :
    s.busy = true ∧ s.err = false ∧ s.done = false ∧ s.errcode = 0 ∧ s.errinfo = 0 := by
  have hb := h.busyIff.mpr hi
  have he : s.err = false := by
    cases h' : s.err with
    | false => rfl
    | true => exact absurd (h.errRuns h' hb).1 hd
  exact ⟨hb, he, h.busyNotDone hb, h.quiet he⟩

theorem StatusOk.complete {s : State} (he : s.err = false) (hq : s.errcode = 0 ∧ s.errinfo = 0) :
    StatusOk s.complete where
  busyIff := by simp
  busyNotDone := by simp
  doneNotErr := by simp [he]
  quiet := by simp [hq]
  caused := by simp [he]
  errRuns := by simp

theorem StatusOk.raise (s : State) (x : Cause) (info : Word) : StatusOk (s.raise x info) where
  busyIff := by simp
  busyNotDone := by simp
  doneNotErr := by simp
  quiet := by simp
  caused := by cases x <;> simp [Cause.code]
  errRuns := by simp

/-- A step from one running state to another, which touches no status bit. -/
theorem StatusOk.move {s t : State} (hb : s.busy = true) (he : s.err = false) (hd : s.done = false)
    (hq : s.errcode = 0 ∧ s.errinfo = 0) (h1 : t.busy = s.busy) (h2 : t.err = s.err) (h3 : t.done = s.done)
    (h4 : t.errcode = s.errcode) (h5 : t.errinfo = s.errinfo) (h6 : t.estate ≠ .idle) : StatusOk t where
  busyIff := by simp [h1, hb, h6]
  busyNotDone := by simp [h3, hd]
  doneNotErr := by simp [h3, hd]
  quiet := by simp [h4, h5, hq]
  caused := by simp [h2, he]
  errRuns := by simp [h2, he]

/-! ### The invariant through the shared operations -/

/-- A hit leaves the reserved bits of `RESULT` 0 (10_state.md R28). -/
theorem hitResult_reserved (c : Code) : (hitResult c).extractLsb' 16 15 = 0#15 := by
  have h : (1#1 ++ 0#15 ++ c : Word).toNat = 2147483648 + c.toNat := by
    rw [BitVec.toNat_append, ← Nat.shiftLeft_add_eq_or_of_lt c.isLt]
    rfl
  have hc := c.isLt
  apply BitVec.eq_of_toNat_eq
  rw [hitResult, BitVec.extractLsb'_toNat, h, Nat.shiftRight_eq_div_pow]
  simp only [BitVec.toNat_ofNat]
  omega

/-- So does the answer of a probe, hit or miss (40_dictionary.md R115). -/
theorem probeResult_reserved (t : Table TrieEntry) (p : NodeRef) (h : Sym) :
    (probeResult t p h).extractLsb' 16 15 = 0#15 := by
  unfold probeResult
  split
  · exact hitResult_reserved _
  · decide

/-- The invariant of a successor, from its parts: an engine step keeps the configuration and shortens `SYM_IN` from its
head at most. -/
theorem Inv.of_step {s t : State} (h : Inv s) (hc : t.cfg = s.cfg) (hst : StatusOk t) (htr : TrieOk s.cfg t.trie)
    (hdt : DtabOk s.cfg t.dtab) (hn : t.nextCode.toNat ≤ s.cfg.maxCode) (hr : t.result.extractLsb' 16 15 = 0#15)
    (hw : t.statW = 0 ∨ s.cfg.widthOk t.statW.toNat = true) (hs : t.symIn = s.symIn ∨ t.symIn = s.symIn.tail)
    (ho : ∀ e ∈ t.out, e.ok s.cfg) (hj : JobOk t) : Inv t where
  legal := by rw [hc]; exact h.legal
  status := hst
  trie := by rw [hc]; exact htr
  dtab := by rw [hc]; exact hdt
  nextBound := by rw [hc]; exact hn
  resultReserved := hr
  statW := by rw [hc]; exact hw
  symIn := by
    rw [hc]
    rcases hs with hs | hs <;> rw [hs]
    · exact h.symIn
    · exact fun x hx => h.symIn x (List.mem_of_mem_tail hx)
  out := by rw [hc]; exact ho
  job := hj

theorem Inv.raise {s : State} (h : Inv s) (x : Cause) (info : Word) : Inv (s.raise x info) :=
  h.of_step rfl (StatusOk.raise s x info) h.trie h.dtab h.nextBound h.resultReserved h.statW (.inl rfl) h.out (by simp [JobOk])

theorem Inv.complete {s : State} (h : Inv s) (he : s.err = false) : Inv s.complete :=
  h.of_step rfl (StatusOk.complete he (h.status.quiet he)) h.trie h.dtab h.nextBound h.resultReserved h.statW (.inl rfl) h.out
    (by simp [JobOk])

theorem Inv.accept {s : State} (h : Inv s) {v : Word} (hv : s.err = false ∨ v = 0x00000001#32) : Inv (s.accept v) where
  legal := h.legal
  status :=
    { busyIff := by simp
      busyNotDone := by simp
      doneNotErr := by simp
      quiet := h.status.quiet
      caused := h.status.caused
      errRuns := by
        intro he _
        simp only [State.accept_err] at he
        simp only [he, Bool.true_eq_false, false_or] at hv
        simp [hv] }
  trie := h.trie
  dtab := h.dtab
  nextBound := h.nextBound
  resultReserved := h.resultReserved
  statW := h.statW
  symIn := h.symIn
  out := h.out
  job := by simp [JobOk]

theorem Inv.drop {s : State} (h : Inv s) : Inv s.drop :=
  ⟨h.legal, ⟨h.status.1, h.status.2, h.status.3, h.status.4, h.status.5, h.status.6⟩, h.trie, h.dtab, h.nextBound,
    h.resultReserved, h.statW, h.symIn, h.out, h.job⟩

/-- The operand registers are no part of the invariant. -/
theorem Inv.operands {s : State} (h : Inv s) (a b c : Word) : Inv { s with argP := a, argS := b, argC := c } :=
  ⟨h.legal, ⟨h.status.1, h.status.2, h.status.3, h.status.4, h.status.5, h.status.6⟩, h.trie, h.dtab, h.nextBound,
    h.resultReserved, h.statW, h.symIn, h.out, h.job⟩

/-- The model's own fields are no part of the invariant. -/
theorem Inv.model_fields {s : State} (h : Inv s) (a : List Event) (r : List HostRead) (n : Nat) :
    Inv { s with agenda := a, hostReads := r, freeCtr := n } :=
  ⟨h.legal, ⟨h.status.1, h.status.2, h.status.3, h.status.4, h.status.5, h.status.6⟩, h.trie, h.dtab, h.nextBound,
    h.resultReserved, h.statW, h.symIn, h.out, h.job⟩

theorem OutEvent.ok_append {c : Config} {es fs : List OutEvent} (h : ∀ e ∈ es, e.ok c) (h' : ∀ e ∈ fs, e.ok c) :
    ∀ e ∈ es ++ fs, e.ok c := by
  intro e he
  rcases List.mem_append.mp he with he | he
  · exact h e he
  · exact h' e he

end Sys2Proof.Machine
end

