-- ==== Sys2Proof/Tests/Slice0.lean ====
section
/-!
SUPPORT. Small tests whose expected results come from spec/ (95_test_vectors.md by vector name, or a rule worked out by
hand), and for every statement of Certificates/ with hypotheses a theorem `witness_…` that names a state and operands
which meet them, clause by clause.
-/

namespace Sys2Proof.Tests

open Sys2Proof.Machine

/-- The outcome is a next state with the property `p`. -/
def nextWith (o : Result) (p : State → Bool) : Bool :=
  match o with
  | .next t => p t
  | .fault _ => false
  | .refused _ => false

/-! ### Well-formed commands (30_encoding.md R83) -/

theorem test_width_32_does_not_fit :
    (Instr.cCompress 32).wellFormed = false ∧ (Instr.cExpand 32).wellFormed = false ∧
    (Instr.cCompress 31).wellFormed = true ∧ (Instr.cExpand 0).wellFormed = true := by decide

/-- R6, R8: `SYM_W = 16` and `MAX_CODE = R` are outside the limits. -/
theorem test_config_limits :
    Config.legal ⟨16, 65536, 0⟩ = false ∧ Config.legal ⟨0, 512, 0⟩ = false ∧ Config.legal ⟨8, 256, 0⟩ = false ∧
    Config.legal ⟨8, 257, 0⟩ = true ∧ Config.legal ⟨15, 65536, 0⟩ = true ∧ Config.legal ⟨8, 65537, 0⟩ = false := by
  decide

/-! ### Decoding (30_encoding.md R80, R81, R83, R93): words written bit by bit -/

theorem test_decode_nop : decode 0b00000000000000000000000000000000#32 = .ok .nop := by decide
theorem test_decode_clear : decode 0b00000000000000000000000000000001#32 = .ok .clear := by decide
theorem test_decode_dSeed : decode 0b00000000000000000000000000000010#32 = .ok .dSeed := by decide
theorem test_decode_dInsert : decode 0b00000000000000000000000000000011#32 = .ok .dInsert := by decide
theorem test_decode_dChild : decode 0b00000000000000000000000000000100#32 = .ok .dChild := by decide
theorem test_decode_dLookup : decode 0b00000000000000000000000000000101#32 = .ok .dLookup := by decide
theorem test_decode_dLpm : decode 0b00000000000000000000000000000110#32 = .ok .dLpm := by decide

/-- `W = 12` is `01100` in bits 12 to 8: 0x00000C08. -/
theorem test_decode_cCompress : decode 0b00000000000000000000110000001000#32 = .ok (.cCompress 12) := by decide

/-- `W = 9` is `01001` in bits 12 to 8: 0x00000909. -/
theorem test_decode_cExpand : decode 0b00000000000000000000100100001001#32 = .ok (.cExpand 9) := by decide

/-- V-D-2 to V-D-6, V-D-8, V-D-10, V-D-11. -/
theorem test_reserved_words :
    decode 0x00000007#32 = .error .reservedOpcode ∧ decode 0x0000000A#32 = .error .reservedOpcode ∧
    decode 0x0000000F#32 = .error .reservedOpcode ∧ decode 0x00000010#32 = .error .reservedBitsN ∧
    decode 0x0FFFFFF0#32 = .error .reservedBitsN ∧ decode 0x00000918#32 = .error .reservedBitsW ∧
    decode 0x00002009#32 = .error .reservedBitsW ∧ decode 0x00020008#32 = .error .reservedBitsW := by decide

theorem test_table_words :
    decodeTableWord 32 0x00000006 = some .dLpm ∧ decodeTableWord 32 0x00000C08 = some (.cCompress 12) ∧
    decodeTableWord 32 0x00000007 = none := by decide

/-- V-D-1 through the interface: the step after `withFetchWord` completes the `NOP`; `STATUS = 0x00000002`. -/
theorem test_placed_nop :
    nextWith (step (State.reset.withFetchWord 32 0)) (fun t => statusWord t == 0x00000002#32) = true := by decide

/-! ### One step per instruction -/

/-- `SYM_W = 8`, `MAX_CODE = 512` (V-D), in state DECODE. -/
def decoding : State :=
  { State.resetOf ⟨8, 512, 0⟩ with busy := true, estate := .decode }

/-- The trie of V-T-12: `"A"` and `"AB"`, with code 300 for `"AB"`. -/
def trieAB : Table TrieEntry := [(0x41, ⟨.root, 0x41⟩), (300, ⟨.node 0x41, 0x42⟩)]

/-- V-CTL-3: `CLEAR` after `DICT_DUP(300)` gives `STATUS = 0x00000002`, `ERRINFO = 0`. -/
theorem test_clear :
    nextWith (exec .clear { decoding with err := true, errcode := 4, errinfo := 300 })
      (fun t => statusWord t == 0x00000002#32 && t.errinfo == 0#32) = true := by decide

/-- R45 with `SYM_W = 1`: the two literals, and nothing else. -/
theorem test_dSeed :
    nextWith (exec .dSeed { State.resetOf ⟨1, 4, 0⟩ with trie := trieAB })
      (fun t => t.trie == [(0, ⟨.root, 0⟩), (1, ⟨.root, 1⟩)]) = true := by decide

/-- V-T-13: `D_INSERT p=300, s=0x43, c=301`. -/
theorem test_dInsert :
    nextWith (exec .dInsert { decoding with trie := trieAB, lp := 300, ls := 0x43, lc := 301 })
      (fun t => seqOf t.trie 301 == some [0x41, 0x42, 0x43] && t.done) = true := by decide

/-- V-T-38: a bad symbol is reported before a bad code. -/
theorem test_dInsert_first_error :
    nextWith (exec .dInsert { decoding with trie := trieAB, lp := 0x41, ls := 0x100, lc := 256 })
      (fun t => statusWord t == 0x00000304#32 && t.errinfo == 0x0C#32) = true := by decide

/-- V-T-14. -/
theorem test_dChild :
    nextWith (exec .dChild { decoding with trie := trieAB, lp := 0x41, ls := 0x42 })
      (fun t => t.result == 0x8000012C#32) = true := by decide

/-- V-T-10: `EOF_CODE` is unbound and has no children. -/
theorem test_dChild_unbound_parent :
    nextWith (exec .dChild { decoding with trie := trieAB, lp := 256, ls := 0x41, result := 7 })
      (fun t => t.result == 0#32 && t.done) = true := by decide

/-- V-T-19, its last step: the symbol without an edge is consumed. -/
theorem test_dLookup_miss_consumes :
    nextWith (engineStep { decoding with
        trie := trieAB, estate := .dLkp, lc := 3, cnt := 2, cur := .node 300, symIn := [0x44, 0x45] })
      (fun t => statusWord t == 0x00000604#32 && t.errinfo == 2#32 && t.symIn == [0x45]) = true := by decide

/-- V-T-21. -/
theorem test_dLookup_len_0 :
    nextWith (exec .dLookup { decoding with lc := 0, symIn := [0x41] })
      (fun t => statusWord t == 0x00000304#32 && t.errinfo == 0x10#32 && t.symIn == [0x41]) = true := by decide

/-- V-T-22, its last step: `'D'` stays. -/
theorem test_dLpm_stop :
    nextWith (engineStep { decoding with
        trie := trieAB, estate := .dLpm, len := 2, cur := .node 300, symIn := [0x44] })
      (fun t => t.result == 0x8000012C#32 && t.rlen == 2#32 && t.symIn == [0x44]) = true := by decide

/-- V-T-2, its last step: nothing is consumed. -/
theorem test_dLpm_miss :
    nextWith (engineStep { decoding with estate := .dLpm, symIn := [0x41, 0x42] })
      (fun t => statusWord t == 0x00000604#32 && t.errinfo == 0x41#32 && t.symIn == [0x41, 0x42]) = true := by decide

/-- V-D-13: `W = 17` raises, and `STATUS.W` keeps 16. -/
theorem test_cCompress_width_17 :
    nextWith (exec (.cCompress 17) { State.resetOf ⟨8, 4096, 0⟩ with statW := 16, done := true })
      (fun t => statusWord t == 0x00100204#32 && t.errinfo == 17#32) = true := by decide

/-- V-C-9, the step after the first match `0`: `Code(0, 2)`, `3 = (C(0), 1)`, and the `1` is not consumed. -/
theorem test_cCompress_growth :
    nextWith (engineStep { State.resetOf ⟨1, 4, 0⟩ with
        busy := true, estate := .cWalk, wl := 2, cur := .node 0, nextCode := 3, trie := seedTrie ⟨1, 4, 0⟩,
        symIn := [1, 0] })
      (fun t => t.out == [.code 0 2] && Table.get t.trie 3 == some ⟨.node 0, 1⟩ && t.nextCode == 4#17 &&
        t.symIn == [1, 0] && t.estate == .cScan) = true := by decide

/-- V-E-17, the first 3: the edge rule binds `DTAB[3] = [0] ++ [0]`. -/
theorem test_cExpand_edge :
    nextWith (engineStep { State.resetOf ⟨1, 4, 0⟩ with
        busy := true, estate := .eLook, wl := 2, code := 0, cnt := 1, nextCode := 3, dtab := seedDtab ⟨1, 4, 0⟩,
        codeIn := [3, 3, 2] })
      (fun t => Table.get t.dtab 3 == some ⟨0, [0]⟩ && t.code == 3#16 && t.cnt == 2#32 && t.codeIn == [3, 2]) =
      true := by decide

/-- V-E-14: the item 600 is read as 88 with `W = 9`. -/
theorem test_cExpand_item_width : lowBits 600 9 = 88#16 := by decide

/-! ### The states of the witnesses -/

/-- `SYM_W = 1`, `MAX_CODE = 4`: the literals 0 and 1, `EOF_CODE` 2, one growth code 3. -/
def tiny : Config := ⟨1, 4, 0⟩

theorem tiny_legal : tiny.legal = true := by decide

theorem all_below {xs : List Sym} {n : Nat} (h : xs.all (fun x => decide (x.toNat < n)) = true) :
    ∀ x ∈ xs, x.toNat < n := by simpa using h

/-- A codec job on the tiny block, in engine state `e`: the table fresh, or with its one growth code bound. -/
def jobState (e : EState) (full : Bool) (w : BitVec 5) (xs : List Sym) (ys : List Code) : State :=
  { State.resetOf tiny with
    busy := true, estate := e, wl := w, statW := 2, cur := .node 0, code := 0, symIn := xs, codeIn := ys
    nextCode := if full then 4 else 3
    trie := if full then Table.set (seedTrie tiny) 3 ⟨.node 0, 0⟩ else seedTrie tiny
    dtab := if full then Table.set (seedDtab tiny) 3 ⟨0, [0]⟩ else seedDtab tiny }

theorem trie_full : TrieOk tiny (Table.set (seedTrie tiny) 3 ⟨.node 0, 0⟩) :=
  (TrieOk.seed tiny_legal).set (by decide) (by decide) (by decide) (by intro q hq; cases hq; decide) (by decide)
    (by decide)

theorem dtab_full : DtabOk tiny (Table.set (seedDtab tiny) 3 ⟨0, [0]⟩) :=
  (DtabOk.seed tiny_legal).set (by decide) (by decide) (all_below (by decide))

theorem grown_trie (full : Bool) (w : BitVec 5) (e : EState) (xs : List Sym) (ys : List Code) :
    GrownTo tiny (jobState e full w xs ys).trie (jobState e full w xs ys).nextCode.toNat := by
  cases full
  · exact GrownTo.seedTrie tiny_legal
  · exact (GrownTo.seedTrie tiny_legal).set (v := 3) (by decide) (by decide) _

theorem grown_dtab (full : Bool) (w : BitVec 5) (e : EState) (xs : List Sym) (ys : List Code) :
    GrownTo tiny (jobState e full w xs ys).dtab (jobState e full w xs ys).nextCode.toNat := by
  cases full
  · exact GrownTo.seedDtab tiny_legal
  · exact (GrownTo.seedDtab tiny_legal).set (v := 3) (by decide) (by decide) _

theorem literals (full : Bool) (w : BitVec 5) (e : EState) (xs : List Sym) (ys : List Code) :
    LiteralsSeeded tiny (jobState e full w xs ys).trie := by
  cases full
  · exact LiteralsSeeded.seed tiny_legal
  · exact (LiteralsSeeded.seed tiny_legal).set (v := 3) (by decide)

/-- The invariant of these states, in every engine state of a codec job and in DECODE. -/
theorem jobState_inv (e : EState) (full : Bool) {w : BitVec 5} {xs : List Sym} (ys : List Code)
    (he : e ≠ .idle ∧ e ≠ .dLkp ∧ e ≠ .dLpm) (hw : tiny.widthOk w.toNat = true) (hx : ∀ h ∈ xs, h.toNat < tiny.r) :
    Inv (jobState e full w xs ys) where
  legal := tiny_legal
  status :=
    { busyIff := by simp [jobState, he.1]
      busyNotDone := fun _ => rfl
      doneNotErr := fun _ => rfl
      quiet := fun _ => ⟨rfl, rfl⟩
      caused := by intro h; cases h
      errRuns := by intro h; cases h }
  trie := by cases full; exact TrieOk.seed tiny_legal; exact trie_full
  dtab := by cases full; exact DtabOk.seed tiny_legal; exact dtab_full
  nextBound := by
    cases full
    · show 3 ≤ 4; decide
    · show 4 ≤ 4; decide
  resultReserved := by show (0#32).extractLsb' 16 15 = 0#15; decide
  statW := .inr (by show tiny.widthOk 2 = true; decide)
  symIn := hx
  out := by intro e he; cases he
  job := by
    have h1 := grown_trie full w e xs ys
    have h2 := grown_dtab full w e xs ys
    have h3 := literals full w e xs ys
    have h4 : (Table.get (jobState e full w xs ys).trie 0).isSome := by cases full <;> rfl
    have h5 : (Table.get (jobState e full w xs ys).dtab 0).isSome := by cases full <;> rfl
    cases e <;> first
      | exact trivial
      | exact hw
      | exact ⟨hw, h1, h3⟩
      | exact ⟨hw, h1, h3, 0, rfl, h4⟩
      | exact ⟨hw, h2⟩
      | exact ⟨hw, h2, h5⟩
      | exact absurd rfl he.2.1
      | exact absurd rfl he.2.2

theorem job_inv (e : EState) (full : Bool) (ys : List Code)
    (he : e ≠ .idle ∧ e ≠ .dLkp ∧ e ≠ .dLpm := by decide) : Inv (jobState e full 2 [0, 1] ys) :=
  jobState_inv e full ys he (by decide) (all_below (by decide))

theorem job_inv_nil (e : EState) (full : Bool) (w : BitVec 5) (ys : List Code)
    (he : e ≠ .idle ∧ e ≠ .dLkp ∧ e ≠ .dLpm := by decide) (hw : tiny.widthOk w.toNat = true := by decide) :
    Inv (jobState e full w [] ys) := jobState_inv e full ys he hw (by simp)

/-- An idle block with the error `DICT_DUP(3)` pending. -/
def failedState : State := (State.resetOf tiny).failed 4 3

theorem failedState_inv : Inv failedState where
  legal := tiny_legal
  status :=
    { busyIff := by simp [failedState, State.failed]
      busyNotDone := fun _ => rfl
      doneNotErr := by intro h; cases h
      quiet := by intro h; cases h
      caused := fun _ => by decide
      errRuns := by intro _ h; cases h }
  trie := TrieOk.nil tiny
  dtab := DtabOk.nil tiny
  nextBound := by decide
  resultReserved := by decide
  statW := .inl rfl
  symIn := by intro h hh; cases hh
  out := by intro e he; cases he
  job := trivial

/-- `SYM_W = 1`, `MAX_CODE = 5`, with the sequences `[0]` (code 0) and `[0, 1]` (code 3); code 4 is free. -/
def five : Config := ⟨1, 5, 0⟩

def trieFive : Table TrieEntry := Table.set (Table.set [] 0 ⟨.root, 0⟩) 3 ⟨.node 0, 1⟩

theorem trieFive_ok : TrieOk five trieFive :=
  ((TrieOk.nil five).set (by decide) (by decide) (by decide) (by intro q hq; cases hq) (by decide) (by decide)).set
    (by decide) (by decide) (by decide) (by intro q hq; cases hq; decide) (by decide) (by decide)

/-- The dictionary block in state DECODE with the command word `v`, the operands and the input. -/
def dictState (v p h k : Word) (xs : List Sym) : State :=
  { State.resetOf five with
    busy := true, estate := .decode, lcmd := v, lp := p, ls := h, lc := k, trie := trieFive, symIn := xs }

theorem child_none_of_ne {t : Table TrieEntry} {p : NodeRef} {h : Sym} (hc : child t p h = none) :
    ∀ c, Table.get t c ≠ some { parent := p, sym := h } := get_ne_of_child_none hc

/-! ### Witnesses: encoding -/

theorem witness_DecodeOfEncode :
    (Instr.cCompress 31).wellFormed = true ∧ (Instr.cExpand 0).wellFormed = true ∧ Instr.nop.wellFormed = true := by
  decide

theorem witness_EncodeOfDecode : decode 0x00001F08#32 = .ok (.cCompress 31) ∧ decode 0x00000006#32 = .ok .dLpm := by
  decide

/-- One word for each way of being reserved, at the ends of the ranges. -/
theorem witness_ReservedWordsRaiseIllegalCmd :
    (dictState 7 0 0 0 []).estate = .decode ∧ (7#32).extractLsb' 0 4 = 7#4 ∧
    10 ≤ ((0xA#32).extractLsb' 0 4).toNat ∧ 10 ≤ ((0xF#32).extractLsb' 0 4).toNat ∧
    (((0x80000006#32).extractLsb' 0 4).toNat ≤ 6 ∧ (0x80000006#32).extractLsb' 4 28 ≠ 0#28) ∧
    ((0x10#32).extractLsb' 0 4).toNat ≤ 6 ∧ (0x10#32).extractLsb' 4 28 ≠ 0#28 ∧
    ((0x918#32).extractLsb' 0 4 = 8#4 ∧ (0x918#32).extractLsb' 4 4 ≠ 0#4) ∧
    ((0x2009#32).extractLsb' 0 4 = 9#4 ∧ (0x2009#32).extractLsb' 13 19 ≠ 0#19) := by decide

theorem witness_StepRunsDecodedCommand :
    (dictState 6 0 0 0 []).cfg.legal = true ∧ (dictState 6 0 0 0 []).estate = .decode ∧
    decode (dictState 6 0 0 0 []).lcmd = .ok .dLpm ∧ (dictState 6 0 0 0 []).agenda = [] ∧
    { dictState 6 0 0 0 [] with agenda := [.engine, .poll] }.agenda = .engine :: [.poll] := by decide

theorem witness_PlacedWordRunsNext :
    State.reset.cfg.legal = true ∧ 0x00001F09 < 2 ^ 32 ∧ decode (BitVec.ofNat 32 0x00001F09) = .ok (.cExpand 31) := by
  decide

/-! ### Witnesses: acceptance -/

/-- A word on an idle block without error; `CLEAR` with an error pending; a write while a job runs; another word with an
error pending. -/
theorem witness_CommandWriteAcceptedOrDropped :
    (State.reset.cfg.legal = true ∧ State.reset.busy = false ∧ State.reset.err = false ∧
      { State.reset with agenda := [.write 0 4 7] }.agenda = .write State.reset.cfg.csrBase 4 7 :: []) ∧
    (failedState.cfg.legal = true ∧ failedState.busy = false ∧ failedState.err = true ∧
      { failedState with agenda := [.write 0 4 1] }.agenda = .write failedState.cfg.csrBase 4 0x00000001#32 :: []) ∧
    (decoding.cfg.legal = true ∧ decoding.busy = true ∧
      { decoding with agenda := [.write 0 4 1] }.agenda = .write decoding.cfg.csrBase 4 1 :: []) ∧
    ((0x11#32 : Word) ≠ 0x00000001#32 ∧
      { failedState with agenda := [.write 0 4 0x11] }.agenda = .write failedState.cfg.csrBase 4 0x11 :: []) := by decide

/-- An idle block and one that runs a job; the last symbol below `R` and the first that is not. -/
theorem witness_PortsChangeOnlyBetweenJobsAndWaitPolls :
    failedState.cfg.legal = true ∧ failedState.busy = false ∧ decoding.cfg.legal = true ∧ decoding.busy = true ∧
    (∀ h ∈ [(0 : Sym), 1], h.toNat < failedState.cfg.r) ∧ (∃ h ∈ [(0 : Sym), 2], failedState.cfg.r ≤ h.toNat) ∧
    { failedState with agenda := [.fillSymIn [0, 1]] }.agenda = .fillSymIn [0, 1] :: [] ∧
    { failedState with agenda := [.fillSymIn [0, 2]] }.agenda = .fillSymIn [0, 2] :: [] ∧
    { failedState with agenda := [.fillCodeIn [7]] }.agenda = .fillCodeIn [7] :: [] ∧
    { failedState with agenda := [.takeOut] }.agenda = .takeOut :: [] ∧
    { decoding with agenda := [.poll] }.agenda = .poll :: [] :=
  ⟨by decide, by decide, by decide, by decide, all_below (by decide), ⟨2, by simp, by decide⟩, rfl, rfl, rfl, rfl, rfl⟩

theorem witness_OperandWritesThenCommandPassOperands :
    State.reset.cfg.legal = true ∧ State.reset.busy = false ∧ State.reset.err = false := by decide

theorem witness_RunningJobIgnoresOperandRegisters :
    ∃ t, engineStep (dictState 4 0 1 0 []) = .next t ∧ t.result = 0x80000003#32 := ⟨_, rfl, by decide⟩

/-! ### Witnesses: the register window -/

/-- The last register offset has a meaning; the first byte after the window, the byte before it, an odd offset and a
halfword have none. -/
theorem witness_MeaninglessAccessRefused :
    let c : Config := ⟨1, 4, 0x40⟩
    let good := fun addr size : Nat =>
      c.csrBase ≤ addr ∧ addr < c.csrBase + 64 ∧ size = 4 ∧ (addr - c.csrBase) % 4 = 0
    c.legal = true ∧ good 0x40 4 ∧ good 0x7C 4 ∧ ¬ good 0x80 4 ∧ ¬ good 0x3C 4 ∧ ¬ good 0x7E 4 ∧ ¬ good 0x40 2 := by
  decide

theorem witness_ReadsChangeNoState :
    State.reset.cfg.legal = true ∧ 0x3C < 64 ∧ 0x3C % 4 = 0 ∧ State.reset.busy = false ∧
    { State.reset with agenda := [.read 0x3C 4] }.agenda = .read (State.reset.cfg.csrBase + 0x3C) 4 :: [] := by decide

theorem witness_UnmappedAndReadOnlyOffsets :
    State.reset.cfg.legal = true ∧ 0x3C < 64 ∧ 0x28 % 4 = 0 ∧
    { State.reset with agenda := [.read 0x28 4] }.agenda = .read (State.reset.cfg.csrBase + 0x28) 4 :: [] ∧
    { State.reset with agenda := [.read 0 4] }.agenda = .read (State.reset.cfg.csrBase + 0x00) 4 :: [] ∧
    { State.reset with agenda := [.write 0x3C 4 5] }.agenda = .write (State.reset.cfg.csrBase + 0x3C) 4 5 :: [] ∧
    { State.reset with agenda := [.write 4 4 5] }.agenda = .write (State.reset.cfg.csrBase + 0x04) 4 5 :: [] ∧
    { State.reset with agenda := [.write 0x14 4 5] }.agenda = .write (State.reset.cfg.csrBase + 0x14) 4 5 :: [] := by
  decide

theorem witness_OperandRegistersStoreAndReadBack :
    State.reset.cfg.legal = true ∧
    { State.reset with agenda := [.write 8 4 5] }.agenda = .write (State.reset.cfg.csrBase + 0x08) 4 5 :: [] ∧
    { State.reset with agenda := [.write 12 4 5] }.agenda = .write (State.reset.cfg.csrBase + 0x0C) 4 5 :: [] ∧
    { State.reset with agenda := [.write 16 4 5] }.agenda = .write (State.reset.cfg.csrBase + 0x10) 4 5 :: [] := by
  decide

theorem witness_IdleReadsShowTheRegisters : failedState.busy = false ∧ failedState.err = true ∧ Inv failedState :=
  ⟨by decide, by decide, failedState_inv⟩

theorem witness_BusyReadsKeepSettledFields : decoding.busy = true ∧ decoding.cfg = ⟨8, 512, 0⟩ := by decide

/-- The largest and the smallest legal configuration. -/
theorem witness_ParamRecoversConfiguration :
    (State.resetOf ⟨15, 65536, 0⟩).cfg.legal = true ∧ (State.resetOf ⟨1, 3, 0⟩).cfg.legal = true := by decide

/-! ### Witnesses: control and dictionary -/

theorem witness_ClearReturnsToService :
    ∃ s : State, Inv s ∧ s.busy = false ∧ s.err = true ∧
      s.agenda = .write s.cfg.csrBase 4 0x00000001#32 :: .engine :: [.poll] :=
  ⟨{ failedState with agenda := [.write 0 4 1, .engine, .poll] }, failedState_inv.model_fields _ _ _, rfl, rfl, rfl⟩

theorem witness_SeededTrieHoldsTheLiterals :
    tiny.legal = true ∧ (1#16 : Code).toNat < tiny.r ∧ tiny.r ≤ (2#16 : Code).toNat ∧ (1#15 : Sym).toNat < tiny.r := by
  decide

theorem witness_SeedReplacesTheTrie : ∃ t, exec .dSeed (dictState 2 0 0 0 []) = .next t ∧ t.trie ≠ trieFive :=
  ⟨_, rfl, by decide⟩

/-- An operand outside each limit, at the limit: `PCODE = MAX_CODE`, a reserved bit, ROOT with a code; `ARG_S = R`;
`ARG_C` the end of file code and `MAX_CODE`. -/
theorem witness_OperandChecksRaiseBadArg :
    validP five 5 = false ∧ validP five 0x00020000 = false ∧ validP five 0x00010001 = false ∧
    (validP five 4 = true ∧ validS five 2 = false) ∧
    (validP five 0x00010000 = true ∧ validS five 1 = true ∧ validC five 2 = false ∧ validC five 5 = false) ∧
    validC five 4 = true := by decide

theorem witness_InsertBindsTheEdge :
    ∃ s : State, TrieOk s.cfg s.trie ∧ validP s.cfg s.lp = true ∧ validS s.cfg s.ls = true ∧
      s.lc.toNat < s.cfg.maxCode ∧ s.lc.toNat ≠ s.cfg.eofCode ∧ s.cfg.legal = true ∧
      (∀ q, nodeP s.lp = .node q → (Table.get s.trie q).isSome) ∧ child s.trie (nodeP s.lp) (symOf s.ls) = none ∧
      Table.get s.trie (codeOf s.lc) = none ∧ NodeSeq s.trie (nodeP s.lp) [0, 1] :=
  ⟨dictState 3 3 0 4 [], trieFive_ok, by decide, by decide, by decide, by decide, by decide,
    by intro q hq; cases hq; decide, by decide, by decide, .inr ⟨3, by decide, by decide⟩⟩

/-- One state for each of the three errors: an unbound parent, an edge that exists, a code that is bound. -/
theorem witness_InsertErrorsInOrder :
    TrieOk five trieFive ∧
    (nodeP 1 = .node 1 ∧ Table.get trieFive 1 = none ∧ validP five 1 = true ∧ validS five 1 = true) ∧
    (nodeP 0 = .node 0 ∧ (Table.get trieFive 0).isSome ∧ symOf 1 = 1 ∧
      Table.get trieFive 3 = some { parent := nodeP 0, sym := symOf 1 } ∧ (4#32 : Word).toNat < five.maxCode) ∧
    ((∀ c, Table.get trieFive c ≠ some { parent := nodeP 3, sym := symOf 0 }) ∧
      (Table.get trieFive (codeOf 3)).isSome ∧ (3#32 : Word).toNat < five.maxCode ∧ (3#32 : Word).toNat ≠ five.eofCode) :=
  ⟨trieFive_ok, by decide, by decide, child_none_of_ne (by decide), by decide, by decide, by decide⟩

/-- A hit, a miss at a bound parent, and an unbound parent. -/
theorem witness_ChildProbesOneEdge :
    TrieOk five trieFive ∧ validP five 0 = true ∧ validS five 1 = true ∧
    Table.get trieFive 3 = some { parent := nodeP 0, sym := symOf 1 } ∧
    (∀ c, Table.get trieFive c ≠ some { parent := nodeP 0, sym := symOf 0 }) ∧
    (nodeP 2 = .node 2 ∧ Table.get trieFive 2 = none ∧ validP five 2 = true) :=
  ⟨trieFive_ok, by decide, by decide, by decide, child_none_of_ne (by decide), by decide⟩

theorem witness_WalkCommandsStart : (dictState 5 0 0 1 []).lc ≠ 0 ∧ (dictState 5 0 0 0 []).lc = 0 := by decide

theorem witness_LookupFindsPresentSequence :
    ∃ (s : State) (xs rest : List Sym) (c : Code), TrieOk s.cfg s.trie ∧ s.cfg.legal = true ∧ s.estate = .decode ∧
      s.lcmd = encode .dLookup ∧ s.symIn = xs ++ rest ∧ s.lc.toNat = xs.length ∧ seqOf s.trie c = some xs :=
  ⟨dictState 5 0 0 2 [0, 1, 1], [0, 1], [1], 3, trieFive_ok, by decide, rfl, rfl, rfl, rfl, by decide⟩

/-- The walk fails at a symbol without an edge after one symbol, at the root, and at the end of the input. -/
theorem witness_LookupReportsWhereItFails :
    TrieOk five trieFive ∧ five.legal = true ∧ (dictState 5 0 0 3 [0, 0]).lcmd = encode .dLookup ∧
    (NodeSeq trieFive (.node 0) [0] ∧ [(0 : Sym)].length < (3#32 : Word).toNat ∧ child trieFive (.node 0) 0 = none) ∧
    (NodeSeq trieFive .root [] ∧ child trieFive .root 1 = none) ∧
    (dictState 5 0 0 3 [0]).symIn = [0] ++ [] :=
  ⟨trieFive_ok, by decide, rfl, ⟨.inr ⟨0, rfl, by decide⟩, by decide, by decide⟩, ⟨.inl ⟨rfl, rfl⟩, by decide⟩, rfl⟩

theorem present_length {t : Table TrieEntry} {xs : List Sym} (h : Present t xs) : xs.length ≤ t.length := by
  obtain ⟨c, hc⟩ := h
  exact (seqOf_length hc).2

theorem witness_LpmFindsLongestPresentPrefix :
    ∃ (s : State) (k : Nat) (c : Code), TrieOk s.cfg s.trie ∧ s.cfg.legal = true ∧ s.estate = .decode ∧
      s.lcmd = encode .dLpm ∧ k ≤ s.symIn.length ∧ seqOf s.trie c = some (s.symIn.take k) ∧
      ∀ j, k < j → j ≤ s.symIn.length → ¬ Present s.trie (s.symIn.take j) := by
  refine ⟨dictState 6 0 0 0 [0, 1, 1], 2, 3, trieFive_ok, by decide, rfl, rfl, by decide, by decide, ?_⟩
  intro j h2 h3 hp
  have h := present_length hp
  have hl : j ≤ 3 := h3
  have ht : (dictState 6 0 0 0 [0, 1, 1]).trie.length = 2 := by decide
  have hx : (dictState 6 0 0 0 [0, 1, 1]).symIn.length = 3 := rfl
  rw [List.length_take, ht, hx] at h
  omega

theorem no_one_in_trieFive : ¬ Present trieFive [1] := by
  rintro ⟨c, hc⟩
  have hb := seqOf_bound hc
  by_cases h0 : c = 0
  · subst h0
    revert hc
    decide
  · by_cases h3 : c = 3
    · subst h3
      revert hc
      decide
    · rw [trieFive, Table.get_set_other _ _ h3, Table.get_set_other _ _ h0] at hb
      simp at hb

/-- An empty input; a first symbol that is not present; one that is, in a trie without all literals; a trie with the
literals. -/
theorem witness_LpmFailsOnlyWithoutPrefix :
    (TrieOk five trieFive ∧ five.legal = true ∧ (dictState 6 0 0 0 []).lcmd = encode .dLpm ∧
      (dictState 6 0 0 0 []).symIn = []) ∧
    ((dictState 6 0 0 0 [1, 0]).symIn = 1 :: [0] ∧ ¬ Present trieFive [1]) ∧
    ((dictState 6 0 0 0 [0]).symIn = 0 :: [] ∧ Present trieFive [0]) ∧
    (TrieOk tiny (seedTrie tiny) ∧ (1 : Sym).toNat < tiny.r ∧ LiteralsSeeded tiny (seedTrie tiny)) :=
  ⟨⟨trieFive_ok, by decide, rfl, rfl⟩, ⟨rfl, no_one_in_trieFive⟩, ⟨rfl, 0, by decide⟩, TrieOk.seed tiny_legal,
    by decide, LiteralsSeeded.seed tiny_legal⟩

theorem witness_DictionaryCommandsFrame :
    (∃ t, exec .dSeed (dictState 2 0 0 0 []) = .next t) ∧ (∃ t, exec .dInsert (dictState 3 3 0 4 []) = .next t) ∧
    (∃ t, exec .dChild (dictState 4 0 1 0 []) = .next t) ∧ (∃ t, exec .dLookup (dictState 5 0 0 2 []) = .next t) ∧
    (∃ t, exec .dLpm (dictState 6 0 0 0 []) = .next t) ∧ (∃ t, stepDLkp (dictState 5 0 0 2 [0]) = .next t) ∧
    ∃ t, stepDLpm (dictState 6 0 0 0 [0]) = .next t :=
  ⟨exec_next _ _, exec_next _ _, exec_next _ _, exec_next _ _, exec_next _ _, ⟨_, rfl⟩, ⟨_, rfl⟩⟩

/-! ### Witnesses: the codec -/

/-- The smallest and the largest legal width, and the widths just outside. -/
theorem witness_CodecCommandsStart :
    (tiny.wMin ≤ 2 ∧ (2 : Nat) ≤ 16) ∧ (tiny.wMin ≤ 16 ∧ (16 : Nat) ≤ 16) ∧ ¬ (tiny.wMin ≤ 1 ∧ (1 : Nat) ≤ 16) ∧
    ¬ (tiny.wMin ≤ 17 ∧ (17 : Nat) ≤ 16) := by decide

theorem witness_CompressInitSeeds :
    (jobState .cInit false 2 [] []).cfg.legal = true ∧ (jobState .cInit false 2 [] []).estate = .cInit := by decide

theorem witness_CompressScanStartsMatch :
    (jobState .cScan false 2 [] []).estate = .cScan ∧ (jobState .cScan false 2 [] []).symIn = [] ∧
    Inv (jobState .cScan false 2 [0, 1] []) ∧ (jobState .cScan false 2 [0, 1] []).symIn = 0 :: [1] :=
  ⟨rfl, rfl, job_inv _ _ _, rfl⟩

/-- The end of the input; an edge that exists (the table is full); no edge and room; no edge and a full table. -/
theorem witness_CompressWalkExtendsOrEmits :
    (Inv (jobState .cWalk false 2 [] []) ∧ (jobState .cWalk false 2 [] []).cur = .node 0) ∧
    (Inv (jobState .cWalk true 2 [0, 1] []) ∧
      Table.get (jobState .cWalk true 2 [0, 1] []).trie 3 = some { parent := .node 0, sym := 0 }) ∧
    (Inv (jobState .cWalk false 2 [0, 1] []) ∧
      (∀ c, Table.get (jobState .cWalk false 2 [0, 1] []).trie c ≠ some { parent := .node 0, sym := 0 }) ∧
      (jobState .cWalk false 2 [0, 1] []).nextCode.toNat < tiny.maxCode) ∧
    (Inv (jobState .cWalk true 2 [1] []) ∧
      (∀ c, Table.get (jobState .cWalk true 2 [1] []).trie c ≠ some { parent := .node 0, sym := 1 }) ∧
      (jobState .cWalk true 2 [1] []).nextCode.toNat = tiny.maxCode) :=
  ⟨⟨job_inv_nil _ _ _ _, rfl⟩, ⟨job_inv _ _ _, by decide⟩,
    ⟨job_inv _ _ _, child_none_of_ne (by decide), by decide⟩,
    ⟨jobState_inv _ _ _ (by decide) (by decide) (all_below (by decide)), child_none_of_ne (by decide), by decide⟩⟩

theorem witness_CompressEndsWithEofThenClose :
    (jobState .cEof false 2 [] []).cfg.legal = true ∧ (jobState .cEof false 2 [] []).estate = .cEof ∧
    (jobState .cClose false 2 [] []).estate = .cClose := by decide

/-- Of `CompressJobComputesReference`, `ExpandJobComputesReference` and `RoundTrip`: a legal width, an input of symbols,
an empty one, codes to read, and a block whose `CODE_IN` holds what the compress job of V-C-8 wrote. -/
theorem witness_CodecJobs :
    ({ State.resetOf tiny with symIn := [0, 0, 0, 0, 0] } : State).cfg.legal = true ∧ tiny.widthOk 2 = true ∧
    tiny.widthOk 16 = true ∧ (∀ h ∈ [(0 : Sym), 0, 0, 0, 0], h.toNat < tiny.r) ∧ (∀ h ∈ ([] : List Sym), h.toNat < tiny.r) ∧
    ({ State.resetOf tiny with codeIn := [0, 3, 3, 2, 1] } : State).cfg = (State.resetOf tiny).cfg ∧
    ({ State.resetOf tiny with codeIn := [0, 3, 3, 2, 1] } : State).codeIn = [0, 3, 3, 2] ++ [1] :=
  ⟨by decide, by decide, by decide, all_below (by decide), by simp, rfl, rfl⟩

theorem witness_CompressGrowthPolicy : tiny.legal = true ∧ ∀ h ∈ [(0 : Sym), 1, 0], h.toNat < tiny.r :=
  ⟨by decide, all_below (by decide)⟩

theorem witness_CompressNeverRaises :
    Inv (jobState .cInit false 2 [0, 1] []) ∧ Inv (jobState .cScan true 2 [0, 1] []) ∧
    Inv (jobState .cWalk false 2 [0, 1] []) ∧ Inv (jobState .cEof false 2 [0, 1] []) ∧
    Inv (jobState .cClose false 2 [0, 1] []) :=
  ⟨job_inv _ _ _, job_inv _ _ _, job_inv _ _ _, job_inv _ _ _, job_inv _ _ _⟩

theorem witness_ExpandInitSeeds :
    (jobState .eInit false 2 [] []).cfg.legal = true ∧ (jobState .eInit false 2 [] []).estate = .eInit := by decide

/-- No item; the end of file code; the last literal; the first code that is neither. -/
theorem witness_ExpandFirstCodeMustBeLiteral :
    (jobState .eFirst false 2 [] []).estate = .eFirst ∧ (jobState .eFirst false 2 [] []).codeIn = [] ∧
    (jobState .eFirst false 2 [] [6]).codeIn = 6 :: [] ∧ (2 : Code).toNat = (6 : Code).toNat % 2 ^ 2 ∧
    (2 : Code).toNat = tiny.eofCode ∧ (1 : Code).toNat < tiny.r ∧ tiny.r < (3 : Code).toNat ∧
    (1 : Code).toNat = (1 : Code).toNat % 2 ^ 2 ∧ (3 : Code).toNat = (3 : Code).toNat % 2 ^ 2 := by decide

theorem witness_ExpandEmitsWholeSequence :
    Inv (jobState .eEmit true 2 [] [1]) ∧ (jobState .eEmit true 2 [] [1]).estate = .eEmit :=
  ⟨job_inv_nil _ _ _ _, rfl⟩

theorem witness_ExpandLookaheadRead :
    (jobState .eLook false 2 [] []).codeIn = [] ∧ (jobState .eLook false 2 [] [2]).codeIn = 2 :: [] ∧
    (2 : Code).toNat % 2 ^ (jobState .eLook false 2 [] [2]).wl.toNat = tiny.eofCode ∧
    (jobState .eLook false 2 [] []).estate = .eLook := by decide

/-- The code equal to the counter, a defined code, and the first code above the counter. -/
theorem witness_ExpandLookaheadGrowsTable :
    (Inv (jobState .eLook false 2 [] [3]) ∧ (3 : Code).toNat = (3 : Code).toNat % 2 ^ 2 ∧
      (3 : Code).toNat ≠ tiny.eofCode ∧ (jobState .eLook false 2 [] [3]).nextCode.toNat < tiny.maxCode ∧
      Table.get (jobState .eLook false 2 [] [3]).dtab 0 = some ⟨0, []⟩ ∧
      (3 : Code).toNat = (jobState .eLook false 2 [] [3]).nextCode.toNat) ∧
    (Inv (jobState .eLook false 2 [] [1]) ∧ (1 : Code).toNat ≠ (jobState .eLook false 2 [] [1]).nextCode.toNat ∧
      Table.get (jobState .eLook false 2 [] [1]).dtab 1 = some ⟨1, []⟩) ∧
    (Inv (jobState .eLook false 3 [] [4]) ∧ (4 : Code).toNat = (4 : Code).toNat % 2 ^ 3 ∧
      (jobState .eLook false 3 [] [4]).nextCode.toNat < (4 : Code).toNat) :=
  ⟨⟨job_inv_nil _ _ _ _, by decide, by decide, by decide, by decide, by decide⟩,
    ⟨job_inv_nil _ _ _ _, by decide, by decide⟩, job_inv_nil _ _ _ _, by decide, by decide⟩

/-- With a full table: the last code below `MAX_CODE`, and `MAX_CODE`. -/
theorem witness_ExpandLookaheadFrozenTable :
    (Inv (jobState .eLook true 2 [] [3]) ∧ (3 : Code).toNat = (3 : Code).toNat % 2 ^ 2 ∧
      (jobState .eLook true 2 [] [3]).nextCode.toNat = tiny.maxCode ∧ (3 : Code).toNat < tiny.maxCode) ∧
    (Inv (jobState .eLook true 3 [] [4]) ∧ (4 : Code).toNat = (4 : Code).toNat % 2 ^ 3 ∧
      tiny.maxCode ≤ (4 : Code).toNat) :=
  ⟨⟨job_inv_nil _ _ _ _, by decide, by decide, by decide⟩, job_inv_nil _ _ _ _, by decide, by decide⟩

theorem witness_ExpandReadsNothingAfterEof :
    ∃ t, (jobState .eInit false 2 [] [2, 1]).estate = .eInit ∧
      engineRun 3 (jobState .eInit false 2 [] [2, 1]) = .next t ∧ t.estate = .idle ∧ t.done = true :=
  ⟨_, rfl, rfl, rfl, rfl⟩

/-! ### Witnesses: errors, ports, reset, the invariant -/

/-- A job that ends well and one that fails. -/
theorem witness_JobEndsDoneOrFailed :
    (∃ t, Inv (jobState .cClose false 2 [0, 1] []) ∧ (jobState .cClose false 2 [0, 1] []).busy = true ∧
      engineStep (jobState .cClose false 2 [0, 1] []) = .next t ∧ t.busy = false) ∧
    ∃ t, Inv (jobState .eFirst false 2 [0, 1] []) ∧
      engineStep (jobState .eFirst false 2 [0, 1] []) = .next t ∧ t.busy = false :=
  ⟨⟨_, job_inv _ _ _, rfl, rfl, rfl⟩, ⟨_, job_inv _ _ _, rfl, rfl⟩⟩

theorem witness_ErrorIsSticky :
    (∃ t, Inv failedState ∧ failedState.err = true ∧ step failedState = .next t) ∧
    ∃ t, Inv { failedState with agenda := [.write 0 4 0] } ∧
      step { failedState with agenda := [.write 0 4 0] } = .next t ∧ (0#32 : Word) ≠ 0x00000001#32 :=
  ⟨⟨_, failedState_inv, rfl, rfl⟩, ⟨_, failedState_inv.model_fields _ _ _, rfl, by decide⟩⟩

theorem witness_CloseOnlyEndsASuccessfulJob :
    (∃ t, Inv (jobState .eClose false 2 [0, 1] []) ∧
      engineStep (jobState .eClose false 2 [0, 1] []) = .next t ∧ OutEvent.close ∈ [OutEvent.close] ∧
      t.out = [.close]) ∧
    ∃ t, Inv (jobState .eLook false 2 [0, 1] []) ∧
      engineStep (jobState .eLook false 2 [0, 1] []) = .next t ∧ t.err = true :=
  ⟨⟨_, job_inv _ _ _, rfl, by decide, rfl⟩, ⟨_, job_inv _ _ _, rfl, rfl⟩⟩

/-- The command word 7 in state DECODE. -/
theorem witness_FirstStepErrorsHaveNoOtherEffect :
    ∃ s t : State, Inv s ∧ s.estate = .decode ∧ s.err = false ∧ engineStep s = .next t ∧ t.err = true := by
  have h := job_inv_nil .decode false 2 []
  refine ⟨{ jobState .decode false 2 [] [] with lcmd := 7 }, _, ?_, rfl, rfl, rfl, rfl⟩
  exact ⟨h.legal, ⟨h.status.1, h.status.2, h.status.3, h.status.4, h.status.5, fun he => by cases he⟩, h.trie, h.dtab,
    h.nextBound, h.resultReserved, h.statW, h.symIn, h.out, h.job⟩

theorem witness_EngineKeepsStreamOrder :
    (∃ t, engineStep (jobState .cWalk false 2 [0, 1] []) = .next t ∧ t.out = [.code 0 2]) ∧
    ∃ t, engineStep (jobState .eLook false 2 [] [1, 2]) = .next t ∧ t.codeIn = [2] :=
  ⟨⟨_, rfl, rfl⟩, ⟨_, rfl, rfl⟩⟩

theorem witness_TablesHaveTheirWriters :
    (∃ t, engineStep (jobState .cInit true 2 [] []) = .next t ∧ t.trie = seedTrie tiny) ∧
    ∃ t, engineStep (jobState .eInit true 2 [] []) = .next t ∧ t.dtab = seedDtab tiny :=
  ⟨⟨_, rfl, rfl⟩, ⟨_, rfl, rfl⟩⟩

theorem witness_ResetAbandonsTheJob :
    { jobState .cWalk false 2 [0, 1] [] with agenda := [.reset, .poll] }.cfg.legal = true ∧
    { jobState .cWalk false 2 [0, 1] [] with agenda := [.reset, .poll] }.agenda = .reset :: [.poll] := by decide

/-- Two idle blocks that differ in the unspecified registers alone. -/
theorem witness_UnspecifiedRegistersUnobservable :
    State.reset.estate = .idle ∧
    State.reset.withoutScratch =
      ({ State.reset with cur := .node 7, len := 1, code := 2, lcmd := 3, lp := 4, ls := 5, lc := 6, wl := 7, cnt := 8 }
        : State).withoutScratch := ⟨rfl, rfl⟩

theorem witness_ResetMeetsInvariant : Config.legal ⟨15, 32769, 0⟩ = true ∧ Config.legal ⟨1, 3, 0⟩ = true := by decide

/-- Of `StepKeepsInvariant`, `MachineNeverFaults` and `EveryJobTerminates`. -/
theorem witness_Inv :
    (∃ t, Inv (jobState .eLook false 2 [0, 1] [3]) ∧ step (jobState .eLook false 2 [0, 1] [3]) = .next t ∧
      t.nextCode = 4) ∧
    (∃ t, Inv (jobState .cWalk false 2 [0, 1] []) ∧ step (jobState .cWalk false 2 [0, 1] []) = .next t ∧
      t.nextCode = 4) ∧
    ∃ t, Inv failedState ∧ step failedState = .next t :=
  ⟨⟨_, job_inv _ _ _, rfl, rfl⟩, ⟨_, job_inv _ _ _, rfl, rfl⟩, ⟨_, failedState_inv, rfl⟩⟩

end Sys2Proof.Tests
end

section
/-!
One step for each event that is not the engine's (70_reset_and_hazards.md R288): the host's accesses, its poll, and the
environments' changes to their ports.
-/

namespace Sys2Proof.Machine

section

variable {s : State} {rest : List Event}

/-- With nothing to come the step is the engine's (log entry 5). -/
theorem step_of_agenda_nil (hl : s.cfg.legal = true) (ha : s.agenda = []) : step s = engineStep s := by
  rw [step, if_pos hl, transition, ha]

/-- Else it is the first event of the agenda, on the state without it. -/
theorem step_of_agenda_cons {e : Event} (hl : s.cfg.legal = true) (ha : s.agenda = e :: rest) :
    step s = perform e { s with agenda := rest } := by
  rw [step, if_pos hl, transition, ha]

theorem fillSymIn_of_busy (xs : List Sym) (hb : s.busy = true) : fillSymIn xs s = .refused .portWhileBusy := by
  simp [fillSymIn, hb]

theorem fillSymIn_of_below {xs : List Sym} (hb : s.busy = false) (hx : ∀ x ∈ xs, x.toNat < s.cfg.r) :
    fillSymIn xs s = .next { s with symIn := xs } := by
  simpa [fillSymIn, hb] using hx

theorem fillSymIn_of_wide {xs : List Sym} (hb : s.busy = false) (hx : ∃ x ∈ xs, s.cfg.r ≤ x.toNat) :
    fillSymIn xs s = .refused .symbolTooWide := by
  simpa [fillSymIn, hb] using hx

theorem fillCodeIn_of_busy (xs : List Code) (hb : s.busy = true) : fillCodeIn xs s = .refused .portWhileBusy := by
  simp [fillCodeIn, hb]

theorem fillCodeIn_of_idle (xs : List Code) (hb : s.busy = false) : fillCodeIn xs s = .next { s with codeIn := xs } := by
  simp [fillCodeIn, hb]

theorem takeOut_of_busy (hb : s.busy = true) : takeOut s = .refused .portWhileBusy := by simp [takeOut, hb]

theorem takeOut_of_idle (hb : s.busy = false) : takeOut s = .next { s with out := [] } := by simp [takeOut, hb]

theorem accessOffset_window (c : Config) {off : Nat} (hlt : off < 64) (hal : off % 4 = 0) :
    accessOffset c (c.csrBase + off) 4 = .ok off := by
  rw [accessOffset_ok_iff]
  omega

theorem step_read {off : Nat} (hl : s.cfg.legal = true) (hlt : off < 64) (hal : off % 4 = 0)
    (ha : s.agenda = .read (s.cfg.csrBase + off) 4 :: rest) :
    step s = .next { s with agenda := rest, hostReads := s.hostReads ++ [{ offset := off, value := readValue s off }],
                            freeCtr := s.freeCtr + 1 } := by
  rw [step_of_agenda_cons hl ha, perform, hostRead, accessOffset_window _ hlt hal]
  dsimp only
  rw [readValue_agenda]
  rfl

theorem step_write {off : Nat} {v : Word} (hl : s.cfg.legal = true) (hlt : off < 64) (hal : off % 4 = 0)
    (ha : s.agenda = .write (s.cfg.csrBase + off) 4 v :: rest) :
    step s = .next (writeOffset { s with agenda := rest } off v) := by
  rw [step_of_agenda_cons hl ha, perform, hostWrite, accessOffset_window _ hlt hal]

/-- A poll shows `STATUS` to the host, and comes again after an engine step exactly while `BUSY = 1` (30_encoding.md
R93). -/
theorem step_poll (hl : s.cfg.legal = true) (ha : s.agenda = .poll :: rest) :
    step s = .next { s with
      agenda := if s.busy then .engine :: .poll :: rest else rest, freeCtr := s.freeCtr + 1,
      hostReads := s.hostReads ++ [{ offset := 0x04, value := readValue s 0x04 }] } := by
  rw [step_of_agenda_cons hl ha, perform]
  rcases hostPoll_cases { s with agenda := rest } with ⟨hb, hs⟩ | ⟨hb, hs⟩ <;> rw [hs, readValue_agenda]
  · rw [if_neg (by simpa using hb)]
    rfl
  · rw [if_pos (by simpa using hb)]
    rfl

end

/-- Settles O8: each event is one step, and `BUSY` decides what it does. -/
theorem portsChangeOnlyBetweenJobsAndWaitPolls : Obligations.PortsChangeOnlyBetweenJobsAndWaitPolls := by
  intro s rest hl
  refine ⟨fun xs ha => ?_, fun xs ha => ?_, fun ha => ?_, fun ha => ?_⟩
  · rw [step_of_agenda_cons hl ha]
    exact ⟨fun hb hx => fillSymIn_of_below hb hx, fun hb hx => fillSymIn_of_wide hb hx, fun hb => fillSymIn_of_busy xs hb⟩
  · rw [step_of_agenda_cons hl ha]
    exact ⟨fun hb => fillCodeIn_of_idle xs hb, fun hb => fillCodeIn_of_busy xs hb⟩
  · rw [step_of_agenda_cons hl ha]
    exact ⟨fun hb => takeOut_of_idle hb, fun hb => takeOut_of_busy hb⟩
  · rw [step_poll hl ha]
    exact ⟨fun hb => by simp [hb], fun hb => by simp [hb]⟩

end Sys2Proof.Machine
end

section
/-!
The register window (10_state.md R22 to R34): which register an offset reaches, what a read of it returns and a write
of it changes, and what the words built from fields show field by field.
-/

namespace Sys2Proof.Machine

/-! ### Which offsets read 0, and which ignore a write -/

theorem Csr.offset_le (x : Csr) : x.offset ≤ 0x24 := by cases x <;> decide

/-- `csrAt` finds a register at its own offset only (R22). -/
theorem offset_of_csrAt {off : Nat} {x : Csr} (h : csrAt off = some x) : x.offset = off := by
  unfold csrAt at h
  split at h <;> cases h <;> rfl

/-- No register stands at the offsets from 0x28 on (R22, R33). -/
theorem csrAt_unmapped {off : Nat} (h : 0x28 ≤ off) : csrAt off = none := by
  cases hx : csrAt off with
  | none => rfl
  | some x =>
    have hle := x.offset_le
    rw [offset_of_csrAt hx] at hle
    omega

theorem readValue_unmapped (s : State) {off : Nat} (h : 0x28 ≤ off) : readValue s off = 0 := by
  rw [readValue, csrAt_unmapped h]

/-- `STATUS` and the registers from `RESULT` on ignore a write (R33). -/
theorem writeCsr_readOnly (s : State) (v : Word) {x : Csr} (h : x.offset = 0x04 ∨ 0x14 ≤ x.offset) :
    writeCsr s v x = s := by
  cases x <;> simp_all [Csr.offset, writeCsr]

/-- So do the unmapped offsets. -/
theorem writeOffset_readOnly (s : State) (v : Word) {off : Nat} (h : off = 0x04 ∨ 0x14 ≤ off) :
    writeOffset s off v = s := by
  unfold writeOffset
  cases hx : csrAt off with
  | none => rfl
  | some x =>
    rw [← offset_of_csrAt hx] at h
    exact writeCsr_readOnly s v h

/-! ### What a read returns -/

section

variable (s : State)

theorem readValue_csr (x : Csr) :
    readValue s x.offset = if s.busy then csrBusyValue s x else csrIdleValue s x := by
  rw [readValue, csrAt_offset]

/-- A register whose value a running job leaves settled reads the same at any time (R34). -/
theorem readValue_settled {x : Csr} (hx : csrBusyValue s x = csrIdleValue s x) :
    readValue s x.offset = csrIdleValue s x := by
  rw [readValue_csr, hx, ite_self]

theorem readValue_cmd : readValue s 0x00 = 0 := readValue_settled s (x := .cmd) rfl
theorem readValue_argP : readValue s 0x08 = s.argP := readValue_settled s (x := .argP) rfl
theorem readValue_argS : readValue s 0x0C = s.argS := readValue_settled s (x := .argS) rfl
theorem readValue_argC : readValue s 0x10 = s.argC := readValue_settled s (x := .argC) rfl
theorem readValue_errinfo : readValue s 0x20 = s.errinfo := readValue_settled s (x := .errinfo) rfl
theorem readValue_param : readValue s 0x24 = paramWord s.cfg := readValue_settled s (x := .param) rfl

variable {s}

theorem readValue_of_idle (hb : s.busy = false) (x : Csr) : readValue s x.offset = csrIdleValue s x := by
  simp [readValue_csr, hb]

theorem readValue_of_busy (hb : s.busy = true) (x : Csr) : readValue s x.offset = csrBusyValue s x := by
  simp [readValue_csr, hb]

end

/-! ### The fields of `STATUS` (R24) and of `PARAM` (R32), whatever `FULL` reads as -/

section

variable (s : State) (full : Bool)

theorem statusWith_flags :
    (statusWith s full).getLsbD 1 = s.done ∧ (statusWith s full).getLsbD 2 = s.err ∧
      (statusWith s full).getLsbD 3 = s.ovr ∧ (statusWith s full).getLsbD 4 = full := by
  unfold statusWith
  repeat rw [BitVec.getLsbD_append]
  simp

theorem statusWith_errcode_statW :
    (statusWith s full).extractLsb' 8 4 = s.errcode ∧ (statusWith s full).extractLsb' 16 5 = s.statW := by
  unfold statusWith
  constructor <;> repeat rw [BitVec.extractLsb'_append_eq_of_le (by decide)]
  · exact BitVec.extractLsb'_append_eq_right
  · exact BitVec.extractLsb'_append_eq_right

/-- The reserved bits read as 0. -/
theorem statusWith_reserved :
    (statusWith s full).extractLsb' 5 3 = 0#3 ∧ (statusWith s full).extractLsb' 12 4 = 0#4 ∧
      (statusWith s full).extractLsb' 21 11 = 0#11 := by
  unfold statusWith
  refine ⟨?_, ?_, ?_⟩ <;> repeat rw [BitVec.extractLsb'_append_eq_of_le (by decide)]
  · exact BitVec.extractLsb'_append_eq_right
  · exact BitVec.extractLsb'_append_eq_right
  · exact BitVec.extractLsb'_eq_self

theorem paramWord_fields (c : Config) :
    (paramWord c).extractLsb' 0 4 = BitVec.ofNat 4 c.symW ∧ (paramWord c).extractLsb' 4 12 = 0#12 ∧
      (paramWord c).extractLsb' 16 16 = BitVec.ofNat 16 (c.maxCode - 1) := by
  unfold paramWord
  refine ⟨?_, ?_, ?_⟩ <;> repeat rw [BitVec.extractLsb'_append_eq_of_le (by decide)]
  · exact BitVec.extractLsb'_append_eq_right
  · exact BitVec.extractLsb'_append_eq_right
  · exact BitVec.extractLsb'_eq_self

end

/-- `NEXT_CODE` in its register: 17 bits, zeros above (R30). -/
theorem extractLsb'_setWidth_nextCode (n : NextCode) :
    (n.setWidth 32).extractLsb' 0 17 = n ∧ (n.setWidth 32).extractLsb' 17 15 = 0#15 := by
  have hn := n.isLt
  constructor <;> apply BitVec.eq_of_toNat_eq
  · simp; omega
  · simp [Nat.shiftRight_eq_div_pow]; omega

/-- In a legal configuration no parameter is cut by its field of `PARAM` (R6, R8, R32). -/
theorem toNat_paramWord_fields {c : Config} (hl : c.legal = true) :
    ((paramWord c).extractLsb' 0 4).toNat = c.symW ∧ ((paramWord c).extractLsb' 16 16).toNat = c.maxCode - 1 := by
  obtain ⟨-, hsym, -, hmax⟩ := Config.legal_iff.mp hl
  obtain ⟨h1, -, h2⟩ := paramWord_fields c
  rw [h1, h2, BitVec.toNat_ofNat, BitVec.toNat_ofNat]
  omega

/-- `W_MIN` is, among the widths up to 16, the least whose codes reach `MAX_CODE` (R9). -/
theorem Config.le_two_pow_iff_wMin_le {c : Config} (hmax : c.maxCode ≤ 65536) {n : Nat} (hn : n ≤ 16) :
    c.maxCode ≤ 2 ^ n ↔ c.wMin ≤ n :=
  ⟨fun h => Config.wMin_least h hn,
    fun h => (Config.wMin_spec hmax).1.trans (Nat.pow_le_pow_right Nat.two_pos h)⟩

/-- Settles O13: each access is one step, and the offset decides what it reads or writes. -/
theorem unmappedAndReadOnlyOffsets : Obligations.UnmappedAndReadOnlyOffsets := by
  intro s off v rest hl hlt hal
  refine ⟨fun hoff ha => ?_, fun hoff ha => ?_, step_read hl hlt hal⟩
  · have hz : readValue s off = 0 := by
      rcases hoff with rfl | hoff
      · exact readValue_cmd s
      · exact readValue_unmapped s hoff
    rw [step_read hl hlt hal ha, hz]
  · rw [step_write hl hlt hal ha, writeOffset_readOnly _ _ hoff]

/-- Settles O15: an idle read shows the register itself, and `STATUS` is the word of its fields. -/
theorem idleReadsShowTheRegisters : Obligations.IdleReadsShowTheRegisters := by
  intro s hb
  have hstatus : readValue s 0x04 = statusWith s (fullFlag s) := readValue_of_idle hb .status
  have hresult : readValue s 0x14 = s.result := readValue_of_idle hb .result
  have hnext : readValue s 0x1C = s.nextCode.setWidth 32 := readValue_of_idle hb .nextCode
  obtain ⟨hdone, herr, hovr, hfull⟩ := statusWith_flags s (fullFlag s)
  obtain ⟨hcode, hw⟩ := statusWith_errcode_statW s (fullFlag s)
  obtain ⟨hres5, hres12, hres21⟩ := statusWith_reserved s (fullFlag s)
  obtain ⟨hlow, hhigh⟩ := extractLsb'_setWidth_nextCode s.nextCode
  simp only [hstatus, hnext]
  refine ⟨(statusWith_busy ..).trans hb, hdone, herr, hovr, ?_, hres5, hcode, hres12, hw, hres21, hresult,
    readValue_of_idle hb .rlen, readValue_errinfo s, hlow, hhigh, fun h => hresult ▸ h.resultReserved⟩
  rw [hfull, fullFlag, decide_eq_true_iff]

/-- Settles O16: the settled fields are the same in the word a running job shows, whose `FULL` is free. -/
theorem busyReadsKeepSettledFields : Obligations.BusyReadsKeepSettledFields := by
  intro s hb
  have hstatus : readValue s 0x04 = statusWith s ((Config.freeRead s.freeCtr).getLsbD 4) := readValue_of_busy hb .status
  obtain ⟨hdone, herr, hovr, -⟩ := statusWith_flags s ((Config.freeRead s.freeCtr).getLsbD 4)
  obtain ⟨hcode, hw⟩ := statusWith_errcode_statW s ((Config.freeRead s.freeCtr).getLsbD 4)
  simp only [hstatus]
  exact ⟨(statusWith_busy ..).trans hb, hdone, herr, hovr, hcode, hw, readValue_errinfo s, readValue_argP s,
    readValue_argS s, readValue_argC s, readValue_param s⟩

/-- Settles O17: the fields of `PARAM` are whole, and `W_MIN` is known by its order. -/
theorem paramRecoversConfiguration : Obligations.ParamRecoversConfiguration := by
  refine ⟨fun s hl => ?_, by decide⟩
  obtain ⟨hsym, hmax⟩ := toNat_paramWord_fields hl
  obtain ⟨-, -, hr, hle⟩ := Config.legal_iff.mp hl
  have hpred : s.cfg.maxCode - 1 + 1 = s.cfg.maxCode := by omega
  simp only [readValue_param, hsym, hmax, hpred]
  exact ⟨trivial, (paramWord_fields s.cfg).2.1, trivial, trivial, rfl, rfl,
    fun n hn => Config.le_two_pow_iff_wMin_le hle hn⟩

/-- Settles O14: an operand register is one write away, and reads the same at any time. -/
theorem operandRegistersStoreAndReadBack : Obligations.OperandRegistersStoreAndReadBack := fun s _ _ hl =>
  ⟨step_write hl (by decide) (by decide), step_write hl (by decide) (by decide), step_write hl (by decide) (by decide),
    readValue_argP s, readValue_argS s, readValue_argC s⟩

end Sys2Proof.Machine
end

section
/-!
The invariant of Safety.lean through every step of the machine (10_state.md R24, R28, R30, R42, R46 to R49). The
invariant is cut in three: what the tables, registers and ports hold (`DataOk`), the status bits, and what the state of
the running job relies on. A step's proof then says only what the step changes.
-/

namespace Sys2Proof.Machine

/-! ### The three parts of the invariant -/

/-- The part of the invariant about the tables, the registers a host reads and the ports, as a predicate of their values:
what it says does not move when another field does. -/
structure DataParts (c : Config) (T : Table TrieEntry) (D : Table SymSeq) (n : NextCode) (r : Word) (w : BitVec 5)
    (xs : List Sym) (es : List OutEvent) : Prop where
  legal : c.legal = true
  trie : TrieOk c T
  dtab : DtabOk c D
  nextBound : n.toNat ≤ c.maxCode
  resultReserved : r.extractLsb' 16 15 = 0#15
  statW : w = 0 ∨ c.widthOk w.toNat = true
  symIn : ∀ h ∈ xs, h.toNat < c.r
  out : ∀ e ∈ es, e.ok c

/-- The data of a state meets its part of the invariant. -/
abbrev DataOk (s : State) : Prop := DataParts s.cfg s.trie s.dtab s.nextCode s.result s.statW s.symIn s.out

/-- The status bits of a running job past its acceptance, with no error pending. -/
def Running (s : State) : Prop :=
  s.busy = true ∧ s.err = false ∧ s.done = false ∧ s.errcode = 0 ∧ s.errinfo = 0

theorem inv_iff {s : State} : Inv s ↔ DataOk s ∧ StatusOk s ∧ JobOk s := by
  constructor
  · exact fun h => ⟨⟨h.legal, h.trie, h.dtab, h.nextBound, h.resultReserved, h.statW, h.symIn, h.out⟩, h.status, h.job⟩
  · exact fun ⟨d, hs, hj⟩ =>
      ⟨d.legal, hs, d.trie, d.dtab, d.nextBound, d.resultReserved, d.statW, d.symIn, d.out, hj⟩

theorem Inv.data {s : State} (h : Inv s) : DataOk s := (inv_iff.mp h).1

/-- A job past DECODE has no error pending (60_exceptions.md R249). -/
theorem Inv.running {s : State} (h : Inv s) {e : EState} (he : s.estate = e)
    (hne : e ≠ .idle ∧ e ≠ .decode := by decide) : Running s :=
  h.status.running (he ▸ hne.1) (he ▸ hne.2)

/-- In DECODE too, unless the command is the `CLEAR` of a pending error. -/
theorem Inv.running_of_no_error {s : State} (h : Inv s) (hi : s.estate ≠ .idle) (he : s.err = false) : Running s :=
  have hb := h.status.busyIff.mpr hi
  ⟨hb, he, h.status.busyNotDone hb, h.status.quiet he⟩

/-! ### The three ways an engine step ends: error entry, completion, another state of the job -/

theorem DataOk.raise {s : State} (d : DataOk s) (x : Cause) (info : Word) : Inv (s.raise x info) :=
  inv_iff.mpr ⟨d, StatusOk.raise s x info, trivial⟩

theorem DataOk.complete {s : State} (d : DataOk s) (hr : Running s) : Inv s.complete :=
  have ⟨_, he, _, hq⟩ := hr
  inv_iff.mpr ⟨d, StatusOk.complete he hq, trivial⟩

theorem DataOk.move {s : State} (d : DataOk s) (hr : Running s) (hj : JobOk s) (hi : s.estate ≠ .idle := by simp) :
    Inv s :=
  have ⟨hb, he, hd, hq⟩ := hr
  inv_iff.mpr ⟨d, StatusOk.move hb he hd hq rfl rfl rfl rfl rfl hi, hj⟩

/-! ### What the shared operations do to the data -/

theorem DataOk.symPop {s : State} (d : DataOk s) : DataOk s.symPop :=
  { d with symIn := fun x hx => d.symIn x (List.mem_of_mem_tail hx) }

theorem DataOk.emit {s : State} (d : DataOk s) {es : List OutEvent} (hes : ∀ e ∈ es, e.ok s.cfg) : DataOk (s.emit es) :=
  { d with out := OutEvent.ok_append d.out hes }

/-- A code below `MAX_CODE` fits the width of the job (30_encoding.md R90). -/
theorem DataOk.codeWrite {s : State} (d : DataOk s) (hw : s.cfg.widthOk s.wl.toNat = true) {v : Code}
    (hv : v.toNat < s.cfg.maxCode) : DataOk (s.codeWrite v) :=
  d.emit fun e he => by
    rw [List.mem_singleton.mp he]
    exact Config.widthOk_fits d.legal hw hv

theorem DataOk.sinkClose {s : State} (d : DataOk s) : DataOk s.sinkClose :=
  d.emit fun e he => by
    rw [List.mem_singleton.mp he]
    trivial

/-- The counter after both codecs' seeding is the first growth code (30_encoding.md R89). -/
theorem toNat_firstGrowthCode {c : Config} (hl : c.legal = true) :
    (BitVec.ofNat 17 (c.r + 1) : NextCode).toNat = c.r + 1 := by
  have := Config.legal_r_le hl
  simp only [BitVec.toNat_ofNat]
  omega

/-- A seeded table, and the counter of its first growth code (41_compress.md R153; 42_expand.md R183). -/
theorem grownTo_seedTrie_counter {c : Config} (hl : c.legal = true) :
    GrownTo c (seedTrie c) (BitVec.ofNat 17 (c.r + 1) : NextCode).toNat := by
  rw [toNat_firstGrowthCode hl]
  exact GrownTo.seedTrie hl

theorem grownTo_seedDtab_counter {c : Config} (hl : c.legal = true) :
    GrownTo c (seedDtab c) (BitVec.ofNat 17 (c.r + 1) : NextCode).toNat := by
  rw [toNat_firstGrowthCode hl]
  exact GrownTo.seedDtab hl

theorem GrownTo.le_maxCode {α : Type} {c : Config} {T : Table α} {n : Nat} (hg : GrownTo c T n) : n ≤ c.maxCode :=
  have ⟨_, hle, _⟩ := hg
  hle

/-- Binding the next code and counting it, in the machine's own 17-bit counter (30_encoding.md R89). -/
theorem GrownTo.bind_next {α : Type} {c : Config} {T : Table α} {n : NextCode} (hl : c.legal = true)
    (hg : GrownTo c T n.toNat) (hn : n.toNat < c.maxCode) (a : α) :
    GrownTo c (Table.set T (codeOfNext n) a) (n + 1).toNat := by
  have hmax := Config.legal_maxCode_le hl
  rw [next_succ_toNat (by omega)]
  exact hg.set hn (codeOfNext_toNat (by omega)) a

/-- The code the counter names: below `MAX_CODE`, unbound, not `EOF_CODE`, not a literal (41_compress.md R155). -/
theorem GrownTo.codeOfNext_fresh {α : Type} {c : Config} {T : Table α} {n : NextCode} (hl : c.legal = true)
    (hg : GrownTo c T n.toNat) (hn : n.toNat < c.maxCode) :
    (codeOfNext n).toNat < c.maxCode ∧ Table.get T (codeOfNext n) = none ∧ (codeOfNext n).toNat ≠ c.eofCode ∧
      c.r ≤ (codeOfNext n).toNat := by
  have hmax := Config.legal_maxCode_le hl
  have hv := codeOfNext_toNat (n := n) (by omega)
  obtain ⟨hfree, heof⟩ := hg.next_free hv
  obtain ⟨hr, -, -⟩ := hg
  exact ⟨by omega, hfree, heof, by omega⟩

/-- A step of the walk, counted in 32 bits: the counter does not wrap (10_state.md R37). -/
theorem DataOk.walkAt_child {s : State} (d : DataOk s) {n : Word} {x : Sym} {c : Code}
    (hw : WalkAt s.trie s.cur n.toNat) (hc : child s.trie s.cur x = some c) : WalkAt s.trie (.node c) (n + 1).toNat := by
  have hlen := hw.le_length d.trie
  have hmax := Config.legal_maxCode_le d.legal
  have hn : (n + 1).toNat = n.toNat + 1 := BitVec.toNat_add_of_lt (by simp; omega)
  rw [hn]
  exact d.trie.walkAt_child hw hc

/-! ### What a job relies on, state by state (10_state.md R35) -/

section

variable {s : State}

theorem jobOk_dLkp (he : s.estate = .dLkp) : JobOk s ↔ s.lc ≠ 0 ∧ WalkAt s.trie s.cur s.cnt.toNat := by
  rw [JobOk, he]

theorem jobOk_dLpm (he : s.estate = .dLpm) : JobOk s ↔ WalkAt s.trie s.cur s.len.toNat := by
  rw [JobOk, he]

theorem jobOk_cInit (he : s.estate = .cInit) : JobOk s ↔ s.cfg.widthOk s.wl.toNat = true := by
  rw [JobOk, he]

theorem jobOk_cScan (he : s.estate = .cScan) :
    JobOk s ↔ s.cfg.widthOk s.wl.toNat = true ∧ GrownTo s.cfg s.trie s.nextCode.toNat ∧ LiteralsSeeded s.cfg s.trie := by
  rw [JobOk, he]

theorem jobOk_cWalk (he : s.estate = .cWalk) :
    JobOk s ↔ s.cfg.widthOk s.wl.toNat = true ∧ GrownTo s.cfg s.trie s.nextCode.toNat ∧ LiteralsSeeded s.cfg s.trie ∧
      ∃ c, s.cur = .node c ∧ (Table.get s.trie c).isSome := by
  rw [JobOk, he]

theorem jobOk_cEof (he : s.estate = .cEof) : JobOk s ↔ s.cfg.widthOk s.wl.toNat = true := by
  rw [JobOk, he]

theorem jobOk_cClose (he : s.estate = .cClose) : JobOk s ↔ s.cfg.widthOk s.wl.toNat = true := by
  rw [JobOk, he]

theorem jobOk_eInit (he : s.estate = .eInit) : JobOk s ↔ s.cfg.widthOk s.wl.toNat = true := by
  rw [JobOk, he]

theorem jobOk_eFirst (he : s.estate = .eFirst) :
    JobOk s ↔ s.cfg.widthOk s.wl.toNat = true ∧ GrownTo s.cfg s.dtab s.nextCode.toNat := by
  rw [JobOk, he]

theorem jobOk_eEmit (he : s.estate = .eEmit) :
    JobOk s ↔ s.cfg.widthOk s.wl.toNat = true ∧ GrownTo s.cfg s.dtab s.nextCode.toNat ∧
      (Table.get s.dtab s.code).isSome := by
  rw [JobOk, he]

theorem jobOk_eLook (he : s.estate = .eLook) :
    JobOk s ↔ s.cfg.widthOk s.wl.toNat = true ∧ GrownTo s.cfg s.dtab s.nextCode.toNat ∧
      (Table.get s.dtab s.code).isSome := by
  rw [JobOk, he]

theorem jobOk_eClose (he : s.estate = .eClose) : JobOk s ↔ s.cfg.widthOk s.wl.toNat = true := by
  rw [JobOk, he]

end

/-! ### Engine steps answer a next state with the invariant -/

/-- The result is a next state, and that state meets the invariant. -/
def AnswersInv (r : Result) : Prop := ∃ t, r = .next t ∧ Inv t

theorem AnswersInv.next {t : State} (ht : Inv t) : AnswersInv (.next t) := ⟨t, rfl, ht⟩

section

variable {s : State}

/-- A walk command that ends well away from the root (40_dictionary.md R116, R117). -/
theorem Inv.finishWalk_answers (h : Inv s) (hr : Running s) {n : Word} (hw : WalkAt s.trie s.cur n.toNat) (hn : n ≠ 0) :
    AnswersInv (finishWalk s n) := by
  rcases finishWalk_cases s n with ⟨hroot, -⟩ | ⟨c, -, hs⟩
  · rw [hroot] at hw
    exact absurd (BitVec.eq_of_toNat_eq hw.root_zero) hn
  · rw [hs]
    exact .next (DataOk.complete { h.data with resultReserved := hitResult_reserved c } hr)

theorem Inv.stepDLkp_answers (h : Inv s) (he : s.estate = .dLkp) : AnswersInv (stepDLkp s) := by
  have hr := h.running he
  obtain ⟨hlc, hwalk⟩ := (jobOk_dLkp he).mp h.job
  rcases stepDLkp_cases s with ⟨hc, hs⟩ | ⟨-, ⟨-, hs⟩ | ⟨x, rest, -, -, hs⟩ | ⟨x, rest, c, -, hchild, hs⟩⟩ <;> rw [hs]
  · exact h.finishWalk_answers hr (hc ▸ hwalk) hlc
  · exact .next (h.raise _ _)
  · exact .next (DataOk.raise h.data.symPop _ _)
  · exact .next (DataOk.move h.data.symPop hr
      ((jobOk_dLkp (by simp [he])).mpr ⟨hlc, h.data.walkAt_child hwalk hchild⟩) (by simp [he]))

theorem Inv.stepDLpm_answers (h : Inv s) (he : s.estate = .dLpm) : AnswersInv (stepDLpm s) := by
  have hr := h.running he
  have hwalk := (jobOk_dLpm he).mp h.job
  rcases stepDLpm_cases s with
    ⟨x, rest, c, -, hchild, hs⟩ | ⟨hlen, -, hs⟩ | ⟨-, -, hs⟩ | ⟨x, rest, -, -, -, hs⟩ <;> rw [hs]
  · exact .next (DataOk.move h.data.symPop hr
      ((jobOk_dLpm (by simp [he])).mpr (h.data.walkAt_child hwalk hchild)) (by simp [he]))
  · exact h.finishWalk_answers hr hwalk hlen
  · exact .next (h.raise _ _)
  · exact .next (h.raise _ _)

theorem Inv.stepCInit_answers (h : Inv s) (he : s.estate = .cInit) : AnswersInv (stepCInit s) := by
  have hr := h.running he
  have hw := (jobOk_cInit he).mp h.job
  have hg := grownTo_seedTrie_counter h.legal
  exact .next (DataOk.move { h.data with trie := TrieOk.seed h.legal, nextBound := hg.le_maxCode } hr
    ((jobOk_cScan rfl).mpr ⟨hw, hg, LiteralsSeeded.seed h.legal⟩))

theorem Inv.stepCScan_answers (h : Inv s) (he : s.estate = .cScan) : AnswersInv (stepCScan s) := by
  have hr := h.running he
  obtain ⟨hw, hg, hlit⟩ := (jobOk_cScan he).mp h.job
  rcases stepCScan_cases s with ⟨-, hs⟩ | ⟨x, rest, hin, hs⟩ <;> rw [hs]
  · exact .next (DataOk.move h.data hr ((jobOk_cEof rfl).mpr hw))
  · have hx := h.symIn x (by simp [hin])
    exact .next (DataOk.move h.data.symPop hr
      ((jobOk_cWalk rfl).mpr ⟨hw, hg, hlit, litCode x, rfl, by simp [hlit x hx]⟩))

/-- The growth of C_WALK (41_compress.md R155): the match `m`, written, plus the symbol `x` it ended at. -/
theorem DataOk.growTrie_inv (hd : DataOk s) (hr : Running s) (hw : s.cfg.widthOk s.wl.toNat = true)
    (hg : GrownTo s.cfg s.trie s.nextCode.toNat) (hlit : LiteralsSeeded s.cfg s.trie) {m : Code} {x : Sym}
    (hm : (Table.get s.trie m).isSome) (hx : x.toNat < s.cfg.r) (hc : child s.trie (.node m) x = none) :
    Inv { growTrie s m x with estate := .cScan } := by
  rcases growTrie_cases s m x with ⟨hroom, hs⟩ | ⟨-, hs⟩ <;> rw [hs]
  · obtain ⟨hlt, hfree, heof, hlit'⟩ := hg.codeOfNext_fresh hd.legal hroom
    have hparent : ∀ q, NodeRef.node m = .node q → (Table.get s.trie q).isSome := fun q hq => by cases hq; exact hm
    have hg' := hg.bind_next hd.legal hroom { parent := .node m, sym := x }
    exact DataOk.move { hd with trie := hd.trie.set hlt heof hfree hparent hc hx, nextBound := hg'.le_maxCode } hr
      ((jobOk_cScan rfl).mpr ⟨hw, hg', hlit.set hlit'⟩)
  · exact DataOk.move hd hr ((jobOk_cScan rfl).mpr ⟨hw, hg, hlit⟩)

theorem Inv.stepCWalk_answers (h : Inv s) (he : s.estate = .cWalk) : AnswersInv (stepCWalk s) := by
  have hr := h.running he
  obtain ⟨hw, hg, hlit, m, hm, hbound⟩ := (jobOk_cWalk he).mp h.job
  have hwrite := h.data.codeWrite hw (Table.get_lt h.trie.wf hbound)
  rcases stepCWalk_cases hm with ⟨-, hs⟩ | ⟨x, rest, c, -, hchild, hs⟩ | ⟨x, rest, hin, hchild, hs⟩ <;> rw [hs]
  · exact .next (DataOk.move hwrite hr ((jobOk_cEof rfl).mpr hw))
  · have hc := get_of_child h.trie.wf hchild
    exact .next (DataOk.move h.data.symPop hr
      ((jobOk_cWalk (by simp [he])).mpr ⟨hw, hg, hlit, c, rfl, by simp [hc]⟩) (by simp [he]))
  · exact .next (DataOk.growTrie_inv hwrite hr hw hg hlit hbound (h.symIn x (by simp [hin])) hchild)

theorem Inv.stepCEof_answers (h : Inv s) (he : s.estate = .cEof) : AnswersInv (stepCEof s) := by
  have hr := h.running he
  have hw := (jobOk_cEof he).mp h.job
  have heof : (BitVec.ofNat 16 s.cfg.eofCode).toNat < s.cfg.maxCode :=
    (BitVec.toNat_ofNat _ _).trans_lt ((Nat.mod_le _ _).trans_lt (Config.legal_r_lt h.legal))
  exact .next (DataOk.move (h.data.codeWrite hw heof) hr ((jobOk_cClose rfl).mpr hw))

theorem Inv.stepCClose_answers (h : Inv s) (he : s.estate = .cClose) : AnswersInv (stepCClose s) :=
  .next (DataOk.complete h.data.sinkClose (h.running he))

theorem Inv.stepEInit_answers (h : Inv s) (he : s.estate = .eInit) : AnswersInv (stepEInit s) := by
  have hr := h.running he
  have hw := (jobOk_eInit he).mp h.job
  have hg := grownTo_seedDtab_counter h.legal
  exact .next (DataOk.move { h.data with dtab := DtabOk.seed h.legal, nextBound := hg.le_maxCode } hr
    ((jobOk_eFirst rfl).mpr ⟨hw, hg⟩))

theorem Inv.stepEFirst_answers (h : Inv s) (he : s.estate = .eFirst) : AnswersInv (stepEFirst s) := by
  have hr := h.running he
  obtain ⟨hw, hg⟩ := (jobOk_eFirst he).mp h.job
  rcases stepEFirst_cases s with ⟨-, hs⟩ | ⟨x, rest, v, -, -, ⟨-, hs⟩ | ⟨-, hv, hs⟩ | ⟨-, -, hs⟩⟩ <;> rw [hs]
  · exact .next (h.raise _ _)
  · exact .next (DataOk.move h.data hr ((jobOk_eClose rfl).mpr hw))
  · have ⟨_, _, hbound⟩ := hg
    exact .next (DataOk.move h.data hr ((jobOk_eEmit rfl).mpr ⟨hw, hg, (hbound v).mpr (.inl hv)⟩))
  · exact .next (DataOk.raise (s := { s with codeIn := rest, cnt := 1 }) h.data _ _)

/-- E_EMIT writes the bound sequence (42_expand.md R185). -/
theorem stepEEmit_of_bound {xs : SymSeq} (hxs : Table.get s.dtab s.code = some xs) :
    stepEEmit s = .next { s.emit (xs.toList.map .sym) with estate := .eLook } := by
  rw [stepEEmit, hxs]

theorem Inv.stepEEmit_answers (h : Inv s) (he : s.estate = .eEmit) : AnswersInv (stepEEmit s) := by
  have hr := h.running he
  obtain ⟨hw, hg, hbound⟩ := (jobOk_eEmit he).mp h.job
  obtain ⟨xs, hxs⟩ := Option.isSome_iff_exists.mp hbound
  have hok : ∀ e ∈ xs.toList.map OutEvent.sym, e.ok s.cfg := fun e hmem => by
    obtain ⟨x, hx, rfl⟩ := List.mem_map.mp hmem
    exact h.dtab.symBound _ _ hxs x hx
  rw [stepEEmit_of_bound hxs]
  exact .next (DataOk.move (h.data.emit hok) hr ((jobOk_eLook rfl).mpr ⟨hw, hg, hbound⟩))

/-- A lookahead that stands for a sequence is the code about to be bound or a bound one (42_expand.md R187). -/
theorem lookaheadSeq_eq_some {xs ys : SymSeq} {v : Code} (hv : lookaheadSeq s xs v = some ys) :
    (v.toNat = s.nextCode.toNat ∧ ys = xs.snoc xs.head) ∨ Table.get s.dtab v = some ys := by
  rcases lookaheadSeq_cases s xs v with ⟨hn, hs⟩ | ⟨-, -, hs⟩ | ⟨-, -, hs⟩ <;> rw [hs] at hv
  · exact .inl ⟨hn, (Option.some.inj hv).symm⟩
  · exact .inr hv
  · cases hv

/-- E_LOOK with room (42_expand.md R187), where the current code is bound. -/
theorem lookGrow_cases {xs : SymSeq} (v : Code) (hxs : Table.get s.dtab s.code = some xs) :
    (∃ ys, lookaheadSeq s xs v = some ys ∧ lookGrow s v = .next { s with
      dtab := Table.set s.dtab (codeOfNext s.nextCode) (xs.snoc ys.head)
      nextCode := s.nextCode + 1, code := v, estate := .eEmit }) ∨
    (lookaheadSeq s xs v = none ∧ lookGrow s v = .next (s.raise .badCode (v.setWidth 32))) := by
  unfold lookGrow
  rw [hxs]
  cases hv : lookaheadSeq s xs v <;> simp [hv]

/-- E_LOOK with a full table (42_expand.md R188). -/
theorem lookFrozen_cases (s : State) (v : Code) :
    ((Table.get s.dtab v).isSome ∧ lookFrozen s v = .next { s with code := v, estate := .eEmit }) ∨
    ((s.cfg.maxCode ≤ v.toNat ∨ Table.get s.dtab v = none) ∧
      lookFrozen s v = .next (s.raise .badCode (v.setWidth 32))) := by
  unfold lookFrozen definedSeq
  by_cases hv : v.toNat < s.cfg.maxCode
  · cases hg : Table.get s.dtab v <;> simp [hv]
  · simp [hv]; omega

/-- The sequence a lookahead stands for begins with a symbol of the block. -/
theorem DataOk.lookahead_head_lt (hd : DataOk s) {xs ys : SymSeq} {v : Code} (hxs : Table.get s.dtab s.code = some xs)
    (hys : lookaheadSeq s xs v = some ys) : ys.head.toNat < s.cfg.r := by
  rcases lookaheadSeq_eq_some hys with ⟨-, rfl⟩ | hold
  · exact hd.dtab.symBound _ _ hxs _ (by simp [SymSeq.toList])
  · exact hd.dtab.symBound _ _ hold _ (by simp [SymSeq.toList])

/-- So the entry E_LOOK binds is made of symbols of the block (42_expand.md R187). -/
theorem DataOk.lookahead_entry_lt (hd : DataOk s) {xs ys : SymSeq} {v : Code}
    (hxs : Table.get s.dtab s.code = some xs) (hys : lookaheadSeq s xs v = some ys) :
    ∀ x ∈ (xs.snoc ys.head).toList, x.toNat < s.cfg.r := by
  intro x hx
  rw [SymSeq.toList_snoc, List.mem_append, List.mem_singleton] at hx
  rcases hx with hx | rfl
  · exact hd.dtab.symBound _ _ hxs x hx
  · exact hd.lookahead_head_lt hxs hys

/-- The lookahead's own code is bound once the entry is in place: it is that entry's code, or it was bound before. -/
theorem lookahead_bound_after {xs ys : SymSeq} {v : Code} (hn : s.nextCode.toNat < 65536)
    (hys : lookaheadSeq s xs v = some ys) (zs : SymSeq) :
    (Table.get (Table.set s.dtab (codeOfNext s.nextCode) zs) v).isSome := by
  rw [Table.get_set]
  split
  · rfl
  · next hne =>
    rcases lookaheadSeq_eq_some hys with ⟨heq, -⟩ | hold
    · exact absurd (BitVec.eq_of_toNat_eq (heq.trans (codeOfNext_toNat hn).symm)) hne
    · simp [hold]

theorem DataOk.lookGrow_answers (hd : DataOk s) (hr : Running s) (hw : s.cfg.widthOk s.wl.toNat = true)
    (hg : GrownTo s.cfg s.dtab s.nextCode.toNat) (hbound : (Table.get s.dtab s.code).isSome)
    (hroom : s.nextCode.toNat < s.cfg.maxCode) (v : Code) : AnswersInv (lookGrow s v) := by
  obtain ⟨xs, hxs⟩ := Option.isSome_iff_exists.mp hbound
  rcases lookGrow_cases v hxs with ⟨ys, hys, hs⟩ | ⟨-, hs⟩ <;> rw [hs]
  · obtain ⟨hlt, -, heof, -⟩ := hg.codeOfNext_fresh hd.legal hroom
    have hg' := hg.bind_next hd.legal hroom (xs.snoc ys.head)
    have hD := hd.dtab.set hlt heof (hd.lookahead_entry_lt hxs hys)
    have hv := lookahead_bound_after (hroom.trans_le (Config.legal_maxCode_le hd.legal)) hys (xs.snoc ys.head)
    exact .next (DataOk.move { hd with dtab := hD, nextBound := hg'.le_maxCode } hr
      ((jobOk_eEmit rfl).mpr ⟨hw, hg', hv⟩))
  · exact .next (hd.raise _ _)

theorem DataOk.lookFrozen_answers (hd : DataOk s) (hr : Running s) (hw : s.cfg.widthOk s.wl.toNat = true)
    (hg : GrownTo s.cfg s.dtab s.nextCode.toNat) (v : Code) : AnswersInv (lookFrozen s v) := by
  rcases lookFrozen_cases s v with ⟨hv, hs⟩ | ⟨-, hs⟩ <;> rw [hs]
  · exact .next (DataOk.move hd hr ((jobOk_eEmit rfl).mpr ⟨hw, hg, hv⟩))
  · exact .next (hd.raise _ _)

theorem Inv.stepELook_answers (h : Inv s) (he : s.estate = .eLook) : AnswersInv (stepELook s) := by
  have hr := h.running he
  obtain ⟨hw, hg, hbound⟩ := (jobOk_eLook he).mp h.job
  rcases stepELook_cases s with ⟨-, hs⟩ | ⟨x, rest, v, -, -, ⟨-, hs⟩ | ⟨-, hroom, hs⟩ | ⟨-, -, hs⟩⟩ <;> rw [hs]
  · exact .next (h.raise _ _)
  · exact .next (DataOk.move h.data hr ((jobOk_eClose rfl).mpr hw))
  · exact DataOk.lookGrow_answers (s := { s with codeIn := rest, cnt := s.cnt + 1 }) h.data hr hw hg hbound hroom v
  · exact DataOk.lookFrozen_answers (s := { s with codeIn := rest, cnt := s.cnt + 1 }) h.data hr hw hg v

theorem Inv.stepEClose_answers (h : Inv s) (he : s.estate = .eClose) : AnswersInv (stepEClose s) :=
  .next (DataOk.complete h.data.sinkClose (h.running he))

/-! ### The first steps (43_control.md R225) -/

/-- A valid `ARG_C` is a code of the same number (10_state.md R27). -/
theorem codeOf_toNat {c : Config} (hl : c.legal = true) {v : Word} (hv : validC c v = true) :
    (codeOf v).toNat = v.toNat ∧ v.toNat < c.maxCode ∧ v.toNat ≠ c.eofCode := by
  obtain ⟨hlt, hne⟩ : v.toNat < c.maxCode ∧ v.toNat ≠ c.eofCode := by simpa [validC] using hv
  have hmax := Config.legal_maxCode_le hl
  refine ⟨?_, hlt, hne⟩
  rw [codeOf, BitVec.toNat_setWidth]
  omega

/-- A valid `ARG_S` is a symbol of the same number (10_state.md R26). -/
theorem symOf_toNat {c : Config} (hl : c.legal = true) {v : Word} (hv : validS c v = true) :
    (symOf v).toNat = v.toNat ∧ v.toNat < c.r := by
  have hlt : v.toNat < c.r := by simpa [validS] using hv
  have hr := Config.legal_r_le hl
  refine ⟨?_, hlt⟩
  rw [symOf, BitVec.toNat_setWidth]
  omega

theorem Inv.insertEdge_inv (h : Inv s) (hr : Running s) (p : NodeRef) {x : Sym} (hx : x.toNat < s.cfg.r)
    (hc : validC s.cfg s.lc = true) : Inv (insertEdge s p x) := by
  obtain ⟨hcode, hlt, hne⟩ := codeOf_toNat h.legal hc
  rcases insertEdge_cases s p x with
    ⟨q, -, -, hs⟩ | ⟨hparent, ⟨c, -, hs⟩ | ⟨hedge, ⟨-, hs⟩ | ⟨hfree, hs⟩⟩⟩ <;> rw [hs]
  · exact h.raise _ _
  · exact h.raise _ _
  · exact h.raise _ _
  · have hT := h.trie.set (hcode.trans_lt hlt) (hcode.trans_ne hne) hfree hparent hedge hx
    exact DataOk.complete { h.data with trie := hT } hr

theorem Inv.execDInsert_answers (h : Inv s) (hr : Running s) : AnswersInv (execDInsert s) := by
  unfold execDInsert
  split_ifs with hp hx hc
  · exact .next (h.raise _ _)
  · exact .next (h.raise _ _)
  · exact .next (h.raise _ _)
  · obtain ⟨hsym, hlt⟩ := symOf_toNat (v := s.ls) h.legal (by simpa using hx)
    exact .next (h.insertEdge_inv hr _ (hsym.trans_lt hlt) (by simpa using hc))

theorem Inv.execDChild_answers (h : Inv s) (hr : Running s) : AnswersInv (execDChild s) := by
  unfold execDChild
  split_ifs
  · exact .next (h.raise _ _)
  · exact .next (h.raise _ _)
  · exact .next (DataOk.complete { h.data with resultReserved := probeResult_reserved _ _ _ } hr)

/-- A walk starts at the root with nothing consumed (40_dictionary.md R116, R117). -/
theorem walkAt_root (T : Table TrieEntry) : WalkAt T .root (0 : Word).toNat := ⟨[], .inl ⟨rfl, rfl⟩, rfl⟩

theorem Inv.execDLookup_answers (h : Inv s) (hr : Running s) : AnswersInv (execDLookup s) := by
  unfold execDLookup
  split_ifs with hlen
  · exact .next (h.raise _ _)
  · have hlc : s.lc ≠ 0 := by simpa [validLen] using hlen
    exact .next (DataOk.move h.data hr ((jobOk_dLkp rfl).mpr ⟨hlc, walkAt_root _⟩))

theorem Inv.execDLpm_answers (h : Inv s) (hr : Running s) : AnswersInv (execDLpm s) :=
  .next (DataOk.move h.data hr ((jobOk_dLpm rfl).mpr (walkAt_root _)))

/-- A codec command's first step (30_encoding.md R83), for the first state of either job. -/
theorem Inv.startCodec (h : Inv s) (hr : Running s) (w : Nat) {first : EState} (hf : first = .cInit ∨ first = .eInit) :
    Inv (s.startCodec w first) := by
  rcases s.startCodec_cases w first with ⟨hw, hs⟩ | ⟨-, hs⟩ <;> rw [hs]
  · have hw' : s.cfg.widthOk (BitVec.ofNat 5 w).toNat = true := by rwa [Config.widthOk_toNat hw]
    have hd : DataOk (s.latchWidth w) := { h.data with statW := .inr hw' }
    rcases hf with rfl | rfl
    · exact DataOk.move hd hr ((jobOk_cInit rfl).mpr hw')
    · exact DataOk.move hd hr ((jobOk_eInit rfl).mpr hw')
  · exact h.raise _ _

/-- `CLEAR` is the one command that runs while an error is pending, and it leaves none (43_control.md R221). -/
theorem Inv.execClear_answers (h : Inv s) : AnswersInv (execClear s) :=
  .next (inv_iff.mpr ⟨h.data, StatusOk.complete rfl ⟨rfl, rfl⟩, trivial⟩)

theorem Inv.exec_answers (h : Inv s) (hr : Running s) (i : Instr) : AnswersInv (exec i s) := by
  cases i with
  | nop => exact .next (h.data.complete hr)
  | clear => exact h.execClear_answers
  | dSeed => exact .next (DataOk.complete { h.data with trie := TrieOk.seed h.legal } hr)
  | dInsert => exact h.execDInsert_answers hr
  | dChild => exact h.execDChild_answers hr
  | dLookup => exact h.execDLookup_answers hr
  | dLpm => exact h.execDLpm_answers hr
  | cCompress w => exact .next (h.startCodec hr w (.inl rfl))
  | cExpand w => exact .next (h.startCodec hr w (.inr rfl))

theorem Inv.stepDecode_answers (h : Inv s) (he : s.estate = .decode) : AnswersInv (stepDecode s) := by
  have hi : s.estate ≠ .idle := by simp [he]
  unfold stepDecode
  cases herr : s.err with
  | true =>
    obtain ⟨-, hclear⟩ := h.status.errRuns herr (h.status.busyIff.mpr hi)
    rw [hclear, decode_clear]
    exact h.execClear_answers
  | false =>
    cases decode s.lcmd with
    | error e => exact .next (h.raise _ _)
    | ok i => exact h.exec_answers (h.running_of_no_error hi herr) i

/-- From a state with the invariant an engine step always answers a next state, and that state has it. -/
theorem Inv.engineStep_answers (h : Inv s) : AnswersInv (engineStep s) := by
  unfold engineStep
  cases he : s.estate with
  | idle => exact .next h
  | decode => exact h.stepDecode_answers he
  | dLkp => exact h.stepDLkp_answers he
  | dLpm => exact h.stepDLpm_answers he
  | cInit => exact h.stepCInit_answers he
  | cScan => exact h.stepCScan_answers he
  | cWalk => exact h.stepCWalk_answers he
  | cEof => exact h.stepCEof_answers he
  | cClose => exact h.stepCClose_answers he
  | eInit => exact h.stepEInit_answers he
  | eFirst => exact h.stepEFirst_answers he
  | eEmit => exact h.stepEEmit_answers he
  | eLook => exact h.stepELook_answers he
  | eClose => exact h.stepEClose_answers he

end

/-! ### The other transitions (70_reset_and_hazards.md R288), and every step -/

section

variable {s t : State}

theorem AnswersInv.inv_of_next {r : Result} (h : AnswersInv r) (hr : r = .next t) : Inv t := by
  obtain ⟨u, hu, hInv⟩ := h
  cases hu.symm.trans hr
  exact hInv

theorem Inv.requestCmd (h : Inv s) (v : Word) : Inv (s.requestCmd v) := by
  rcases s.requestCmd_cases v with ⟨-, hv, hs⟩ | ⟨-, hs⟩ <;> rw [hs]
  · exact h.accept hv
  · exact h.drop

theorem Inv.logRead (h : Inv s) (off : Nat) (v : Word) : Inv (s.logRead off v) := h.model_fields _ _ _

/-- A reset keeps the configuration and the ports; the rest has the values of 10_state.md R53. -/
theorem DataParts.reset {c : Config} (hl : c.legal = true) {xs : List Sym} {es : List OutEvent}
    (hx : ∀ h ∈ xs, h.toNat < c.r) (ho : ∀ e ∈ es, e.ok c) : DataParts c [] [] 0 0 0 xs es where
  legal := hl
  trie := TrieOk.nil c
  dtab := DtabOk.nil c
  nextBound := Nat.zero_le _
  resultReserved := by decide
  statW := .inl rfl
  symIn := hx
  out := ho

/-- The status bits at rest, with no error pending (10_state.md R53). -/
theorem StatusOk.rest (hb : s.busy = false) (he : s.err = false) (hi : s.estate = .idle)
    (hq : s.errcode = 0 ∧ s.errinfo = 0) : StatusOk s where
  busyIff := by simp [hb, hi]
  busyNotDone := by simp [hb]
  doneNotErr _ := he
  quiet _ := hq
  caused := by simp [he]
  errRuns := by simp [he]

theorem Inv.resetOf {c : Config} (hl : c.legal = true) : Inv (State.resetOf c) :=
  inv_iff.mpr ⟨DataParts.reset hl nofun nofun, StatusOk.rest rfl rfl rfl ⟨rfl, rfl⟩, trivial⟩

theorem Inv.platformReset (h : Inv s) : Inv s.platformReset :=
  inv_iff.mpr ⟨DataParts.reset h.legal h.symIn h.out, StatusOk.rest rfl rfl rfl ⟨rfl, rfl⟩, trivial⟩

theorem Inv.hostPoll_inv (h : Inv s) : Inv (hostPoll s) := by
  rcases hostPoll_cases s with ⟨-, hs⟩ | ⟨-, hs⟩ <;> rw [hs]
  · exact h.logRead _ _
  · exact (h.logRead _ _).model_fields _ _ _

theorem Inv.hostRead_inv (h : Inv s) {addr size : Nat} (ht : hostRead addr size s = .next t) : Inv t := by
  rcases hostRead_cases addr size s with ⟨r, -, hs⟩ | ⟨off, -, hs⟩ <;> cases hs.symm.trans ht
  exact h.logRead _ _

theorem Inv.hostWrite_inv (h : Inv s) {addr size : Nat} {v : Word} (ht : hostWrite addr size v s = .next t) : Inv t := by
  rcases hostWrite_cases addr size v s with
    ⟨r, -, hs⟩ | ⟨off, -, ⟨-, hs⟩ | ⟨-, hs⟩ | ⟨-, hs⟩ | ⟨-, hs⟩ | ⟨-, -, -, -, hs⟩⟩ <;> cases hs.symm.trans ht
  · exact h.requestCmd v
  · exact h.operands _ _ _
  · exact h.operands _ _ _
  · exact h.operands _ _ _
  · exact h

/-- The ports' contents, refilled or taken away: nothing of a running job rests on them. -/
theorem Inv.ports (h : Inv s) {xs : List Sym} {es : List OutEvent} (ys : List Code) (hx : ∀ x ∈ xs, x.toNat < s.cfg.r)
    (ho : ∀ e ∈ es, e.ok s.cfg) : Inv { s with symIn := xs, codeIn := ys, out := es } :=
  inv_iff.mpr ⟨{ h.data with symIn := hx, out := ho },
    ⟨h.status.busyIff, h.status.busyNotDone, h.status.doneNotErr, h.status.quiet, h.status.caused, h.status.errRuns⟩,
    h.job⟩

theorem Inv.fillSymIn_inv (h : Inv s) {xs : List Sym} (ht : fillSymIn xs s = .next t) : Inv t := by
  cases hb : s.busy with
  | true => cases (fillSymIn_of_busy xs hb).symm.trans ht
  | false =>
    by_cases hx : ∀ x ∈ xs, x.toNat < s.cfg.r
    · cases (fillSymIn_of_below hb hx).symm.trans ht
      exact h.ports _ hx h.out
    · cases (fillSymIn_of_wide hb (by simpa using hx)).symm.trans ht

theorem Inv.fillCodeIn_inv (h : Inv s) {xs : List Code} (ht : fillCodeIn xs s = .next t) : Inv t := by
  cases hb : s.busy with
  | true => cases (fillCodeIn_of_busy xs hb).symm.trans ht
  | false =>
    cases (fillCodeIn_of_idle xs hb).symm.trans ht
    exact h.ports _ h.symIn h.out

theorem Inv.takeOut_inv (h : Inv s) (ht : takeOut s = .next t) : Inv t := by
  cases hb : s.busy with
  | true => cases (takeOut_of_busy hb).symm.trans ht
  | false =>
    cases (takeOut_of_idle hb).symm.trans ht
    exact h.ports _ h.symIn nofun

theorem Inv.perform_inv (h : Inv s) {e : Event} (ht : perform e s = .next t) : Inv t := by
  cases e with
  | engine => exact h.engineStep_answers.inv_of_next ht
  | read addr size => exact h.hostRead_inv ht
  | write addr size v => exact h.hostWrite_inv ht
  | poll => exact (AnswersInv.next h.hostPoll_inv).inv_of_next ht
  | reset => exact (AnswersInv.next h.platformReset).inv_of_next ht
  | fillSymIn xs => exact h.fillSymIn_inv ht
  | fillCodeIn xs => exact h.fillCodeIn_inv ht
  | takeOut => exact h.takeOut_inv ht

theorem Inv.step_inv (h : Inv s) (ht : step s = .next t) : Inv t := by
  cases ha : s.agenda with
  | nil => exact h.engineStep_answers.inv_of_next ((step_of_agenda_nil h.legal ha).symm.trans ht)
  | cons e rest =>
    have h' : Inv { s with agenda := rest } := h.model_fields rest _ _
    exact h'.perform_inv ((step_of_agenda_cons h.legal ha).symm.trans ht)

end

/-- Settles O20: `seq` and `child` follow from what the seeded table holds. -/
theorem seededTrieHoldsTheLiterals : Obligations.SeededTrieHoldsTheLiterals := by
  intro c hl
  have hlit : ∀ v : Code, v.toNat < c.r →
      Table.get (seedTrie c) v = some { parent := .root, sym := BitVec.ofNat 15 v.toNat } := fun v hv => by
    rw [get_seedTrie hl, if_pos hv]
  refine ⟨fun v hv => ⟨hlit v hv, seqOf_root (hlit v hv)⟩, fun v hv => ?_, fun h hh => ?_⟩
  · rw [get_seedTrie hl, if_neg (by omega)]
  · exact ⟨(TrieOk.seed hl).child_iff.mpr (LiteralsSeeded.seed hl h hh), litCode_toNat h⟩

/-- Settles O58: an engine step answers a state with the invariant, by cases on the engine state and on what its step can
do; every other transition by cases on the event. -/
theorem stepKeepsInvariant : Obligations.StepKeepsInvariant := fun _ _ h ht => h.step_inv ht

/-- Settles O57: empty tables, empty ports and an idle engine meet every part of the invariant. -/
theorem resetMeetsInvariant : Obligations.ResetMeetsInvariant :=
  ⟨fun _ hl => Inv.resetOf hl, Inv.resetOf (by decide)⟩

end Sys2Proof.Machine
end

section
/-!
Host accesses (20_memory.md R60, R65, R66, R70): which have a meaning, what a repeated read shows, and what a line of a host
program passes to the command it requests.
-/

namespace Sys2Proof.Machine

/-! ### Which accesses have a meaning (R60, R65) -/

section

variable {s : State} {addr size : Nat}

/-- The accesses that have a meaning: aligned, 32 bits wide and inside the window. -/
def MeaningfulAccess (c : Config) (addr size : Nat) : Prop :=
  c.csrBase ≤ addr ∧ addr < c.csrBase + 64 ∧ size = 4 ∧ (addr - c.csrBase) % 4 = 0

theorem accessOffset_of_meaningful {c : Config} (h : MeaningfulAccess c addr size) :
    accessOffset c addr size = .ok (addr - c.csrBase) := by
  obtain ⟨hlow, hhigh, hsize, hal⟩ := h
  exact accessOffset_ok_iff.mpr ⟨hlow, hhigh, hsize, hal, rfl⟩

theorem accessOffset_of_meaningless {c : Config} (h : ¬ MeaningfulAccess c addr size) :
    ∃ r, accessOffset c addr size = .error r := by
  cases ha : accessOffset c addr size with
  | error r => exact ⟨r, rfl⟩
  | ok off =>
    obtain ⟨hlow, hhigh, hsize, hal, -⟩ := accessOffset_ok_iff.mp ha
    exact absurd ⟨hlow, hhigh, hsize, hal⟩ h

theorem hostRead_of_meaningful (h : MeaningfulAccess s.cfg addr size) : ∃ t, hostRead addr size s = .next t := by
  rw [hostRead, accessOffset_of_meaningful h]
  exact ⟨_, rfl⟩

theorem hostRead_of_meaningless (h : ¬ MeaningfulAccess s.cfg addr size) :
    ∃ r, hostRead addr size s = .refused r := by
  obtain ⟨r, hr⟩ := accessOffset_of_meaningless h
  rw [hostRead, hr]
  exact ⟨r, rfl⟩

theorem hostWrite_of_meaningful (v : Word) (h : MeaningfulAccess s.cfg addr size) :
    ∃ t, hostWrite addr size v s = .next t := by
  rw [hostWrite, accessOffset_of_meaningful h]
  exact ⟨_, rfl⟩

theorem hostWrite_of_meaningless (v : Word) (h : ¬ MeaningfulAccess s.cfg addr size) :
    ∃ r, hostWrite addr size v s = .refused r := by
  obtain ⟨r, hr⟩ := accessOffset_of_meaningless h
  rw [hostWrite, hr]
  exact ⟨r, rfl⟩

end

/-- Settles O11: an access is one step, and what it answers is what its offset answers. -/
theorem meaninglessAccessRefused : Obligations.MeaninglessAccessRefused := by
  intro s addr size v rest hl
  refine ⟨fun hgood => ⟨fun ha => ?_, fun ha => ?_⟩, fun hbad => ⟨fun ha => ?_, fun ha => ?_⟩⟩ <;>
    rw [step_of_agenda_cons hl ha]
  · exact hostRead_of_meaningful hgood
  · exact hostWrite_of_meaningful v hgood
  · exact hostRead_of_meaningless hbad
  · exact hostWrite_of_meaningless v hbad

/-- Settles O12: both reads are one step each, and an idle read does not see the host's own record. -/
theorem readsChangeNoState : Obligations.ReadsChangeNoState := by
  intro s off rest hl hlt hal ha
  refine ⟨step_read hl hlt hal ha, fun hb t ht => ?_⟩
  have hlegal : t.cfg.legal = true := by rw [ht]; exact hl
  have hagenda : t.agenda = .read (t.cfg.csrBase + off) 4 :: rest := by rw [ht]
  have hvalue : readValue t off = readValue s off := by rw [ht, readValue_idle hb]
  rw [step_read hlegal hlt hal hagenda, hvalue]

/-! ### A line of a host program (R70; 30_encoding.md R93) -/

section

variable {s t : State} {rest : List Event}

theorem hostWrite_csr (x : Csr) (v : Word) (s : State) :
    hostWrite (s.cfg.csrBase + x.offset) 4 v s = .next (writeCsr s v x) := by
  rw [hostWrite, accessOffset_csr]
  dsimp only
  rw [writeOffset, csrAt_offset]

/-- `WR <reg>, <value>` is one step, which writes the register it names. -/
theorem runSteps_wrEvent (n : Nat) {x : Csr} {v : Word} (hl : s.cfg.legal = true)
    (ha : s.agenda = wrEvent s.cfg x v :: rest) (ht : writeCsr { s with agenda := rest } v x = t) :
    runSteps (n + 1) s = runSteps n t := by
  have hstep : step s = .next t := by
    rw [step_of_agenda_cons hl ha, ← ht]
    exact hostWrite_csr x v _
  rw [runSteps, hstep]

/-- An idle block without an error accepts every command word (43_control.md R224). -/
theorem State.requestCmd_of_ready (v : Word) (hb : s.busy = false) (he : s.err = false) :
    s.requestCmd v = s.accept v := by
  simp [State.requestCmd, State.accepts, hb, he]

end

/-- Settles O9: three operand writes, and then the command's own, which latches them. -/
theorem operandWritesThenCommandPassOperands : Obligations.OperandWritesThenCommandPassOperands := by
  intro s p h k hl hb he
  calc runSteps 4 (s.loadProgram [.dInsert p h k])
    _ = runSteps 3 { s with
          argP := p.value
          agenda := wrEvent s.cfg .argS h :: wrEvent s.cfg .argC k :: wrEvent s.cfg .cmd (encode .dInsert) :: s.agenda } :=
        runSteps_wrEvent 3 hl rfl rfl
    _ = runSteps 2 { s with
          argP := p.value, argS := h
          agenda := wrEvent s.cfg .argC k :: wrEvent s.cfg .cmd (encode .dInsert) :: s.agenda } :=
        runSteps_wrEvent 2 hl rfl rfl
    _ = runSteps 1 { s with
          argP := p.value, argS := h, argC := k, agenda := wrEvent s.cfg .cmd (encode .dInsert) :: s.agenda } :=
        runSteps_wrEvent 1 hl rfl rfl
    _ = .next (State.requestCmd (encode .dInsert) { s with argP := p.value, argS := h, argC := k }) :=
        runSteps_wrEvent 0 hl rfl rfl
    _ = .next (State.accept (encode .dInsert) { s with argP := p.value, argS := h, argC := k }) :=
        congrArg Host.Outcome.next (State.requestCmd_of_ready _ hb he)

end Sys2Proof.Machine
end

section
/-!
What an engine step may write (20_memory.md R61, R72; 10_state.md R54): the order of the three streams, and the one or two
engine states that write each table, `NEXT_CODE` and `STATUS.W`.
-/

namespace Sys2Proof.Machine

/-- The command word in DECODE is the command `i` (43_control.md R225). -/
def Decodes (s : State) (i : Instr) : Prop := s.estate = .decode ∧ decode s.lcmd = .ok i

/-- The frame of an engine step from `s` to `t`: what it keeps, how it moves the ports, and where else it may write. -/
structure EngineFrame (s t : State) : Prop where
  cfg : t.cfg = s.cfg
  agenda : t.agenda = s.agenda
  hostReads : t.hostReads = s.hostReads
  freeCtr : t.freeCtr = s.freeCtr
  out : s.out <+: t.out
  symIn : t.symIn = s.symIn ∨ t.symIn = s.symIn.tail
  codeIn : t.codeIn = s.codeIn ∨ (t.codeIn = s.codeIn.tail ∧ (s.estate = .eFirst ∨ s.estate = .eLook))
  trie : t.trie = s.trie ∨ s.estate = .cInit ∨ s.estate = .cWalk ∨ Decodes s .dSeed ∨ Decodes s .dInsert
  dtab : t.dtab = s.dtab ∨ s.estate = .eInit ∨ s.estate = .eLook
  nextCode : t.nextCode = s.nextCode ∨ s.estate = .cInit ∨ s.estate = .cWalk ∨ s.estate = .eInit ∨ s.estate = .eLook
  statW : t.statW = s.statW ∨ ∃ w, Decodes s (.cCompress w) ∨ Decodes s (.cExpand w)

/-- A step that changes nothing has the frame. The proofs below copy a frame field by field, `{ h with … }`: what they do
not name is as in `h`, and registers the frame does not speak of may move. -/
theorem EngineFrame.refl (s : State) : EngineFrame s s where
  cfg := rfl
  agenda := rfl
  hostReads := rfl
  freeCtr := rfl
  out := List.prefix_rfl
  symIn := .inl rfl
  codeIn := .inl rfl
  trie := .inl rfl
  dtab := .inl rfl
  nextCode := .inl rfl
  statW := .inl rfl

/-- If the result is a next state, the step to it has the frame. -/
def AnswersFrame (s : State) (r : Result) : Prop := ∀ t, r = .next t → EngineFrame s t

section

variable {s t : State}

theorem AnswersFrame.next (h : EngineFrame s t) : AnswersFrame s (.next t) := fun _ ht => by
  cases ht
  exact h

theorem AnswersFrame.fault (f : Fault) : AnswersFrame s (.fault f) := fun _ ht => by cases ht

/-- The shared endings write no table and no port. -/
theorem EngineFrame.raise (h : EngineFrame s t) (x : Cause) (info : Word) : EngineFrame s (t.raise x info) :=
  { h with }

theorem EngineFrame.complete (h : EngineFrame s t) : EngineFrame s t.complete := { h with }

theorem EngineFrame.emit (s : State) (es : List OutEvent) : EngineFrame s (s.emit es) :=
  { EngineFrame.refl s with out := List.prefix_append _ _ }

theorem EngineFrame.symPop (s : State) : EngineFrame s s.symPop := { EngineFrame.refl s with symIn := .inr rfl }

/-- A read of `CODE_IN`, in the two states that read it (10_state.md R48). -/
theorem EngineFrame.codeRead {x : Code} {xs : List Code} (he : s.estate = .eFirst ∨ s.estate = .eLook)
    (hin : s.codeIn = x :: xs) : EngineFrame s { s with codeIn := xs } :=
  { EngineFrame.refl s with codeIn := .inr ⟨by rw [hin, List.tail_cons], he⟩ }

/-! ### The first steps -/

theorem insertEdge_frame (hd : Decodes s .dInsert) (p : NodeRef) (x : Sym) : EngineFrame s (insertEdge s p x) := by
  rcases insertEdge_cases s p x with ⟨q, -, -, hs⟩ | ⟨-, ⟨c, -, hs⟩ | ⟨-, ⟨-, hs⟩ | ⟨-, hs⟩⟩⟩ <;> rw [hs]
  · exact (EngineFrame.refl s).raise _ _
  · exact (EngineFrame.refl s).raise _ _
  · exact (EngineFrame.refl s).raise _ _
  · exact { EngineFrame.refl s with trie := .inr (.inr (.inr (.inr hd))) }

theorem execDInsert_frame (hd : Decodes s .dInsert) : AnswersFrame s (execDInsert s) := by
  unfold execDInsert
  split_ifs
  · exact .next ((EngineFrame.refl s).raise _ _)
  · exact .next ((EngineFrame.refl s).raise _ _)
  · exact .next ((EngineFrame.refl s).raise _ _)
  · exact .next (insertEdge_frame hd _ _)

theorem execDChild_frame : AnswersFrame s (execDChild s) := by
  unfold execDChild
  split_ifs
  · exact .next ((EngineFrame.refl s).raise _ _)
  · exact .next ((EngineFrame.refl s).raise _ _)
  · exact .next { EngineFrame.refl s with }

theorem execDLookup_frame : AnswersFrame s (execDLookup s) := by
  unfold execDLookup
  split_ifs
  · exact .next ((EngineFrame.refl s).raise _ _)
  · exact .next { EngineFrame.refl s with }

theorem startCodec_frame {w : Nat} (hd : Decodes s (.cCompress w) ∨ Decodes s (.cExpand w)) (first : EState) :
    EngineFrame s (s.startCodec w first) := by
  rcases s.startCodec_cases w first with ⟨-, hs⟩ | ⟨-, hs⟩ <;> rw [hs]
  · exact { EngineFrame.refl s with statW := .inr ⟨w, hd⟩ }
  · exact (EngineFrame.refl s).raise _ _

theorem exec_frame {i : Instr} (hd : Decodes s i) : AnswersFrame s (exec i s) := by
  cases i with
  | nop => exact .next (EngineFrame.refl s).complete
  | clear => exact .next { EngineFrame.refl s with }
  | dSeed => exact .next { EngineFrame.refl s with trie := .inr (.inr (.inr (.inl hd))) }
  | dInsert => exact execDInsert_frame hd
  | dChild => exact execDChild_frame
  | dLookup => exact execDLookup_frame
  | dLpm => exact .next { EngineFrame.refl s with }
  | cCompress w => exact .next (startCodec_frame (.inl hd) _)
  | cExpand w => exact .next (startCodec_frame (.inr hd) _)

theorem stepDecode_frame (he : s.estate = .decode) : AnswersFrame s (stepDecode s) := by
  unfold stepDecode
  cases hd : decode s.lcmd with
  | error e => exact .next ((EngineFrame.refl s).raise _ _)
  | ok i => exact exec_frame ⟨he, hd⟩

/-! ### The steps of a running job -/

theorem finishWalk_frame (n : Word) : AnswersFrame s (finishWalk s n) := by
  rcases finishWalk_cases s n with ⟨-, hs⟩ | ⟨c, -, hs⟩ <;> rw [hs]
  · exact .fault _
  · exact .next { EngineFrame.refl s with }

theorem stepDLkp_frame : AnswersFrame s (stepDLkp s) := by
  rcases stepDLkp_cases s with ⟨-, hs⟩ | ⟨-, ⟨-, hs⟩ | ⟨x, rest, -, -, hs⟩ | ⟨x, rest, c, -, -, hs⟩⟩ <;> rw [hs]
  · exact finishWalk_frame _
  · exact .next ((EngineFrame.refl s).raise _ _)
  · exact .next ((EngineFrame.symPop s).raise _ _)
  · exact .next { EngineFrame.symPop s with }

theorem stepDLpm_frame : AnswersFrame s (stepDLpm s) := by
  rcases stepDLpm_cases s with
    ⟨x, rest, c, -, -, hs⟩ | ⟨-, -, hs⟩ | ⟨-, -, hs⟩ | ⟨x, rest, -, -, -, hs⟩ <;> rw [hs]
  · exact .next { EngineFrame.symPop s with }
  · exact finishWalk_frame _
  · exact .next ((EngineFrame.refl s).raise _ _)
  · exact .next ((EngineFrame.refl s).raise _ _)

theorem stepCInit_frame (he : s.estate = .cInit) : AnswersFrame s (stepCInit s) :=
  .next { EngineFrame.refl s with trie := .inr (.inl he), nextCode := .inr (.inl he) }

theorem stepCScan_frame : AnswersFrame s (stepCScan s) := by
  rcases stepCScan_cases s with ⟨-, hs⟩ | ⟨x, rest, -, hs⟩ <;> rw [hs]
  · exact .next { EngineFrame.refl s with }
  · exact .next { EngineFrame.symPop s with }

/-- C_WALK ends a match: the code is written, and the trie grows where there is room (41_compress.md R155). -/
theorem growTrie_frame (he : s.estate = .cWalk) (m : Code) (x : Sym) :
    EngineFrame s (growTrie (s.codeWrite m) m x) := by
  rcases growTrie_cases (s.codeWrite m) m x with ⟨-, hs⟩ | ⟨-, hs⟩ <;> rw [hs]
  · exact { EngineFrame.emit s _ with trie := .inr (.inr (.inl he)), nextCode := .inr (.inr (.inl he)) }
  · exact EngineFrame.emit s _

theorem stepCWalk_frame (he : s.estate = .cWalk) : AnswersFrame s (stepCWalk s) := by
  cases hcur : s.cur with
  | root =>
    rw [stepCWalk, hcur]
    exact .fault _
  | node m =>
    rcases stepCWalk_cases hcur with ⟨-, hs⟩ | ⟨x, rest, c, -, -, hs⟩ | ⟨x, rest, -, -, hs⟩ <;> rw [hs]
    · exact .next { EngineFrame.emit s _ with }
    · exact .next { EngineFrame.symPop s with }
    · exact .next { growTrie_frame he m x with }

theorem stepEInit_frame (he : s.estate = .eInit) : AnswersFrame s (stepEInit s) :=
  .next { EngineFrame.refl s with dtab := .inr (.inl he), nextCode := .inr (.inr (.inr (.inl he))) }

theorem stepEFirst_frame (he : s.estate = .eFirst) : AnswersFrame s (stepEFirst s) := by
  rcases stepEFirst_cases s with ⟨-, hs⟩ | ⟨x, rest, v, hin, -, ⟨-, hs⟩ | ⟨-, -, hs⟩ | ⟨-, -, hs⟩⟩ <;> rw [hs]
  · exact .next ((EngineFrame.refl s).raise _ _)
  · exact .next { EngineFrame.codeRead (.inl he) hin with }
  · exact .next { EngineFrame.codeRead (.inl he) hin with }
  · exact .next { EngineFrame.codeRead (.inl he) hin with }

theorem stepEEmit_frame : AnswersFrame s (stepEEmit s) := by
  cases hxs : Table.get s.dtab s.code with
  | none =>
    rw [stepEEmit, hxs]
    exact .fault _
  | some xs =>
    rw [stepEEmit_of_bound hxs]
    exact .next { EngineFrame.emit s _ with }

/-- E_LOOK with room, from the state `t` after the read (42_expand.md R187). -/
theorem lookGrow_frame (h : EngineFrame s t) (he : s.estate = .eLook) (v : Code) : AnswersFrame s (lookGrow t v) := by
  cases hxs : Table.get t.dtab t.code with
  | none =>
    rw [lookGrow, hxs]
    exact .fault _
  | some xs =>
    rcases lookGrow_cases v hxs with ⟨ys, -, hs⟩ | ⟨-, hs⟩ <;> rw [hs]
    · exact .next { h with dtab := .inr (.inr he), nextCode := .inr (.inr (.inr (.inr he))) }
    · exact .next (h.raise _ _)

/-- E_LOOK with a full table, from the state `t` after the read (42_expand.md R188). -/
theorem lookFrozen_frame (h : EngineFrame s t) (v : Code) : AnswersFrame s (lookFrozen t v) := by
  rcases lookFrozen_cases t v with ⟨-, hs⟩ | ⟨-, hs⟩ <;> rw [hs]
  · exact .next { h with }
  · exact .next (h.raise _ _)

theorem stepELook_frame (he : s.estate = .eLook) : AnswersFrame s (stepELook s) := by
  rcases stepELook_cases s with ⟨-, hs⟩ | ⟨x, rest, v, hin, -, hread⟩
  · rw [hs]
    exact .next ((EngineFrame.refl s).raise _ _)
  · have h : EngineFrame s { s with codeIn := rest, cnt := s.cnt + 1 } :=
      { EngineFrame.codeRead (.inr he) hin with }
    rcases hread with ⟨-, hs⟩ | ⟨-, -, hs⟩ | ⟨-, -, hs⟩ <;> rw [hs]
    · exact .next { h with }
    · exact lookGrow_frame h he v
    · exact lookFrozen_frame h v

theorem engineStep_frame : AnswersFrame s (engineStep s) := by
  unfold engineStep
  cases he : s.estate with
  | idle => exact .next (EngineFrame.refl s)
  | decode => exact stepDecode_frame he
  | dLkp => exact stepDLkp_frame
  | dLpm => exact stepDLpm_frame
  | cInit => exact stepCInit_frame he
  | cScan => exact stepCScan_frame
  | cWalk => exact stepCWalk_frame he
  | cEof => exact .next { EngineFrame.emit s _ with }
  | cClose => exact .next (EngineFrame.emit s _).complete
  | eInit => exact stepEInit_frame he
  | eFirst => exact stepEFirst_frame he
  | eEmit => exact stepEEmit_frame
  | eLook => exact stepELook_frame he
  | eClose => exact .next (EngineFrame.emit s _).complete

end

/-- Settles O53: the streams' part of the frame every engine step has. -/
theorem engineKeepsStreamOrder : Obligations.EngineKeepsStreamOrder := by
  intro s t ht
  have h := engineStep_frame t ht
  exact ⟨h.out, h.symIn, h.codeIn.imp_right And.left⟩

/-- Settles O54: the rest of that frame, with the writers in DECODE named by their command words. -/
theorem tablesHaveTheirWriters : Obligations.TablesHaveTheirWriters := by
  intro s t ht
  have h := engineStep_frame t ht
  refine ⟨h.cfg, h.agenda, h.hostReads, h.freeCtr, ?_, h.dtab, h.codeIn.imp_right And.right, h.nextCode, ?_⟩
  · simpa only [Decodes, ← and_or_left] using h.trie
  · simpa only [Decodes, ← and_or_left, exists_and_left] using h.statW

end Sys2Proof.Machine
end

section
/-!
The encoding of the commands (30_encoding.md R80 to R87, R93): the fields of a word as numbers, the decoder and the
encoder as inverses, which words are reserved, and the first step of the commands that carry a width.
-/

namespace Sys2Proof

/-! ### The fields of a word as numbers (R80, R82, R83) -/

section

variable {v : Word}

theorem fieldOpc_toNat (v : Word) : (fieldOpc v).toNat = v.toNat % 16 := by
  rw [fieldOpc, BitVec.extractLsb'_toNat]
  rfl

theorem fieldW_eq (v : Word) : fieldW v = v.toNat / 256 % 32 := by
  rw [fieldW, BitVec.extractLsb'_toNat, Nat.shiftRight_eq_div_pow]

/-- With the reserved bits of Format N clear nothing is left above the opcode. -/
theorem reservedClearN_iff : reservedClearN v = true ↔ v.toNat < 16 := by
  have hv := v.isLt
  rw [reservedClearN, beq_iff_eq, ← BitVec.toNat_inj, BitVec.extractLsb'_toNat, Nat.shiftRight_eq_div_pow,
    BitVec.toNat_ofNat]
  omega

/-- With the reserved bits of Format W clear nothing is left but the opcode and the width. -/
theorem reservedClearW_iff : reservedClearW v = true ↔ v.toNat = 256 * fieldW v + (fieldOpc v).toNat := by
  have hv := v.isLt
  rw [fieldW_eq, fieldOpc_toNat, reservedClearW, Bool.and_eq_true, beq_iff_eq, beq_iff_eq, ← BitVec.toNat_inj,
    ← BitVec.toNat_inj, BitVec.extractLsb'_toNat, BitVec.extractLsb'_toNat, Nat.shiftRight_eq_div_pow,
    Nat.shiftRight_eq_div_pow, BitVec.toNat_ofNat, BitVec.toNat_ofNat]
  omega

/-- A Format W word is its width, eight bits up, and its opcode (R93). -/
theorem encodeW_toNat {opc : Word} {w : Nat} (ho : opc.toNat < 16) (hw : w < 32) :
    (encodeW opc w).toNat = 256 * w + opc.toNat := by
  have hor : 2 ^ 8 * w + opc.toNat = 2 ^ 8 * w ||| opc.toNat := Nat.two_pow_add_eq_or_of_lt (by omega) w
  have hshift : (BitVec.ofNat 32 w <<< 8).toNat = 2 ^ 8 * w := by
    rw [BitVec.toNat_shiftLeft, Nat.shiftLeft_eq, BitVec.toNat_ofNat]
    omega
  rw [encodeW, BitVec.toNat_or, hshift, ← hor]
  rfl

/-- Decoding reads back what encoding wrote into the fields of a Format W word. -/
theorem encodeW_fields {opc : Word} {w : Nat} (ho : opc.toNat < 16) (hw : w < 32) :
    (fieldOpc (encodeW opc w)).toNat = opc.toNat ∧ fieldW (encodeW opc w) = w ∧
      reservedClearW (encodeW opc w) = true := by
  have hn := encodeW_toNat ho hw
  have hopc := fieldOpc_toNat (encodeW opc w)
  have hwid := fieldW_eq (encodeW opc w)
  rw [reservedClearW_iff]
  omega

/-- Encoding writes back what decoding read from the fields of a Format W word. -/
theorem encodeW_of_fields {opc : Word} (ho : (fieldOpc v).toNat = opc.toNat) (hr : reservedClearW v = true) :
    encodeW opc (fieldW v) = v := by
  have hlt := (fieldOpc v).isLt
  apply BitVec.eq_of_toNat_eq
  rw [encodeW_toNat (by omega) (fieldW_lt v), reservedClearW_iff.mp hr, ho]

/-- A Format N word with its reserved bits clear is its opcode. -/
theorem eq_of_fieldOpc {opc : Word} (ho : (fieldOpc v).toNat = opc.toNat) (hr : reservedClearN v = true) : opc = v := by
  apply BitVec.eq_of_toNat_eq
  rw [← ho, fieldOpc_toNat, Nat.mod_eq_of_lt (reservedClearN_iff.mp hr)]

/-! ### Decoder and encoder are inverses -/

theorem decode_of_opc_eight (ho : (fieldOpc v).toNat = 8) : decode v = decodeW .cCompress v := by simp only [decode, ho]

theorem decode_of_opc_nine (ho : (fieldOpc v).toNat = 9) : decode v = decodeW .cExpand v := by simp only [decode, ho]

theorem decode_encode_cCompress {w : Nat} (hw : w < 32) : decode (encode (.cCompress w)) = .ok (.cCompress w) := by
  obtain ⟨hopc, hwid, hclear⟩ := encodeW_fields (opc := 0x8#32) (by decide) hw
  rw [encode, decode_of_opc_eight hopc, decodeW_ok_iff, hwid]
  exact ⟨hclear, rfl⟩

theorem decode_encode_cExpand {w : Nat} (hw : w < 32) : decode (encode (.cExpand w)) = .ok (.cExpand w) := by
  obtain ⟨hopc, hwid, hclear⟩ := encodeW_fields (opc := 0x9#32) (by decide) hw
  rw [encode, decode_of_opc_nine hopc, decodeW_ok_iff, hwid]
  exact ⟨hclear, rfl⟩

/-- A word that decodes has its reserved bits clear, so its fields give it back (R82, R83). -/
theorem wellFormed_and_encode_of_decode {i : Instr} (h : decode v = .ok i) : i.wellFormed = true ∧ encode i = v := by
  rcases decode_ok_cases h with ⟨hr, hcase⟩ | ⟨hr, hcase⟩
  · rcases hcase with ⟨ho, rfl⟩ | ⟨ho, rfl⟩ | ⟨ho, rfl⟩ | ⟨ho, rfl⟩ | ⟨ho, rfl⟩ | ⟨ho, rfl⟩ | ⟨ho, rfl⟩ <;>
      exact ⟨rfl, eq_of_fieldOpc ho hr⟩
  · rcases hcase with ⟨ho, rfl⟩ | ⟨ho, rfl⟩ <;>
      exact ⟨decide_eq_true (fieldW_lt v), encodeW_of_fields ho hr⟩

/-- A word is reserved when its opcode is no command's, or a bit its format reserves is not 0 (R86). -/
def Reserved (v : Word) : Prop :=
  fieldOpc v = 7#4 ∨ 10 ≤ (fieldOpc v).toNat ∨ ((fieldOpc v).toNat ≤ 6 ∧ v.extractLsb' 4 28 ≠ 0#28) ∨
    ((fieldOpc v = 8#4 ∨ fieldOpc v = 9#4) ∧ (v.extractLsb' 4 4 ≠ 0#4 ∨ v.extractLsb' 13 19 ≠ 0#19))

/-- A decoded word has a command's opcode and, in its format, no reserved bit set. -/
theorem not_reserved_of_decode {i : Instr} (h : decode v = .ok i) : ¬ Reserved v := by
  simp only [Reserved, ← BitVec.toNat_inj (x := fieldOpc v), BitVec.toNat_ofNat]
  rcases decode_ok_cases h with ⟨hr, hcase⟩ | ⟨hr, hcase⟩
  · have hopc : (fieldOpc v).toNat ≤ 6 := by omega
    have hbits : v.extractLsb' 4 28 = 0#28 := beq_iff_eq.mp hr
    rintro (h7 | h10 | ⟨-, hset⟩ | ⟨h89, -⟩)
    · omega
    · omega
    · exact hset hbits
    · omega
  · have hopc : (fieldOpc v).toNat = 8 ∨ (fieldOpc v).toNat = 9 := hcase.imp And.left And.left
    obtain ⟨hlow, hhigh⟩ : v.extractLsb' 4 4 = 0#4 ∧ v.extractLsb' 13 19 = 0#19 := by simpa [reservedClearW] using hr
    rintro (h7 | h10 | ⟨h6, -⟩ | ⟨-, hset⟩)
    · omega
    · omega
    · omega
    · exact hset.elim (· hlow) (· hhigh)

theorem decode_error_of_reserved (h : Reserved v) : ∃ e, decode v = .error e := by
  cases hd : decode v with
  | error e => exact ⟨e, rfl⟩
  | ok i => exact absurd h (not_reserved_of_decode hd)

end

/-- Settles O2: a Format N command has one word; a Format W word keeps opcode and width apart. -/
theorem decodeOfEncode : Obligations.DecodeOfEncode := by
  intro i hi
  cases i with
  | nop => rfl
  | clear => rfl
  | dSeed => rfl
  | dInsert => rfl
  | dChild => rfl
  | dLookup => rfl
  | dLpm => rfl
  | cCompress w => exact decode_encode_cCompress (of_decide_eq_true hi)
  | cExpand w => exact decode_encode_cExpand (of_decide_eq_true hi)

/-- Settles O3: the clear reserved bits leave nothing in the word but what the command writes. -/
theorem encodeOfDecode : Obligations.EncodeOfDecode := fun _ _ h => wellFormed_and_encode_of_decode h

/-- Settles O1: each is the word of its command, so O2 gives the command back. -/
theorem specWordsDecode : Obligations.SpecWordsDecode :=
  ⟨decodeOfEncode .nop rfl, decodeOfEncode .clear rfl, decodeOfEncode .dSeed rfl, decodeOfEncode .dInsert rfl,
    decodeOfEncode .dChild rfl, decodeOfEncode .dLookup rfl, decodeOfEncode .dLpm rfl,
    decodeOfEncode (.cCompress 12) rfl, decodeOfEncode (.cExpand 9) rfl⟩

end Sys2Proof

namespace Sys2Proof.Machine

section

variable {s : State}

/-! ### State DECODE (R85, R86; 43_control.md R225) -/

theorem engineStep_of_decode_error {e : DecodeError} (he : s.estate = .decode) (hd : decode s.lcmd = .error e) :
    engineStep s = .next (s.raise .illegalCmd s.lcmd) := by
  simp only [engineStep, he, stepDecode, hd]

theorem engineStep_of_decode_ok {i : Instr} (he : s.estate = .decode) (hd : decode s.lcmd = .ok i) :
    engineStep s = exec i s := by
  simp only [engineStep, he, stepDecode, hd]

/-! ### The width check of the codec commands (R83) -/

theorem State.startCodec_of_widthOk {w : Nat} (first : EState) (hw : s.cfg.widthOk w = true) :
    s.startCodec w first = { s.latchWidth w with estate := first } := if_pos hw

theorem State.startCodec_of_not_widthOk {w : Nat} (first : EState) (hw : ¬ s.cfg.widthOk w = true) :
    s.startCodec w first = s.raise .badWidth (BitVec.ofNat 32 w) := if_neg hw

end

/-- Settles O4: a reserved word does not decode, and the step of a word that does not decode is the error entry. -/
theorem reservedWordsRaiseIllegalCmd : Obligations.ReservedWordsRaiseIllegalCmd := by
  intro s he hr
  obtain ⟨e, hd⟩ := decode_error_of_reserved (v := s.lcmd) hr
  exact ⟨⟨e, hd⟩, engineStep_of_decode_error he hd⟩

/-- Settles O5: both ways the step is the engine's, on a state that keeps `ESTATE` and the word. -/
theorem stepRunsDecodedCommand : Obligations.StepRunsDecodedCommand := by
  intro s i hl he hd
  refine ⟨fun ha => ?_, fun rest ha => ?_⟩
  · rw [step_of_agenda_nil hl ha]
    exact engineStep_of_decode_ok he hd
  · rw [step_of_agenda_cons hl ha]
    exact engineStep_of_decode_ok (s := { s with agenda := rest }) he hd

/-- Settles O32: both commands are the one width check, and a legal width survives its 5-bit register. -/
theorem codecCommandsStart : Obligations.CodecCommandsStart := by
  intro s w
  rw [← Config.widthOk_iff]
  refine ⟨fun hw => ⟨?_, ?_, Config.widthOk_toNat hw⟩, fun hw => ⟨?_, ?_⟩⟩
  · exact congrArg Host.Outcome.next (State.startCodec_of_widthOk .cInit hw)
  · exact congrArg Host.Outcome.next (State.startCodec_of_widthOk .eInit hw)
  · exact congrArg Host.Outcome.next (State.startCodec_of_not_widthOk .cInit hw)
  · exact congrArg Host.Outcome.next (State.startCodec_of_not_widthOk .eInit hw)

end Sys2Proof.Machine
end

section
/-!
The dictionary commands' first steps (40_dictionary.md R110 to R117): the operand checks, what `D_INSERT` and `D_CHILD` do
with valid operands, and what no step of a dictionary command writes.
-/

namespace Sys2Proof.Machine

/-! ### The operand checks (R111) -/

section

variable {c : Config} {v : Word}

theorem validP_iff : validP c v = true ↔
    v.extractLsb' 17 15 = 0#15 ∧
      ((pRoot v = true ∧ pCode v = 0#16) ∨ (pRoot v = false ∧ (pCode v).toNat < c.maxCode)) := by
  simp [validP]

theorem validS_iff : validS c v = true ↔ v.toNat < c.r := decide_eq_true_iff

theorem validC_iff : validC c v = true ↔ v.toNat < c.maxCode ∧ v.toNat ≠ c.eofCode := by simp [validC]

theorem nodeP_of_pRoot (h : pRoot v = true) : nodeP v = .root := if_pos h

theorem nodeP_of_not_pRoot (h : pRoot v = false) : nodeP v = .node (pCode v) := by simp [nodeP, h]

end

section

variable {s t : State} {i : Instr}

/-- `D_INSERT` and `D_CHILD` check the parent first, and then the symbol. -/
theorem exec_of_not_validP (hi : i = .dInsert ∨ i = .dChild) (hp : ¬ validP s.cfg s.lp = true) :
    exec i s = .next (s.raise .badArg 0x08) := by
  rcases hi with rfl | rfl
  · simp [exec, execDInsert, hp]
  · simp [exec, execDChild, hp]

theorem exec_of_not_validS (hi : i = .dInsert ∨ i = .dChild) (hp : validP s.cfg s.lp = true)
    (hx : ¬ validS s.cfg s.ls = true) : exec i s = .next (s.raise .badArg 0x0C) := by
  rcases hi with rfl | rfl
  · simp [exec, execDInsert, hp, hx]
  · simp [exec, execDChild, hp, hx]

theorem execDInsert_of_not_validC (hp : validP s.cfg s.lp = true) (hx : validS s.cfg s.ls = true)
    (hc : ¬ validC s.cfg s.lc = true) : execDInsert s = .next (s.raise .badArg 0x10) := by
  simp [execDInsert, hp, hx, hc]

theorem execDInsert_of_valid (hp : validP s.cfg s.lp = true) (hx : validS s.cfg s.ls = true)
    (hc : validC s.cfg s.lc = true) : execDInsert s = .next (insertEdge s (nodeP s.lp) (symOf s.ls)) := by
  simp [execDInsert, hp, hx, hc]

theorem execDChild_of_valid (hp : validP s.cfg s.lp = true) (hx : validS s.cfg s.ls = true) :
    execDChild s = .next { s with result := probeResult s.trie (nodeP s.lp) (symOf s.ls) }.complete := by
  simp [execDChild, hp, hx]

/-- `D_LOOKUP` checks the length (10_state.md R27), and then starts at the root. -/
theorem execDLookup_of_length (hlc : s.lc ≠ 0) :
    execDLookup s = .next { s with cur := .root, cnt := 0, estate := .dLkp } := by
  rw [execDLookup, if_neg (by simpa [validLen] using hlc)]

theorem execDLookup_of_zero (hlc : s.lc = 0) : execDLookup s = .next (s.raise .badArg 0x10) := by
  simp [execDLookup, validLen, hlc]

/-- A command has not just raised `BAD_ARG` when it has ended well or another cause is pending. -/
theorem ne_failed_badArg (h : t.done = true ∨ t.errcode ≠ Cause.badArg.code) (info : Word) :
    (.next t : Result) ≠ .next (s.failed 3 info) := by
  intro heq
  cases heq
  rcases h with h | h
  · cases h
  · exact h rfl

/-- With valid operands `D_INSERT` ends well or raises a run-time error. -/
theorem insertEdge_not_badArg (p : NodeRef) (x : Sym) :
    (insertEdge s p x).done = true ∨ (insertEdge s p x).errcode ≠ Cause.badArg.code := by
  rcases insertEdge_cases s p x with ⟨q, -, -, hs⟩ | ⟨-, ⟨c, -, hs⟩ | ⟨-, ⟨-, hs⟩ | ⟨-, hs⟩⟩⟩ <;> rw [hs]
  · exact .inr (by simp [Cause.code])
  · exact .inr (by simp [Cause.code])
  · exact .inr (by simp [Cause.code])
  · exact .inl rfl

theorem exec_valid_ne_badArg (hi : i = .dInsert ∨ i = .dChild) (hp : validP s.cfg s.lp = true)
    (hx : validS s.cfg s.ls = true) (hc : i = .dInsert → validC s.cfg s.lc = true) (info : Word) :
    exec i s ≠ .next (s.failed 3 info) := by
  rcases hi with rfl | rfl
  · rw [exec, execDInsert_of_valid hp hx (hc rfl)]
    exact ne_failed_badArg (insertEdge_not_badArg _ _) info
  · rw [exec, execDChild_of_valid hp hx]
    exact ne_failed_badArg (.inl rfl) info

end

/-! ### `D_INSERT` with valid operands (R114) -/

section

variable {s : State} {p : NodeRef} {x : Sym}

theorem insertEdge_of_unbound {q : Code} (hq : Table.get s.trie q = none) :
    insertEdge s (.node q) x = s.raise .dictMiss (q.setWidth 32) := by
  simp [insertEdge, unboundParent, hq]

theorem unboundParent_of_bound {t : Table TrieEntry} (hp : ∀ q, p = .node q → (Table.get t q).isSome) :
    unboundParent t p = none := by
  cases p with
  | root => rfl
  | node q => exact if_pos (hp q rfl)

theorem insertEdge_of_edge {c : Code} (hp : ∀ q, p = .node q → (Table.get s.trie q).isSome)
    (hc : child s.trie p x = some c) : insertEdge s p x = s.raise .dictDup (c.setWidth 32) := by
  simp [insertEdge, unboundParent_of_bound hp, hc]

theorem insertEdge_of_bound (hp : ∀ q, p = .node q → (Table.get s.trie q).isSome) (hc : child s.trie p x = none)
    (hb : (Table.get s.trie (codeOf s.lc)).isSome) : insertEdge s p x = s.raise .codeBound s.lc := by
  simp [insertEdge, unboundParent_of_bound hp, hc, hb]

theorem insertEdge_of_free (hp : ∀ q, p = .node q → (Table.get s.trie q).isSome) (hc : child s.trie p x = none)
    (hf : Table.get s.trie (codeOf s.lc) = none) :
    insertEdge s p x = { s with trie := Table.set s.trie (codeOf s.lc) { parent := p, sym := x } }.complete := by
  simp [insertEdge, unboundParent_of_bound hp, hc, hf]

end

section

variable {c : Config} {t : Table TrieEntry} {p : NodeRef} {x : Sym}

/-- An edge that no entry stands for does not exist (10_state.md R43). -/
theorem TrieOk.child_eq_none (ok : TrieOk c t) (h : ∀ v, Table.get t v ≠ some { parent := p, sym := x }) :
    child t p x = none :=
  Option.eq_none_iff_forall_ne_some.mpr fun v hv => h v (ok.child_iff.mp hv)

/-- An unbound node has no children (T2 of 10_state.md R42). -/
theorem TrieOk.child_of_unbound (ok : TrieOk c t) {q : Code} (hq : Table.get t q = none) :
    child t (.node q) x = none :=
  ok.child_eq_none fun v hv => by simpa [hq] using ok.parentBound v _ q hv rfl

/-- The sequence of a code bound as a child of `p` (10_state.md R44). -/
theorem seqOf_set_new {v : Code} {xs : List Sym} (hv : Table.get t v = none) (hp : NodeSeq t p xs) :
    seqOf (Table.set t v { parent := p, sym := x }) v = some (xs ++ [x]) := by
  rcases hp with ⟨rfl, rfl⟩ | ⟨q, rfl, hq⟩
  · exact seqOf_set_new_root
  · exact seqOf_set_new_node hv hq

/-! ### The answer of `D_CHILD` (R115) -/

theorem probeResult_of_child {v : Code} (hv : child t p x = some v) : probeResult t p x = hitResult v := by
  rw [probeResult, hv]

theorem probeResult_of_no_child (hv : child t p x = none) : probeResult t p x = 0#32 := by
  rw [probeResult, hv]
  rfl

/-- The fields of a hit (10_state.md R28). -/
theorem hitResult_fields (v : Code) :
    (hitResult v).getLsbD 31 = true ∧ (hitResult v).extractLsb' 16 15 = 0#15 ∧ (hitResult v).extractLsb' 0 16 = v := by
  refine ⟨?_, hitResult_reserved v, BitVec.extractLsb'_append_eq_right⟩
  rw [hitResult, BitVec.getLsbD_append, BitVec.getLsbD_append]
  simp

end

/-- Settles O22: the checks are the rule's, the first that fails raises, and past them `BAD_ARG` is no outcome. -/
theorem operandChecksRaiseBadArg : Obligations.OperandChecksRaiseBadArg := by
  intro s i hi
  have hP := validP_iff (c := s.cfg) (v := s.lp)
  have hS := validS_iff (c := s.cfg) (v := s.ls)
  have hC := validC_iff (c := s.cfg) (v := s.lc)
  refine ⟨hP, hS, nodeP_of_pRoot, nodeP_of_not_pRoot, fun hp => ?_, fun hp hx => ?_, fun hins hp hx hc => ?_,
    fun hp hx hc => ?_⟩
  · exact exec_of_not_validP hi (mt hP.mp hp)
  · exact exec_of_not_validS hi (hP.mpr hp) (mt hS.mp hx)
  · subst hins
    exact execDInsert_of_not_validC (hP.mpr hp) (hS.mpr hx) (mt hC.mp hc)
  · have hne := exec_valid_ne_badArg hi (hP.mpr hp) (hS.mpr hx) fun hins => hC.mpr (hc hins)
    exact ⟨hne _, hne _, hne _⟩

/-- Settles O23: the step binds the edge with one table write, and the write keeps the invariants. -/
theorem insertBindsTheEdge : Obligations.InsertBindsTheEdge := by
  intro s ok hp hx hlt hne hl hparent hedge hfree
  have hc : validC s.cfg s.lc = true := validC_iff.mpr ⟨hlt, hne⟩
  obtain ⟨hcode, -, -⟩ := codeOf_toNat hl hc
  obtain ⟨hsym, hr⟩ := symOf_toNat hl hx
  refine ⟨Table.set s.trie (codeOf s.lc) { parent := nodeP s.lp, sym := symOf s.ls }, ?_,
    ok.set (hcode.trans_lt hlt) (hcode.trans_ne hne) hfree hparent hedge (hsym.trans_lt hr), hcode, hsym,
    Table.get_set_same _ _ _, fun v hv => Table.get_set_other _ _ hv, fun xs hxs => seqOf_set_new hfree hxs⟩
  rw [exec, execDInsert_of_valid hp hx hc, insertEdge_of_free hparent hedge hfree]
  rfl

/-- Settles O24: each run-time condition is met only once those before it have passed. -/
theorem insertErrorsInOrder : Obligations.InsertErrorsInOrder := by
  intro s ok hp hx hlt hne
  rw [exec, execDInsert_of_valid hp hx (validC_iff.mpr ⟨hlt, hne⟩)]
  refine ⟨fun q hq hnone => ?_, fun hparent => ⟨fun c hc => ?_, fun hnone hbound => ?_⟩⟩
  · rw [hq, insertEdge_of_unbound hnone]
    rfl
  · rw [insertEdge_of_edge hparent (ok.child_iff.mpr hc)]
    rfl
  · rw [insertEdge_of_bound hparent (ok.child_eq_none hnone) hbound]
    rfl

/-- Settles O25: the answer is the child's, and an unbound parent has none. -/
theorem childProbesOneEdge : Obligations.ChildProbesOneEdge := by
  intro s ok hp hx
  refine ⟨probeResult s.trie (nodeP s.lp) (symOf s.ls), execDChild_of_valid hp hx, fun c hc => ?_, fun hnone => ?_,
    fun q hq hnone => ?_⟩
  · rw [probeResult_of_child (ok.child_iff.mpr hc)]
    exact hitResult_fields c
  · exact probeResult_of_no_child (ok.child_eq_none hnone)
  · rw [hq]
    exact probeResult_of_no_child (ok.child_of_unbound hnone)

/-! ### What the dictionary commands leave unchanged (R110; 20_memory.md R61) -/

/-- The frame of a dictionary command's step from `s` to `t`, which may write `TRIE` only if `T`, `RESULT` only if `R`,
and `RLEN` and `SYM_IN` only if `L`. -/
structure DictFrame (T R L : Prop) (s t : State) : Prop where
  cfg : t.cfg = s.cfg
  nextCode : t.nextCode = s.nextCode
  dtab : t.dtab = s.dtab
  codeIn : t.codeIn = s.codeIn
  out : t.out = s.out
  statW : t.statW = s.statW
  wl : t.wl = s.wl
  code : t.code = s.code
  argP : t.argP = s.argP
  argS : t.argS = s.argS
  argC : t.argC = s.argC
  lcmd : t.lcmd = s.lcmd
  lp : t.lp = s.lp
  ls : t.ls = s.ls
  lc : t.lc = s.lc
  ovr : t.ovr = s.ovr
  trie : T ∨ t.trie = s.trie
  result : R ∨ t.result = s.result
  walk : L ∨ (t.rlen = s.rlen ∧ t.symIn = s.symIn)

/-- A step that changes nothing has the frame. As with `EngineFrame`, a step's proof copies a frame, `{ h with … }`, and
names only what is not as in `h`. -/
theorem DictFrame.refl (T R L : Prop) (s : State) : DictFrame T R L s s where
  cfg := rfl
  nextCode := rfl
  dtab := rfl
  codeIn := rfl
  out := rfl
  statW := rfl
  wl := rfl
  code := rfl
  argP := rfl
  argS := rfl
  argC := rfl
  lcmd := rfl
  lp := rfl
  ls := rfl
  lc := rfl
  ovr := rfl
  trie := .inr rfl
  result := .inr rfl
  walk := .inr ⟨rfl, rfl⟩

/-- If the result is a next state, the step to it has the frame. -/
def AnswersDictFrame (T R L : Prop) (s : State) (r : Result) : Prop := ∀ t, r = .next t → DictFrame T R L s t

section

variable {T R L : Prop} {s t : State}

theorem AnswersDictFrame.next (h : DictFrame T R L s t) : AnswersDictFrame T R L s (.next t) := fun _ ht => by
  cases ht
  exact h

theorem AnswersDictFrame.raise (h : DictFrame T R L s t) (x : Cause) (info : Word) :
    AnswersDictFrame T R L s (.next (t.raise x info)) := .next { h with }

/-- A walk consumes a symbol. -/
theorem DictFrame.symPop (hL : L) (s : State) : DictFrame T R L s s.symPop :=
  { DictFrame.refl T R L s with walk := .inl hL }

theorem execDSeed_dictFrame (hT : T) : AnswersDictFrame T R L s (execDSeed s) :=
  .next { DictFrame.refl T R L s with trie := .inl hT }

theorem insertEdge_dictFrame (hT : T) (p : NodeRef) (x : Sym) : DictFrame T R L s (insertEdge s p x) := by
  rcases insertEdge_cases s p x with ⟨q, -, -, hs⟩ | ⟨-, ⟨c, -, hs⟩ | ⟨-, ⟨-, hs⟩ | ⟨-, hs⟩⟩⟩ <;> rw [hs]
  · exact { DictFrame.refl T R L s with }
  · exact { DictFrame.refl T R L s with }
  · exact { DictFrame.refl T R L s with }
  · exact { DictFrame.refl T R L s with trie := .inl hT }

theorem execDInsert_dictFrame (hT : T) : AnswersDictFrame T R L s (execDInsert s) := by
  unfold execDInsert
  split_ifs
  · exact .raise (.refl T R L s) _ _
  · exact .raise (.refl T R L s) _ _
  · exact .raise (.refl T R L s) _ _
  · exact .next (insertEdge_dictFrame hT _ _)

theorem execDChild_dictFrame (hR : R) : AnswersDictFrame T R L s (execDChild s) := by
  unfold execDChild
  split_ifs
  · exact .raise (.refl T R L s) _ _
  · exact .raise (.refl T R L s) _ _
  · exact .next { DictFrame.refl T R L s with result := .inl hR }

theorem execDLookup_dictFrame : AnswersDictFrame T R L s (execDLookup s) := by
  by_cases hlc : s.lc = 0
  · rw [execDLookup_of_zero hlc]
    exact .raise (.refl T R L s) _ _
  · rw [execDLookup_of_length hlc]
    exact .next { DictFrame.refl T R L s with }

theorem execDLpm_dictFrame : AnswersDictFrame T R L s (execDLpm s) := .next { DictFrame.refl T R L s with }

theorem finishWalk_dictFrame (hR : R) (hL : L) (n : Word) : AnswersDictFrame T R L s (finishWalk s n) := by
  rcases finishWalk_cases s n with ⟨-, hs⟩ | ⟨c, -, hs⟩ <;> rw [hs]
  · exact nofun
  · exact .next { DictFrame.refl T R L s with result := .inl hR, walk := .inl hL }

theorem stepDLkp_dictFrame (hR : R) (hL : L) : AnswersDictFrame T R L s (stepDLkp s) := by
  rcases stepDLkp_cases s with ⟨-, hs⟩ | ⟨-, ⟨-, hs⟩ | ⟨x, rest, -, -, hs⟩ | ⟨x, rest, c, -, -, hs⟩⟩ <;> rw [hs]
  · exact finishWalk_dictFrame hR hL _
  · exact .raise (.refl T R L s) _ _
  · exact .raise (.symPop hL s) _ _
  · exact .next { DictFrame.symPop (T := T) (R := R) hL s with }

theorem stepDLpm_dictFrame (hR : R) (hL : L) : AnswersDictFrame T R L s (stepDLpm s) := by
  rcases stepDLpm_cases s with
    ⟨x, rest, c, -, -, hs⟩ | ⟨-, -, hs⟩ | ⟨-, -, hs⟩ | ⟨x, rest, -, -, -, hs⟩ <;> rw [hs]
  · exact .next { DictFrame.symPop (T := T) (R := R) hL s with }
  · exact finishWalk_dictFrame hR hL _
  · exact .raise (.refl T R L s) _ _
  · exact .raise (.refl T R L s) _ _

end

/-- Settles O31: each step has the frame, with the writers named by the step itself. -/
theorem dictionaryCommandsFrame : Obligations.DictionaryCommandsFrame := by
  intro s t ht
  have h : DictFrame (exec .dSeed s = .next t ∨ exec .dInsert s = .next t)
      (exec .dChild s = .next t ∨ stepDLkp s = .next t ∨ stepDLpm s = .next t)
      (stepDLkp s = .next t ∨ stepDLpm s = .next t) s t := by
    rcases ht with ht | ht | ht | ht | ht | ht | ht
    · exact execDSeed_dictFrame (.inl ht) t ht
    · exact execDInsert_dictFrame (.inr ht) t ht
    · exact execDChild_dictFrame (.inl ht) t ht
    · exact execDLookup_dictFrame t ht
    · exact execDLpm_dictFrame t ht
    · exact stepDLkp_dictFrame (.inr (.inl ht)) (.inl ht) t ht
    · exact stepDLpm_dictFrame (.inr (.inr ht)) (.inr ht) t ht
  exact ⟨h.cfg, h.nextCode, h.dtab, h.codeIn, h.out, h.statW, h.wl, h.code, h.argP, h.argS, h.argC, h.lcmd, h.lp, h.ls,
    h.lc, h.ovr, or_assoc.mp h.trie, by simpa only [or_assoc] using h.result, by simpa only [or_assoc] using h.walk⟩

/-- Settles O21: the seeded trie depends on the configuration only, which the step keeps. -/
theorem seedReplacesTheTrie : Obligations.SeedReplacesTheTrie := by
  intro s
  refine ⟨rfl, fun t ht => ?_⟩
  cases ht
  rfl

/-- Settles O26: the length is checked before `D_LOOKUP` begins, and `D_LPM` checks nothing. -/
theorem walkCommandsStart : Obligations.WalkCommandsStart :=
  fun _ => ⟨fun hlc => execDLookup_of_length hlc, fun hlc => execDLookup_of_zero hlc, rfl⟩

end Sys2Proof.Machine
end

section
/-!
The dictionary commands' walks (40_dictionary.md R112, R116 to R118): sequences and the nodes that hold them, the one
induction behind `D_LOOKUP` and `D_LPM`, and where each of the two walks stops.
-/

namespace Sys2Proof.Machine

/-! ### Nodes and the sequences they stand for (10_state.md R44) -/

section

variable {c : Config} {t : Table TrieEntry} {p : NodeRef} {h : Sym} {xs ys : List Sym}

theorem nodeSeq_root (t : Table TrieEntry) : NodeSeq t .root [] := .inl ⟨rfl, rfl⟩

theorem nodeSeq_node {v : Code} (hv : seqOf t v = some xs) : NodeSeq t (.node v) xs := .inr ⟨v, rfl, hv⟩

/-- A non-empty sequence is a code's. -/
theorem NodeSeq.exists_code (hp : NodeSeq t p xs) (hx : xs ≠ []) : ∃ v, p = .node v ∧ seqOf t v = some xs := by
  rcases hp with ⟨-, hnil⟩ | hv
  · exact absurd hnil hx
  · exact hv

theorem NodeSeq.eq_root (hp : NodeSeq t p []) : p = .root := by
  rcases hp with ⟨hroot, -⟩ | ⟨v, -, hv⟩
  · exact hroot
  · exact absurd (seqOf_length hv).1 (by simp)

theorem NodeSeq.walkAt (hp : NodeSeq t p xs) : WalkAt t p xs.length := ⟨xs, hp, rfl⟩

/-- The 32-bit counter of a walk holds its length (10_state.md R37). -/
theorem WalkAt.toNat_counter (hl : c.legal = true) (ok : TrieOk c t) {n : Nat} (hw : WalkAt t p n) :
    (BitVec.ofNat 32 n).toNat = n := by
  have hlen := hw.le_length ok
  have hmax := Config.legal_maxCode_le hl
  rw [BitVec.toNat_ofNat]
  omega

/-- The sequence of a bound entry is its parent's plus its symbol. -/
theorem TrieOk.nodeSeq_parent (ok : TrieOk c t) {v : Code} {e : TrieEntry} (hv : Table.get t v = some e) :
    ∃ zs, NodeSeq t e.parent zs ∧ seqOf t v = some (zs ++ [e.sym]) := by
  have hparent : ∃ zs, NodeSeq t e.parent zs := by
    cases hp : e.parent with
    | root => exact ⟨[], nodeSeq_root t⟩
    | node q =>
      obtain ⟨zs, hzs⟩ := Option.isSome_iff_exists.mp (ok.chainEnds q (ok.parentBound v e q hv hp))
      exact ⟨zs, nodeSeq_node hzs⟩
  obtain ⟨zs, hzs⟩ := hparent
  exact ⟨zs, hzs, ok.seq_child hzs (ok.child_iff.mpr hv)⟩

/-- The last symbol of a node's sequence labels the edge the node hangs on. -/
theorem TrieOk.exists_child_of_snoc (ok : TrieOk c t) (hp : NodeSeq t p (xs ++ [h])) :
    ∃ q v, NodeSeq t q xs ∧ child t q h = some v ∧ p = .node v := by
  obtain ⟨v, rfl, hv⟩ := hp.exists_code (by simp)
  obtain ⟨e, he⟩ := Option.isSome_iff_exists.mp (seqOf_bound hv)
  obtain ⟨zs, hzs, hseq⟩ := ok.nodeSeq_parent he
  obtain ⟨rfl, hsym⟩ := List.append_inj' (Option.some.inj (hv.symm.trans hseq)) rfl
  cases hsym
  exact ⟨e.parent, v, hzs, ok.child_iff.mpr he, rfl⟩

/-- The sequences of the nodes are closed under prefixes. -/
theorem TrieOk.exists_nodeSeq_of_append (ok : TrieOk c t) (hp : NodeSeq t p (xs ++ ys)) : ∃ q, NodeSeq t q xs := by
  induction ys using List.reverseRecOn generalizing p with
  | nil => exact ⟨p, by simpa using hp⟩
  | append_singleton ys h ih =>
    rw [← List.append_assoc] at hp
    obtain ⟨q, -, hq, -⟩ := ok.exists_child_of_snoc hp
    exact ih hq

/-- The present prefixes of a text are closed downwards (10_state.md R44). -/
theorem TrieOk.present_take (ok : TrieOk c t) {j k : Nat} (hk : Present t (xs.take k)) (h1 : 1 ≤ j) (hjk : j ≤ k) :
    Present t (xs.take j) := by
  obtain ⟨v, hv⟩ := hk
  obtain ⟨zs, hzs⟩ := List.take_prefix_take_left (l := xs) hjk
  have hne : xs.take j ≠ [] := by
    have hpos := (seqOf_length hv).1
    rw [List.length_take] at hpos
    rw [← List.length_pos_iff, List.length_take]
    omega
  obtain ⟨q, hq⟩ := ok.exists_nodeSeq_of_append (p := .node v) (nodeSeq_node (hzs ▸ hv))
  obtain ⟨w, -, hw⟩ := hq.exists_code hne
  exact ⟨w, hw⟩

/-- A symbol has no edge from a node when the node's sequence plus the symbol is not present. -/
theorem TrieOk.child_none_of_not_present (ok : TrieOk c t) (hp : NodeSeq t p xs) (hx : ¬ Present t (xs ++ [h])) :
    child t p h = none := by
  cases hc : child t p h with
  | none => rfl
  | some v => exact absurd ⟨v, ok.seq_child hp hc⟩ hx

/-- Among the prefixes of a text, if one is present, there is a longest present one (40_dictionary.md R118). -/
theorem exists_longest_present {j : Nat} (hj : j ≤ xs.length) (h : Present t (xs.take j)) :
    ∃ k v, j ≤ k ∧ k ≤ xs.length ∧ seqOf t v = some (xs.take k) ∧
      ∀ i, k < i → i ≤ xs.length → ¬ Present t (xs.take i) := by
  classical
  obtain ⟨v, hv⟩ : Present t (xs.take (Nat.findGreatest (fun i => Present t (xs.take i)) xs.length)) :=
    Nat.findGreatest_spec (P := fun i => Present t (xs.take i)) hj h
  exact ⟨_, v, Nat.le_findGreatest hj h, Nat.findGreatest_le _, hv, fun i hi hle => Nat.findGreatest_is_greatest hi hle⟩

end

/-! ### Runs of the engine (70_reset_and_hazards.md R286) -/

section

variable {s t : State} {n : Nat}

theorem engineRun_succ_of_step (hs : engineStep s = .next t) : engineRun (n + 1) s = engineRun n t := by
  rw [engineRun, hs]

theorem engineRun_one (s : State) : engineRun 1 s = engineStep s := by
  rw [engineRun]
  cases engineStep s <;> rfl

/-- The last step of a run. -/
theorem engineRun_succ_of_run (hr : engineRun n s = .next t) : engineRun (n + 1) s = engineStep t := by
  induction n generalizing s with
  | zero =>
    cases hr
    exact engineRun_one t
  | succ n ih =>
    cases hs : engineStep s with
    | next u =>
      rw [engineRun_succ_of_step hs] at hr ⊢
      exact ih hr
    | fault f => simp [engineRun, hs] at hr
    | refused r => simp [engineRun, hs] at hr

/-- THE WALK. Whatever else its states `f p n rest` hold, a walk that goes one edge a step (for fewer than `m` edges)
reads the sequence of a node from the root to the node, one step a symbol (40_dictionary.md R112). -/
theorem TrieOk.engineRun_walk {c : Config} {T : Table TrieEntry} (ok : TrieOk c T) {m : Nat}
    {f : NodeRef → Nat → List Sym → State}
    (hstep : ∀ p n h rest v, n < m → child T p h = some v →
      engineStep (f p n (h :: rest)) = .next (f (.node v) (n + 1) rest))
    {p : NodeRef} {ys : List Sym} (rest : List Sym) (hp : NodeSeq T p ys) (hm : ys.length ≤ m) :
    engineRun ys.length (f .root 0 (ys ++ rest)) = .next (f p ys.length rest) := by
  induction ys using List.reverseRecOn generalizing p rest with
  | nil =>
    rw [hp.eq_root]
    rfl
  | append_singleton ys h ih =>
    obtain ⟨q, v, hq, hv, rfl⟩ := ok.exists_child_of_snoc hp
    simp only [List.length_append, List.length_singleton, List.append_assoc, List.singleton_append] at hm ⊢
    rw [engineRun_succ_of_run (ih (h :: rest) hq (by omega))]
    exact hstep q ys.length h rest v hm hv

end

/-! ### `D_LOOKUP` (40_dictionary.md R116) -/

section

variable {s : State} {p : NodeRef} {n : Nat} {h : Sym} {v : Code} {ys rest : List Sym}

/-- `D_LOOKUP`, begun in `s`, when its walk has read `n` symbols, has come to `p` and has `rest` before it. -/
def State.lookupAt (s : State) (p : NodeRef) (n : Nat) (rest : List Sym) : State :=
  { s with cur := p, cnt := BitVec.ofNat 32 n, symIn := rest, estate := .dLkp }

theorem ofNat_ne_of_lt_toNat {w : Word} (hn : n < w.toNat) : BitVec.ofNat 32 n ≠ w := by
  rintro rfl
  rw [BitVec.toNat_ofNat] at hn
  exact absurd hn (Nat.mod_le _ _).not_gt

/-- Below the length asked for, an edge takes the walk on. -/
theorem engineStep_lookupAt_go (hn : n < s.lc.toNat) (hc : child s.trie p h = some v) :
    engineStep (s.lookupAt p n (h :: rest)) = .next (s.lookupAt (.node v) (n + 1) rest) := by
  have hne : BitVec.ofNat 32 n ≠ s.lc := ofNat_ne_of_lt_toNat hn
  simp [engineStep, State.lookupAt, stepDLkp, State.symPeek, State.walkTo, State.symPop, hne, hc, BitVec.ofNat_add]

/-- A symbol without an edge is consumed and reported by its index. -/
theorem engineStep_lookupAt_miss (hn : n < s.lc.toNat) (hc : child s.trie p h = none) :
    engineStep (s.lookupAt p n (h :: rest)) =
      .next ((s.lookupAt p n rest).raise .dictMiss (BitVec.ofNat 32 n)) := by
  have hne : BitVec.ofNat 32 n ≠ s.lc := ofNat_ne_of_lt_toNat hn
  simp [engineStep, State.lookupAt, stepDLkp, State.symPeek, State.symPop, hne, hc]

/-- The end of the input is reported by the number of symbols read. -/
theorem engineStep_lookupAt_end (hn : n < s.lc.toNat) :
    engineStep (s.lookupAt p n []) = .next ((s.lookupAt p n []).raise .inEnd (BitVec.ofNat 32 n)) := by
  have hne : BitVec.ofNat 32 n ≠ s.lc := ofNat_ne_of_lt_toNat hn
  simp [engineStep, State.lookupAt, stepDLkp, State.symPeek, hne]

/-- At the length asked for, the walk is a hit. -/
theorem engineStep_lookupAt_hit (hn : s.lc.toNat = n) :
    engineStep (s.lookupAt (.node v) n rest) =
      .next { s.lookupAt (.node v) n rest with result := hitResult v, rlen := s.lc }.complete := by
  subst hn
  simp [engineStep, State.lookupAt, stepDLkp, finishWalk]

/-- `D_LOOKUP` comes to every node whose sequence the input begins with, up to the length asked for. -/
theorem engineRun_lookup {c : Config} (ok : TrieOk c s.trie) (he : s.estate = .decode)
    (hcmd : s.lcmd = encode .dLookup) (hlc : s.lc ≠ 0) (hin : s.symIn = ys ++ rest) (hp : NodeSeq s.trie p ys)
    (hlen : ys.length ≤ s.lc.toNat) : engineRun (ys.length + 1) s = .next (s.lookupAt p ys.length rest) := by
  have hfirst : engineStep s = .next (s.lookupAt .root 0 (ys ++ rest)) := by
    rw [engineStep_of_decode_ok he (hcmd ▸ decodeOfEncode .dLookup rfl), ← hin]
    exact execDLookup_of_length hlc
  rw [engineRun_succ_of_step hfirst]
  exact ok.engineRun_walk (f := s.lookupAt) (fun _ _ _ _ _ hn hc => engineStep_lookupAt_go hn hc) rest hp hlen

end

/-- Settles O27: the walk comes to the code's node after `L` symbols, and its next step is the hit. -/
theorem lookupFindsPresentSequence : Obligations.LookupFindsPresentSequence := by
  intro s xs rest c ok _ he hcmd hin hlc hseq
  have hpos : s.lc ≠ 0 := by
    intro h0
    have := (seqOf_length hseq).1
    simp [h0] at hlc
    omega
  rw [engineRun_succ_of_run (engineRun_lookup ok he hcmd hpos hin (nodeSeq_node hseq) hlc.ge),
    engineStep_lookupAt_hit hlc, State.lookupAt, ← hlc, BitVec.ofNat_toNat, BitVec.setWidth_eq]
  rfl

/-- Settles O28: the walk comes to the node reached, and its next step finds no edge, or no symbol. -/
theorem lookupReportsWhereItFails : Obligations.LookupReportsWhereItFails := by
  intro s ys rest p ok _ he hcmd hlen hp hin
  have hpos : s.lc ≠ 0 := fun h0 => by simp [h0] at hlen
  rw [engineRun_succ_of_run (engineRun_lookup ok he hcmd hpos hin hp hlen.le)]
  constructor
  · rintro h rest' rfl hc
    exact engineStep_lookupAt_miss hlen hc
  · rintro rfl
    exact engineStep_lookupAt_end hlen

/-! ### `D_LPM` (40_dictionary.md R117, R118) -/

section

variable {s : State} {p : NodeRef} {n : Nat} {h : Sym} {v : Code} {ys rest : List Sym}

/-- `D_LPM`, begun in `s`, when its walk has read `n` symbols, has come to `p` and has `rest` before it. -/
def State.lpmAt (s : State) (p : NodeRef) (n : Nat) (rest : List Sym) : State :=
  { s with cur := p, len := BitVec.ofNat 32 n, symIn := rest, estate := .dLpm }

theorem engineStep_lpmAt_go (hc : child s.trie p h = some v) :
    engineStep (s.lpmAt p n (h :: rest)) = .next (s.lpmAt (.node v) (n + 1) rest) := by
  simp [engineStep, State.lpmAt, stepDLpm, State.walkStep, State.symPeek, State.walkTo, State.symPop, hc,
    BitVec.ofNat_add]

/-- A stop at the root is the end of an empty input, or a first symbol that is not present. -/
theorem engineStep_lpmAt_end : engineStep (s.lpmAt .root 0 []) = .next ((s.lpmAt .root 0 []).raise .inEnd 0) := by
  simp [engineStep, State.lpmAt, stepDLpm, State.walkStep, State.symPeek]

theorem engineStep_lpmAt_miss (hc : child s.trie .root h = none) :
    engineStep (s.lpmAt .root 0 (h :: rest)) =
      .next ((s.lpmAt .root 0 (h :: rest)).raise .dictMiss (h.setWidth 32)) := by
  simp [engineStep, State.lpmAt, stepDLpm, State.walkStep, State.symPeek, hc]

/-- A stop past the root is a hit that consumes nothing more. -/
theorem engineStep_lpmAt_hit (hn : BitVec.ofNat 32 n ≠ 0#32)
    (hstop : ∀ h, rest.head? = some h → child s.trie (.node v) h = none) :
    engineStep (s.lpmAt (.node v) n rest) =
      .next { s.lpmAt (.node v) n rest with result := hitResult v, rlen := BitVec.ofNat 32 n }.complete := by
  cases rest with
  | nil => simp [engineStep, State.lpmAt, stepDLpm, State.walkStep, State.symPeek, finishWalk, hn]
  | cons h rest =>
    simp [engineStep, State.lpmAt, stepDLpm, State.walkStep, State.symPeek, finishWalk, hn, hstop h rfl]

/-- `D_LPM` comes to every node whose sequence the input begins with. -/
theorem engineRun_lpm {c : Config} (ok : TrieOk c s.trie) (he : s.estate = .decode) (hcmd : s.lcmd = encode .dLpm)
    (hin : s.symIn = ys ++ rest) (hp : NodeSeq s.trie p ys) :
    engineRun (ys.length + 1) s = .next (s.lpmAt p ys.length rest) := by
  have hfirst : engineStep s = .next (s.lpmAt .root 0 (ys ++ rest)) := by
    rw [engineStep_of_decode_ok he (hcmd ▸ decodeOfEncode .dLpm rfl), ← hin]
    rfl
  rw [engineRun_succ_of_step hfirst]
  exact ok.engineRun_walk (f := s.lpmAt) (fun _ _ _ _ _ _ hc => engineStep_lpmAt_go hc) rest hp le_rfl

/-- The symbol after the longest of the present prefixes has no edge from the node reached. -/
theorem TrieOk.child_none_of_longest {c : Config} {t : Table TrieEntry} (ok : TrieOk c t) {xs : List Sym} {k : Nat}
    (hseq : seqOf t v = some (xs.take k)) (hmax : ∀ j, k < j → j ≤ xs.length → ¬ Present t (xs.take j)) :
    ∀ h, (xs.drop k).head? = some h → child t (.node v) h = none := by
  intro h hh
  rw [List.head?_drop] at hh
  have hlt : k < xs.length := (List.getElem?_eq_some_iff.mp hh).1
  have hnext : xs.take (k + 1) = xs.take k ++ [h] := by rw [List.take_add_one, hh]; rfl
  exact ok.child_none_of_not_present (nodeSeq_node hseq) (hnext ▸ hmax (k + 1) (by omega) hlt)

end

/-- Settles O29: the walk comes to the node of the longest of the present prefixes and cannot go on from it. -/
theorem lpmFindsLongestPresentPrefix : Obligations.LpmFindsLongestPresentPrefix := by
  intro s k c ok hl he hcmd hk hseq hmax
  have hlen : (s.symIn.take k).length = k := List.length_take_of_le hk
  have hrun := engineRun_lpm ok he hcmd (List.take_append_drop k s.symIn).symm (nodeSeq_node hseq)
  have hcount := (nodeSeq_node hseq).walkAt.toNat_counter hl ok
  have hpos := (seqOf_length hseq).1
  rw [hlen] at hrun hcount hpos
  have hne : BitVec.ofNat 32 k ≠ 0#32 := fun h0 => by
    rw [h0] at hcount
    exact absurd hcount (Nat.ne_of_lt hpos)
  refine ⟨?_, fun j h1 hjk => ok.present_take ⟨c, hseq⟩ h1 hjk⟩
  rw [engineRun_succ_of_run hrun, engineStep_lpmAt_hit hne (ok.child_none_of_longest hseq hmax)]
  rfl

/-- Settles O30: the walk stops at the root when no prefixes are present; else O29 says where the longest ends it. -/
theorem lpmFailsOnlyWithoutPrefix : Obligations.LpmFailsOnlyWithoutPrefix := by
  intro s ok hl he hcmd
  have hroot : engineRun 1 s = .next (s.lpmAt .root 0 s.symIn) := engineRun_lpm ok he hcmd rfl (nodeSeq_root _)
  refine ⟨fun hin => ?_, fun h rest hin hnone => ?_, fun h rest hin hpre => ?_⟩
  · rw [engineRun_succ_of_run hroot, hin, engineStep_lpmAt_end, ← hin]
    rfl
  · have hc := ok.child_none_of_not_present (nodeSeq_root _) hnone
    rw [engineRun_succ_of_run hroot, hin, engineStep_lpmAt_miss hc, ← hin]
    rfl
  · have hone : Present s.trie (s.symIn.take 1) := by
      rw [hin]
      rcases hpre with hpre | ⟨hlt, hlit⟩
      · exact hpre
      · exact ⟨litCode h, seqOf_root (hlit h hlt)⟩
    obtain ⟨k, c, h1, hk, hseq, hmax⟩ := exists_longest_present (by simp [hin]) hone
    have hcount := (nodeSeq_node hseq).walkAt.toNat_counter hl ok
    rw [List.length_take_of_le hk] at hcount
    have hrun := (lpmFindsLongestPresentPrefix s k c ok hl he hcmd hk hseq hmax).1
    exact ⟨k, c, _, h1, hk, hseq, hmax, hrun, rfl, rfl, hcount, rfl, rfl⟩

end Sys2Proof.Machine
end

section
/-!
The compress engine (41_compress.md R150 to R162): one equation for each step of its five states, the bounded way of a
job to its successful end, the rounds of the function of R151 and what they keep, and the job as a simulation of them.
-/

namespace Sys2Proof.Machine

/-! ### One step of each state (R153 to R157) -/

section

variable {s : State} {m v : Code} {h : Sym} {rest : List Sym}

theorem engineStep_cInit (he : s.estate = .cInit) :
    engineStep s =
      .next { s with trie := seedTrie s.cfg, nextCode := BitVec.ofNat 17 (s.cfg.r + 1), estate := .cScan } := by
  rw [engineStep, he]
  rfl

theorem engineStep_cScan_nil (he : s.estate = .cScan) (hin : s.symIn = []) :
    engineStep s = .next { s with estate := .cEof } := by
  simp only [engineStep, he, stepCScan, State.symPeek, hin, List.head?_nil]

theorem engineStep_cScan_cons (he : s.estate = .cScan) (hin : s.symIn = h :: rest) :
    engineStep s = .next { s with symIn := rest, cur := .node (litCode h), estate := .cWalk } := by
  simp only [engineStep, he, stepCScan, State.symPeek, State.symPop, hin, List.head?_cons, List.tail_cons]

theorem engineStep_cWalk_end (he : s.estate = .cWalk) (hm : s.cur = .node m) (hin : s.symIn = []) :
    engineStep s = .next { s with out := s.out ++ [.code m s.wl.toNat], estate := .cEof } := by
  simp only [engineStep, he, stepCWalk, hm, State.walkStep, State.symPeek, hin, List.head?_nil, State.codeWrite_eq,
    State.emit]

theorem engineStep_cWalk_go (he : s.estate = .cWalk) (hm : s.cur = .node m) (hin : s.symIn = h :: rest)
    (hc : child s.trie (.node m) h = some v) :
    engineStep s = .next { s with symIn := rest, cur := .node v } := by
  simp only [engineStep, he, stepCWalk, hm, State.walkStep, State.symPeek, hin, List.head?_cons, hc, State.walkTo,
    State.symPop, List.tail_cons]

theorem engineStep_cWalk_stop (he : s.estate = .cWalk) (hm : s.cur = .node m) (hin : s.symIn = h :: rest)
    (hc : child s.trie (.node m) h = none) :
    engineStep s = .next { growTrie (s.emit [.code m s.wl.toNat]) m h with estate := .cScan } := by
  simp only [engineStep, he, stepCWalk, hm, State.walkStep, State.symPeek, hin, List.head?_cons, hc,
    State.codeWrite_eq]

theorem engineStep_cEof (he : s.estate = .cEof) :
    engineStep s =
      .next { s with out := s.out ++ [.code (BitVec.ofNat 16 s.cfg.eofCode) s.wl.toNat], estate := .cClose } := by
  rw [engineStep, he]
  rfl

theorem engineStep_cClose (he : s.estate = .cClose) :
    engineStep s = .next ({ s with out := s.out ++ [.close] } : State).ended := by
  rw [engineStep, he]
  rfl

theorem growTrie_of_room (hn : s.nextCode.toNat < s.cfg.maxCode) :
    growTrie s m h = { s with
      trie := Table.set s.trie (codeOfNext s.nextCode) { parent := .node m, sym := h }, nextCode := s.nextCode + 1 } :=
  if_pos (decide_eq_true hn)

theorem growTrie_of_full (hn : s.cfg.maxCode ≤ s.nextCode.toNat) : growTrie s m h = s :=
  if_neg (by simpa [hasRoom] using hn)

end

/-- `EOF_CODE` is a code (30_encoding.md R88). -/
theorem toNat_eofCode {c : Config} (hl : c.legal = true) : (BitVec.ofNat 16 c.eofCode : Code).toNat = c.eofCode := by
  have := Config.legal_r_le hl
  rw [BitVec.toNat_ofNat, Config.eofCode]
  omega

/-- Settles O33: the table C_INIT writes is the seeded one. -/
theorem compressInitSeeds : Obligations.CompressInitSeeds := fun s hl he =>
  ⟨seedTrie s.cfg, engineStep_cInit he, toNat_firstGrowthCode hl, get_seedTrie hl⟩

/-- Settles O34: a running job keeps the literals seeded, so the literal of a symbol below `R` is a child of `ROOT`. -/
theorem compressScanStartsMatch : Obligations.CompressScanStartsMatch := by
  refine fun s he => ⟨engineStep_cScan_nil he, fun h rest hin => ⟨engineStep_cScan_cons he hin, fun hinv => ?_⟩⟩
  obtain ⟨-, -, hlit⟩ := (jobOk_cScan he).mp hinv.job
  exact hinv.trie.child_iff.mpr (hlit h (hinv.symIn h (by simp [hin])))

/-- Settles O36: `EOF_CODE` fits a code register in every legal configuration. -/
theorem compressEndsWithEofThenClose : Obligations.CompressEndsWithEofThenClose := fun _ hl =>
  ⟨fun he => ⟨_, engineStep_cEof he, toNat_eofCode hl⟩, engineStep_cClose⟩

/-- Settles O35: the edges of the trie are its entries, and the code the counter names is fresh. -/
theorem compressWalkExtendsOrEmits : Obligations.CompressWalkExtendsOrEmits := by
  intro s m hinv he hm
  obtain ⟨-, hg, -, m', hm', hbound⟩ := (jobOk_cWalk he).mp hinv.job
  obtain rfl : m' = m := NodeRef.node.inj (hm'.symm.trans hm)
  refine ⟨engineStep_cWalk_end he hm, fun h rest c hin hc => engineStep_cWalk_go he hm hin (hinv.trie.child_iff.mpr hc),
    fun h rest hin hno => ?_⟩
  have hc := hinv.trie.child_eq_none hno
  rw [engineStep_cWalk_stop he hm hin hc]
  refine ⟨fun hroom => ?_, fun hfull => ?_⟩
  · have hmax := Config.legal_maxCode_le hinv.legal
    have hnext := codeOfNext_toNat (n := s.nextCode) (by omega)
    obtain ⟨hlt, hfree, heof, -⟩ := hg.codeOfNext_fresh hinv.legal hroom
    have hiff : ∀ u : Code, u = codeOfNext s.nextCode ↔ u.toNat = s.nextCode.toNat := fun u => by
      rw [← hnext, BitVec.toNat_inj]
    refine ⟨Table.set s.trie (codeOfNext s.nextCode) { parent := .node m', sym := h }, ?_, next_succ_toNat (by omega),
      hinv.trie.set hlt heof hfree (fun q hq => ?_) hc (hinv.symIn h (by simp [hin])), fun u hu => ?_, fun u => ?_⟩
    · rw [growTrie_of_room (s := s.emit _) hroom]
      rfl
    · cases hq
      exact hbound
    · rw [(hiff u).mpr hu, hfree]
    · simp only [Table.get_set, hiff]
  · rw [growTrie_of_full (s := s.emit _) hfull.ge]
    rfl

/-! ### Every job comes to its successful end (R160) -/

section

variable {s : State}

/-- `ESTATE` is one of the five states of the compress machine. -/
def EState.Compressing (e : EState) : Prop := e = .cInit ∨ e = .cScan ∨ e = .cWalk ∨ e = .cEof ∨ e = .cClose

/-- The steps a state of the compress machine has before it at most, its input apart. -/
def EState.compressRank : EState → Nat
  | .cInit => 4
  | .cWalk => 4
  | .cScan => 3
  | .cEof => 2
  | .cClose => 1
  | _ => 0

/-- The steps a compress job has before it at most: two for each symbol, and those of its state. -/
def State.compressFuel (s : State) : Nat := 2 * s.symIn.length + s.estate.compressRank

@[simp] theorem growTrie_symIn (s : State) (m : Code) (h : Sym) : (growTrie s m h).symIn = s.symIn := by
  unfold growTrie
  split <;> rfl

/-- A step of the compress machine goes on in it with less before it, or ends the job well. -/
theorem Inv.engineStep_compressing (hinv : Inv s) (hs : s.estate.Compressing) :
    ∃ t, engineStep s = .next t ∧ Inv t ∧
      ((t.estate.Compressing ∧ t.compressFuel < s.compressFuel) ∨ (t.estate = .idle ∧ t.done = true)) := by
  obtain ⟨t, ht, hinvt⟩ := hinv.engineStep_answers
  refine ⟨t, ht, hinvt, ?_⟩
  rcases hs with he | he | he | he | he
  · cases (engineStep_cInit he).symm.trans ht
    exact .inl ⟨.inr (.inl rfl), by simp +arith [State.compressFuel, EState.compressRank, he]⟩
  · cases hin : s.symIn with
    | nil =>
      cases (engineStep_cScan_nil he hin).symm.trans ht
      exact .inl ⟨by simp [EState.Compressing], by simp +arith [State.compressFuel, EState.compressRank, he]⟩
    | cons h rest =>
      cases (engineStep_cScan_cons he hin).symm.trans ht
      exact .inl ⟨by simp [EState.Compressing], by simp +arith [State.compressFuel, EState.compressRank, he, hin]⟩
  · obtain ⟨-, -, -, m, hm, -⟩ := (jobOk_cWalk he).mp hinv.job
    left
    cases hin : s.symIn with
    | nil =>
      cases (engineStep_cWalk_end he hm hin).symm.trans ht
      exact ⟨by simp [EState.Compressing], by simp +arith [State.compressFuel, EState.compressRank, he]⟩
    | cons h rest =>
      cases hc : child s.trie (.node m) h with
      | none =>
        cases (engineStep_cWalk_stop he hm hin hc).symm.trans ht
        exact ⟨by simp [EState.Compressing], by simp +arith [State.compressFuel, EState.compressRank, he]⟩
      | some v =>
        cases (engineStep_cWalk_go he hm hin hc).symm.trans ht
        exact ⟨by simp [EState.Compressing, he], by simp +arith [State.compressFuel, he, hin]⟩
  · cases (engineStep_cEof he).symm.trans ht
    exact .inl ⟨by simp [EState.Compressing], by simp +arith [State.compressFuel, EState.compressRank, he]⟩
  · cases (engineStep_cClose he).symm.trans ht
    exact .inr ⟨rfl, rfl⟩

theorem Inv.compressing_no_error (hinv : Inv s) (hs : s.estate.Compressing) : s.err = false := by
  have hne : s.estate ≠ .idle ∧ s.estate ≠ .decode := by rcases hs with he | he | he | he | he <;> simp [he]
  obtain ⟨-, herr, -⟩ := hinv.running rfl hne
  exact herr

end

/-- Settles O39, by induction on the steps the job has before it at most. -/
theorem compressNeverRaises : Obligations.CompressNeverRaises := by
  intro s hinv hs
  induction hf : s.compressFuel using Nat.strong_induction_on generalizing s with
  | _ f ih =>
    have herr := hinv.compressing_no_error hs
    obtain ⟨t, ht, hinvt, ⟨hst, hlt⟩ | ⟨hidle, hdone⟩⟩ := hinv.engineStep_compressing hs
    · obtain ⟨n, z, hrun, hzi, hzd, hze, hall⟩ := ih _ (hf ▸ hlt) t hinvt hst rfl
      refine ⟨n + 1, z, (engineRun_succ_of_step ht).trans hrun, hzi, hzd, hze, fun m u hm hu => ?_⟩
      cases m with
      | zero => cases hu; exact herr
      | succ m => exact hall m u (by omega) ((engineRun_succ_of_step ht).symm.trans hu)
    · have herrt := hinvt.status.doneNotErr hdone
      refine ⟨1, t, (engineRun_one s).trans ht, hidle, hdone, herrt, fun m u hm hu => ?_⟩
      interval_cases m
      · cases hu; exact herr
      · cases ((engineRun_one s).trans ht).symm.trans hu; exact herrt

/-! ### The search of R151 for the longest of the present prefixes -/

section

variable {t : Table TrieEntry}

theorem codeOfSeq_cases (t : Table TrieEntry) (xs : List Sym) :
    (codeOfSeq t xs = none ∧ ¬ Present t xs) ∨ ∃ v, codeOfSeq t xs = some v ∧ seqOf t v = some xs := by
  unfold codeOfSeq
  cases hf : t.find? fun e => seqOf t e.1 == some xs with
  | none =>
    refine .inl ⟨rfl, fun ⟨v, hv⟩ => ?_⟩
    obtain ⟨e, he⟩ := Option.isSome_iff_exists.mp (seqOf_bound hv)
    exact List.find?_eq_none.mp hf _ (Table.mem_of_get he) (by simp [hv])
  | some e => exact .inr ⟨e.1, rfl, by simpa using List.find?_some hf⟩

/-- Among the prefixes of at most `n` symbols none is present, or the search finds the longest of those that are. -/
theorem longestPresent_cases (t : Table TrieEntry) (text : List Sym) (n : Nat) :
    (longestPresent t text n = none ∧ ∀ j, 1 ≤ j → j ≤ n → ¬ Present t (text.take j)) ∨
    ∃ v k, longestPresent t text n = some (v, k) ∧ k ≤ n ∧ seqOf t v = some (text.take k) ∧
      ∀ j, k < j → j ≤ n → ¬ Present t (text.take j) := by
  induction n with
  | zero => exact .inl ⟨rfl, fun j h1 h0 => absurd (h1.trans h0) (by simp)⟩
  | succ n ih =>
    rcases codeOfSeq_cases t (text.take (n + 1)) with ⟨hnone, hno⟩ | ⟨v, hsome, hseq⟩
    · have hbelow : ∀ j, j ≤ n + 1 → (j ≤ n → ¬ Present t (text.take j)) → ¬ Present t (text.take j) := by
        intro j hj hj'
        rcases Nat.le_succ_iff.mp hj with hle | rfl
        · exact hj' hle
        · exact hno
      simp only [longestPresent, hnone]
      rcases ih with ⟨hlp, hall⟩ | ⟨v, k, hlp, hk, hseq, hmax⟩
      · exact .inl ⟨hlp, fun j h1 hj => hbelow j hj (hall j h1)⟩
      · exact .inr ⟨v, k, hlp, by omega, hseq, fun j hkj hj => hbelow j hj (hmax j hkj)⟩
    · simp only [longestPresent, hsome]
      exact .inr ⟨v, n + 1, rfl, le_rfl, hseq, fun j hkj hj => absurd hkj (by omega)⟩

end

/-! ### The rounds of `compress(text)` (R151) -/

/-- A round writes the code of its match. -/
def CompressResult.emit (r : CompressResult) (v : Code) : CompressResult := { r with codes := r.codes ++ [v] }

/-- The result of a codec job before its first round (R151; 10_state.md R45). -/
def CompressResult.seeded (c : Config) : CompressResult := { codes := [], trie := seedTrie c, next := c.r + 1 }

/-- The rounds of R151 that take `r` to `r'` and read `text`: each matches the sequence of a code; the last one's match
ends the text, another one's ends before a symbol without an edge, with which the trie grows. -/
inductive CompressRounds (c : Config) : List Sym → CompressResult → CompressResult → Prop where
  | last {text : List Sym} {r : CompressResult} {v : Code} (hseq : seqOf r.trie v = some text) :
      CompressRounds c text r (r.emit v)
  | more {ys rest : List Sym} {r r' : CompressResult} {v : Code} {h : Sym} (hseq : seqOf r.trie v = some ys)
      (hc : child r.trie (.node v) h = none) (hh : h.toNat < c.r)
      (next : CompressRounds c (h :: rest) (refGrow c (r.emit v) v h) r') : CompressRounds c (ys ++ h :: rest) r r'

/-- What every round of R151 keeps: the tables of a codec job, and which codes are written (30_encoding.md R89). -/
structure CompressOk (c : Config) (r : CompressResult) : Prop where
  trie : TrieOk c r.trie
  grown : GrownTo c r.trie r.next
  literals : LiteralsSeeded c r.trie
  codes : ∀ v ∈ r.codes, v.toNat < c.maxCode ∧ v.toNat ≠ c.eofCode

section

variable {c : Config} {r r' : CompressResult} {text : List Sym} {v : Code} {h : Sym}

theorem CompressResult.length_codes_emit : (r.emit v).codes.length = r.codes.length + 1 := List.length_append

@[simp] theorem CompressResult.emit_next : (r.emit v).next = r.next := rfl

theorem refGrow_of_room (hn : r.next < c.maxCode) :
    refGrow c r v h = { r with
      trie := Table.set r.trie (BitVec.ofNat 16 r.next) { parent := .node v, sym := h }, next := r.next + 1 } :=
  if_pos hn

theorem refGrow_of_full (hn : c.maxCode ≤ r.next) : refGrow c r v h = r := if_neg hn.not_gt

@[simp] theorem refGrow_codes : (refGrow c r v h).codes = r.codes := by
  unfold refGrow
  split <;> rfl

/-- Growth counts up to `MAX_CODE` (R159). -/
theorem refGrow_next (hn : r.next ≤ c.maxCode) : (refGrow c r v h).next = min c.maxCode (r.next + 1) := by
  rcases hn.lt_or_eq with hroom | hfull
  · rw [refGrow_of_room hroom, Nat.min_eq_right hroom]
  · rw [refGrow_of_full hfull.ge, hfull, Nat.min_eq_left (Nat.le_succ _)]

/-- The counter of a codec job fits its 17 bits (00_scope.md R11). -/
theorem GrownTo.lt_two_pow {α : Type} {t : Table α} {n : Nat} (hl : c.legal = true) (hg : GrownTo c t n) : n < 2 ^ 17 :=
  hg.le_maxCode.trans_lt ((Config.legal_maxCode_le hl).trans_lt (by decide))

theorem CompressOk.seeded (hl : c.legal = true) : CompressOk c (CompressResult.seeded c) where
  trie := TrieOk.seed hl
  grown := GrownTo.seedTrie hl
  literals := LiteralsSeeded.seed hl
  codes := by simp [CompressResult.seeded]

/-- The code of a match is a bound one, so neither `EOF_CODE` nor beyond the table (R159). -/
theorem CompressOk.emit (ok : CompressOk c r) (hv : (Table.get r.trie v).isSome) : CompressOk c (r.emit v) where
  trie := ok.trie
  grown := ok.grown
  literals := ok.literals
  codes := by
    intro u hu
    rcases List.mem_append.mp hu with hu | hu
    · exact ok.codes u hu
    · rw [List.mem_singleton.mp hu]
      exact ⟨Table.get_lt ok.trie.wf hv, ok.trie.eofUnbound v hv⟩

theorem CompressOk.grow (hl : c.legal = true) (ok : CompressOk c r) (hv : (Table.get r.trie v).isSome)
    (hc : child r.trie (.node v) h = none) (hh : h.toNat < c.r) : CompressOk c (refGrow c r v h) := by
  rcases ok.grown.le_maxCode.lt_or_eq with hroom | hfull
  · have hmax := Config.legal_maxCode_le hl
    have hnext : (BitVec.ofNat 16 r.next : Code).toNat = r.next := by
      rw [BitVec.toNat_ofNat]
      omega
    obtain ⟨hfree, heof⟩ := ok.grown.next_free hnext
    obtain ⟨hfirst, -, -⟩ := ok.grown
    rw [refGrow_of_room hroom]
    exact
      { trie := ok.trie.set (by omega) heof hfree (fun q hq => by cases hq; exact hv) hc hh
        grown := ok.grown.set hroom hnext _
        literals := ok.literals.set (by omega)
        codes := ok.codes }
  · rw [refGrow_of_full hfull.ge]
    exact ok

/-- One whole round that is not the last. -/
theorem CompressOk.round (hl : c.legal = true) (ok : CompressOk c r) {ys : List Sym} (hseq : seqOf r.trie v = some ys)
    (hc : child r.trie (.node v) h = none) (hh : h.toNat < c.r) :
    CompressOk c (refGrow c (r.emit v) v h) :=
  (ok.emit (seqOf_bound hseq)).grow hl (seqOf_bound hseq) hc hh

/-- The loop of R151 runs in rounds: each symbol is a literal, so every search finds a match. -/
theorem CompressOk.rounds_refCompressLoop (hl : c.legal = true) {fuel : Nat} (ok : CompressOk c r) (hne : text ≠ [])
    (hx : ∀ x ∈ text, x.toNat < c.r) (hf : text.length ≤ fuel) :
    CompressRounds c text r (refCompressLoop c fuel text r) := by
  induction fuel generalizing text r with
  | zero => exact absurd (List.length_eq_zero_iff.mp (Nat.le_zero.mp hf)) hne
  | succ fuel ih =>
    rcases longestPresent_cases r.trie text text.length with ⟨-, hno⟩ | ⟨v, k, hlp, hk, hseq, hmax⟩
    · obtain ⟨x, xs, rfl⟩ := List.exists_cons_of_ne_nil hne
      exact absurd ⟨litCode x, seqOf_root (ok.literals x (hx x (by simp)))⟩ (hno 1 le_rfl (by simp))
    · have hpos := (seqOf_length hseq).1
      have hstop := ok.trie.child_none_of_longest hseq hmax
      have htext := List.take_append_drop k text
      simp only [refCompressLoop, hlp]
      cases hd : text.drop k with
      | nil =>
        rw [hd, List.append_nil] at htext
        exact .last (htext ▸ hseq)
      | cons h rest =>
        have hmem : ∀ x ∈ h :: rest, x.toNat < c.r := fun x hm => hx x (List.mem_of_mem_drop (hd ▸ hm))
        have hlen : (h :: rest).length ≤ fuel := by
          rw [← hd, List.length_drop]
          rw [List.length_take] at hpos
          omega
        have hc := hstop h (by rw [hd]; rfl)
        have hh := hmem h (by simp)
        have hnext := ih (ok.round hl hseq hc hh) (by simp) hmem hlen
        rw [← htext, hd]
        exact .more hseq hc hh hnext

theorem CompressRounds.ok (hr : CompressRounds c text r r') (hl : c.legal = true) (ok : CompressOk c r) :
    CompressOk c r' := by
  induction hr with
  | last hseq => exact ok.emit (seqOf_bound hseq)
  | more hseq hc hh _ ih => exact ih (ok.round hl hseq hc hh)

/-- The counter after the last round is one behind the codes written, for the last match binds nothing (R159). -/
theorem CompressRounds.next_eq (hr : CompressRounds c text r r')
    (hn : r.next = min c.maxCode (c.r + 1 + r.codes.length)) : r'.next = min c.maxCode (c.r + r'.codes.length) := by
  induction hr with
  | last hseq =>
    rw [CompressResult.emit_next, CompressResult.length_codes_emit]
    omega
  | more hseq hc hh _ ih =>
    refine ih ?_
    rw [refGrow_next (by rw [CompressResult.emit_next]; omega), refGrow_codes, CompressResult.emit_next,
      CompressResult.length_codes_emit]
    omega

end

/-- Settles O38: the loop runs in rounds, which keep the tables and count the codes; on empty input there is none. -/
theorem compressGrowthPolicy : Obligations.CompressGrowthPolicy := by
  intro c text hl hx
  have hmax := Config.legal_r_lt hl
  have ok := CompressOk.seeded hl
  by_cases hne : text = []
  · subst hne
    exact ⟨⟨[], rfl, by simp, rfl⟩, ok.trie, ok.grown⟩
  · have hr := ok.rounds_refCompressLoop hl hne hx le_rfl
    have ok' := hr.ok hl ok
    have hn := hr.next_eq (by simp only [CompressResult.seeded, List.length_nil]; omega)
    exact ⟨⟨_, rfl, ok'.codes, by rw [if_neg hne]; exact hn⟩, ok'.trie, ok'.grown⟩

/-! ### The job simulates the rounds (R158) -/

section

variable {s t : State} {n m : Nat}

theorem engineRun_add_of_run (hr : engineRun n s = .next t) : engineRun (n + m) s = engineRun m t := by
  induction n generalizing s with
  | zero =>
    cases hr
    rw [Nat.zero_add]
  | succ n ih =>
    rw [Nat.add_right_comm]
    cases hs : engineStep s with
    | next u =>
      rw [engineRun_succ_of_step hs] at hr ⊢
      exact ih hr
    | fault f => simp [engineRun, hs] at hr
    | refused f => simp [engineRun, hs] at hr

/-- The match of a round that begins in the C_SCAN state `s`, when it has come to `p` and has `rest` before it: at the
root the engine is still in C_SCAN. -/
def State.matchAt (s : State) (p : NodeRef) (rest : List Sym) : State :=
  match p with
  | .root => { s with symIn := rest, estate := .cScan }
  | .node v => { s with symIn := rest, cur := .node v, estate := .cWalk }

/-- An edge takes the match on: from the root C_SCAN follows it, from a node C_WALK. -/
theorem engineStep_matchAt (ok : TrieOk s.cfg s.trie) (hlit : LiteralsSeeded s.cfg s.trie) {p : NodeRef} {h : Sym}
    {v : Code} (hc : child s.trie p h = some v) (rest : List Sym) :
    engineStep (s.matchAt p (h :: rest)) = .next (s.matchAt (.node v) rest) := by
  cases p with
  | root =>
    have hv := ok.child_iff.mp hc
    obtain rfl : v = litCode h := ok.edgeUnique _ _ _ hv (hlit h (ok.symBound _ _ hv))
    exact engineStep_cScan_cons rfl rfl
  | node q => exact engineStep_cWalk_go rfl rfl rfl hc

/-- From C_SCAN the match comes to every code whose sequence the input begins with, one step a symbol. -/
theorem engineRun_match (ok : TrieOk s.cfg s.trie) (hlit : LiteralsSeeded s.cfg s.trie) (he : s.estate = .cScan)
    {ys rest : List Sym} (hin : s.symIn = ys ++ rest) {v : Code} (hseq : seqOf s.trie v = some ys) :
    engineRun ys.length s = .next (s.matchAt (.node v) rest) := by
  have hroot : s.matchAt .root (ys ++ rest) = s := by rw [← hin, State.matchAt, ← he]
  have hrun := ok.engineRun_walk (f := fun p _ xs => s.matchAt p xs)
    (fun _ _ _ rest _ _ hc => engineStep_matchAt ok hlit hc rest) rest (nodeSeq_node hseq) le_rfl
  rwa [hroot] at hrun

/-- The job begun in `s`, in state `e`, where the function of R151 has come to `r`, the walk is at `p` and `text` is
before it. -/
def State.compressAt (s : State) (r : CompressResult) (p : NodeRef) (text : List Sym) (e : EState) : State :=
  { s with
    out := s.out ++ r.codes.map fun v => .code v s.wl.toNat
    trie := r.trie, nextCode := BitVec.ofNat 17 r.next, cur := p, symIn := text, estate := e }

variable {r r' : CompressResult} {p : NodeRef} {text : List Sym} {e : EState} {v : Code}

/-- The write of a code, in the machine and in the function. -/
theorem State.compressAt_emit :
    (s.compressAt r p text e).emit [.code v s.wl.toNat] = s.compressAt (r.emit v) p text e := by
  simp [State.compressAt, State.emit, CompressResult.emit]

/-- Growth, in the machine's 17-bit counter and in the function's. -/
theorem growTrie_compressAt (hn : r.next < 2 ^ 17) {h : Sym} :
    growTrie (s.compressAt r p text e) v h = s.compressAt (refGrow s.cfg r v h) p text e := by
  have htoNat : (BitVec.ofNat 17 r.next : NextCode).toNat = r.next := by
    rw [BitVec.toNat_ofNat, Nat.mod_eq_of_lt hn]
  have hcode : codeOfNext (BitVec.ofNat 17 r.next) = BitVec.ofNat 16 r.next := by
    apply BitVec.eq_of_toNat_eq
    rw [codeOfNext, BitVec.toNat_setWidth, htoNat, BitVec.toNat_ofNat]
  rcases Nat.lt_or_ge r.next s.cfg.maxCode with hroom | hfull
  · rw [refGrow_of_room hroom, growTrie_of_room (s := s.compressAt r p text e) (htoNat.trans_lt hroom)]
    simp [State.compressAt, hcode, BitVec.ofNat_add]
  · rw [refGrow_of_full hfull, growTrie_of_full (s := s.compressAt r p text e) (hfull.trans_eq htoNat.symm)]

/-- A round's match, in the job. -/
theorem CompressOk.engineRun_compressAt (ok : CompressOk s.cfg r) {ys rest : List Sym}
    (hseq : seqOf r.trie v = some ys) :
    engineRun ys.length (s.compressAt r p (ys ++ rest) .cScan) = .next (s.compressAt r (.node v) rest .cWalk) :=
  engineRun_match (s := s.compressAt r p (ys ++ rest) .cScan) ok.trie ok.literals rfl rfl hseq

/-- A match that ends the text: C_WALK writes its code. -/
theorem engineStep_compressAt_end :
    engineStep (s.compressAt r (.node v) [] .cWalk) = .next (s.compressAt (r.emit v) (.node v) [] .cEof) := by
  rw [engineStep_cWalk_end rfl rfl rfl, ← State.compressAt_emit]
  rfl

/-- A match that ends before a symbol: C_WALK writes its code and the trie grows. -/
theorem engineStep_compressAt_stop (hl : s.cfg.legal = true) (ok : CompressOk s.cfg r) {h : Sym} {rest : List Sym}
    (hc : child r.trie (.node v) h = none) :
    engineStep (s.compressAt r (.node v) (h :: rest) .cWalk) =
      .next (s.compressAt (refGrow s.cfg (r.emit v) v h) (.node v) (h :: rest) .cScan) := by
  have hgrow : growTrie ((s.compressAt r (.node v) (h :: rest) .cWalk).emit [.code v s.wl.toNat]) v h =
      s.compressAt (refGrow s.cfg (r.emit v) v h) (.node v) (h :: rest) .cWalk := by
    rw [State.compressAt_emit, growTrie_compressAt (r := r.emit v) (ok.grown.lt_two_pow hl)]
  rw [engineStep_cWalk_stop rfl rfl rfl hc]
  exact congrArg (fun u : State => Host.Outcome.next { u with estate := .cScan }) hgrow

/-- THE SIMULATION. From C_SCAN the job runs through the rounds to C_EOF, in one step for each symbol it reads and one
for each code it writes (R158; 70_reset_and_hazards.md R286). -/
theorem CompressRounds.engineRun_compressAt (hr : CompressRounds s.cfg text r r') (hl : s.cfg.legal = true)
    (ok : CompressOk s.cfg r) :
    ∃ n p', n + r.codes.length = text.length + r'.codes.length ∧
      engineRun n (s.compressAt r p text .cScan) = .next (s.compressAt r' p' [] .cEof) := by
  induction hr generalizing p with
  | @last text r v hseq =>
    have hmatch := ok.engineRun_compressAt (p := p) (rest := []) hseq
    rw [List.append_nil] at hmatch
    exact ⟨text.length + 1, .node v, by rw [CompressResult.length_codes_emit]; omega,
      (engineRun_succ_of_run hmatch).trans engineStep_compressAt_end⟩
  | @more ys rest r r' v h hseq hc hh _ ih =>
    have hround := (engineRun_succ_of_run (ok.engineRun_compressAt (p := p) (rest := h :: rest) hseq)).trans
      (engineStep_compressAt_stop hl ok hc)
    obtain ⟨n, p', hlen, hrun⟩ := ih (p := .node v) (ok.round hl hseq hc hh)
    refine ⟨ys.length + 1 + n, p', ?_, (engineRun_add_of_run hround).trans hrun⟩
    rw [refGrow_codes, CompressResult.length_codes_emit] at hlen
    rw [List.length_append]
    omega

/-- The whole loop, from the seeded trie on; with no input C_SCAN goes to C_EOF at once. -/
theorem engineRun_refCompressLoop (hl : s.cfg.legal = true) (hx : ∀ x ∈ text, x.toNat < s.cfg.r) (p : NodeRef) :
    let r := refCompressLoop s.cfg text.length text (.seeded s.cfg)
    ∃ p', engineRun (if text = [] then 1 else text.length + r.codes.length)
      (s.compressAt (.seeded s.cfg) p text .cScan) = .next (s.compressAt r p' [] .cEof) := by
  intro r
  have ok := CompressOk.seeded hl
  by_cases hne : text = []
  · subst hne
    exact ⟨p, (engineRun_one _).trans (engineStep_cScan_nil rfl rfl)⟩
  · obtain ⟨n, p', hn, hrun⟩ := (ok.rounds_refCompressLoop hl hne hx le_rfl).engineRun_compressAt (p := p) hl ok
    rw [if_neg hne, ← hn]
    exact ⟨p', hrun⟩

/-- From acceptance the first two steps latch the width and seed the trie (R150, R153). -/
theorem engineRun_accept_cCompress {w : Nat} (hw : s.cfg.widthOk w = true) :
    engineRun 2 (s.accept (encode (.cCompress w))) =
      .next (((s.accept (encode (.cCompress w))).latchWidth w).compressAt (.seeded s.cfg) s.cur s.symIn .cScan) := by
  have hw32 : w < 32 := by
    have := (Config.widthOk_iff.mp hw).2
    omega
  have hdecode := engineStep_of_decode_ok (s := s.accept (encode (.cCompress w))) rfl (decode_encode_cCompress hw32)
  have hstart : exec (.cCompress w) (s.accept (encode (.cCompress w))) = _ :=
    congrArg Host.Outcome.next (State.startCodec_of_widthOk .cInit hw)
  rw [engineRun_succ_of_step (hdecode.trans hstart), engineRun_one, engineStep_cInit rfl]
  simp [State.compressAt, CompressResult.seeded]

/-- The last two steps write `EOF_CODE` and close the sink (R156, R157). -/
theorem engineRun_compressAt_cEof :
    engineRun 2 (s.compressAt r p text .cEof) =
      .next ((s.compressAt (r.emit (BitVec.ofNat 16 s.cfg.eofCode)) p text .cClose).emit [.close]).ended := by
  rw [engineRun_succ_of_step (engineStep_cEof rfl), engineRun_one, engineStep_cClose rfl, ← State.compressAt_emit]
  rfl

theorem refCompress_eq (c : Config) (text : List Sym) :
    refCompress c text =
      (refCompressLoop c text.length text (.seeded c)).emit (BitVec.ofNat 16 c.eofCode) := rfl

/-- The whole job, from acceptance: the start, the simulation of the loop, and the end. -/
theorem engineRun_cCompress {w : Nat} (hl : s.cfg.legal = true) (hw : s.cfg.widthOk w = true)
    (hx : ∀ x ∈ s.symIn, x.toNat < s.cfg.r) :
    let r := refCompress s.cfg s.symIn
    ∃ p, engineRun (if s.symIn = [] then 5 else s.symIn.length + (r.codes.length - 1) + 4)
        (s.accept (encode (.cCompress w))) =
      .next ((((s.accept (encode (.cCompress w))).latchWidth w).compressAt r p [] .cClose).emit [.close]).ended := by
  intro r
  obtain ⟨p, hloop⟩ := engineRun_refCompressLoop (s := (s.accept (encode (.cCompress w))).latchWidth w) hl hx s.cur
  have hrun := (engineRun_add_of_run (engineRun_accept_cCompress hw)).trans
    ((engineRun_add_of_run hloop).trans engineRun_compressAt_cEof)
  refine ⟨p, Eq.trans (congrArg (engineRun · _) ?_) hrun⟩
  simp only [r, refCompress_eq, CompressResult.length_codes_emit, State.latchWidth_cfg, State.accept_cfg]
  split <;> omega

end

/-- Settles O37: the job's last state shows every field. -/
theorem compressJobComputesReference : Obligations.CompressJobComputesReference := by
  intro s w hl hw hx r
  have hwl := Config.widthOk_toNat hw
  have hnext : (BitVec.ofNat 17 r.next : NextCode).toNat = r.next := by
    obtain ⟨-, -, hg⟩ := compressGrowthPolicy s.cfg s.symIn hl hx
    rw [BitVec.toNat_ofNat, Nat.mod_eq_of_lt (hg.lt_two_pow hl)]
  have hout := congrArg (fun k => s.out ++ r.codes.map (fun v => OutEvent.code v k) ++ [.close]) hwl
  obtain ⟨p, hrun⟩ := engineRun_cCompress hl hw hx
  exact ⟨_, hrun, hout, rfl, rfl, hnext, hwl, rfl, rfl, rfl, rfl, rfl, rfl, rfl, rfl, rfl, rfl, rfl, rfl, rfl, rfl, rfl,
    rfl, rfl, rfl, rfl, rfl, rfl, rfl, hwl, rfl, rfl, rfl⟩

end Sys2Proof.Machine
end

section
/-!
The expand engine (42_expand.md R180 to R196): one equation for each step of its five states, with what a lookahead
stands for said by the function of R181 (`refLookahead`), and the rules of R183 to R188 that follow from them.
-/

namespace Sys2Proof.Machine

/-! ### The items of `CODE_IN` and the entries of `DTAB` (10_state.md R46, R48) -/

/-- The low bits of an item, as a number. -/
theorem toNat_lowBits (x : Code) (w : Nat) : (lowBits x w).toNat = x.toNat % 2 ^ w := by
  rw [lowBits, BitVec.toNat_ofNat]
  exact Nat.mod_eq_of_lt ((Nat.mod_le _ _).trans_lt x.isLt)

theorem lowBits_eq_of_toNat {x v : Code} {w : Nat} (hv : v.toNat = x.toNat % 2 ^ w) : lowBits x w = v :=
  BitVec.eq_of_toNat_eq ((toNat_lowBits x w).trans hv.symm)

/-- The table with the entry of the next code, at every code. -/
theorem get_set_codeOfNext {α : Type} {n : NextCode} (hn : n.toNat < 65536) (D : Table α) (a : α) (u : Code) :
    Table.get (Table.set D (codeOfNext n) a) u = if u.toNat = n.toNat then some a else Table.get D u := by
  have hiff : u = codeOfNext n ↔ u.toNat = n.toNat := by rw [← codeOfNext_toNat hn, BitVec.toNat_inj]
  simp only [Table.get_set, hiff]

/-- In a decode table that has grown to `n`, a code below `n` that is not `EOF_CODE` is bound (R190). -/
theorem GrownTo.bound_of_lt {α : Type} {c : Config} {D : Table α} {n : Nat} (hg : GrownTo c D n) {v : Code}
    (hv : v.toNat < n) (hne : v.toNat ≠ c.eofCode) : (Table.get D v).isSome := by
  obtain ⟨-, -, hbound⟩ := hg
  rw [hbound v]
  exact (lt_or_gt_of_ne hne).imp_right fun hgt => ⟨hgt, hv⟩

/-- A code above the counter is not bound (R190). -/
theorem GrownTo.get_none_of_gt {α : Type} {c : Config} {D : Table α} {n : Nat} (hg : GrownTo c D n) {v : Code}
    (hv : n < v.toNat) : Table.get D v = none := by
  obtain ⟨hfirst, -, hbound⟩ := hg
  rw [← Option.not_isSome_iff_eq_none, hbound v]
  omega

/-! ### What a lookahead stands for (R181, R187, R188) -/

section

variable {c : Config} {D : Table SymSeq} {n : Nat} {xs ys : SymSeq} {v : Code}

/-- The self-referential edge case. -/
theorem refLookahead_next (hn : n < c.maxCode) (hv : v.toNat = n) : refLookahead c D n xs v = some (xs.snoc xs.head) :=
  if_pos ⟨hn, hv⟩

/-- The ordinary case: a bound code other than the next one. -/
theorem refLookahead_bound (hlt : v.toNat < c.maxCode) (hv : ¬(n < c.maxCode ∧ v.toNat = n))
    (hys : Table.get D v = some ys) : refLookahead c D n xs v = some ys := by
  rw [refLookahead, if_neg hv, if_pos hlt, hys]

/-- Any other code stands for nothing. -/
theorem refLookahead_none (hv : ¬(n < c.maxCode ∧ v.toNat = n)) (hno : v.toNat < c.maxCode → Table.get D v = none) :
    refLookahead c D n xs v = none := by
  rw [refLookahead, if_neg hv]
  split_ifs with hlt
  · exact hno hlt
  · rfl

/-- A lookahead that stands for a sequence is the next code, in the edge case, or a bound one. -/
theorem refLookahead_eq_some (hv : refLookahead c D n xs v = some ys) :
    (n < c.maxCode ∧ v.toNat = n ∧ ys = xs.snoc xs.head) ∨
      (¬(n < c.maxCode ∧ v.toNat = n) ∧ Table.get D v = some ys) := by
  unfold refLookahead at hv
  split_ifs at hv with hnext
  · exact .inl ⟨hnext.1, hnext.2, (Option.some.inj hv).symm⟩
  · exact .inr ⟨hnext, hv⟩

end

section

variable {s t : State} {x v : Code} {rest : List Code} {xs ys : SymSeq}

/-- With room the machine's lookahead is the function's. -/
theorem lookaheadSeq_eq_refLookahead (hroom : s.nextCode.toNat < s.cfg.maxCode) :
    lookaheadSeq s xs v = refLookahead s.cfg s.dtab s.nextCode.toNat xs v := by
  simp only [lookaheadSeq, refLookahead, definedSeq, hroom, true_and]

/-- With a full table too, whatever the current sequence. -/
theorem definedSeq_eq_refLookahead (hfull : s.cfg.maxCode ≤ s.nextCode.toNat) :
    definedSeq s v = refLookahead s.cfg s.dtab s.nextCode.toNat xs v := by
  simp only [definedSeq, refLookahead, hfull.not_gt, false_and, if_false]

/-! ### One step of each state (R183 to R189) -/

theorem engineStep_eInit (he : s.estate = .eInit) :
    engineStep s = .next { s with
      dtab := seedDtab s.cfg, nextCode := BitVec.ofNat 17 (s.cfg.r + 1), cnt := 0, estate := .eFirst } := by
  rw [engineStep, he]
  rfl

theorem engineStep_eFirst_nil (he : s.estate = .eFirst) (hin : s.codeIn = []) :
    engineStep s = .next (s.raise .inEnd 0) := by
  simp only [engineStep, he, stepEFirst, State.codeRead, hin]

theorem engineStep_eFirst_eof (he : s.estate = .eFirst) (hin : s.codeIn = x :: rest)
    (hv : lowBits x s.wl.toNat = v) (heof : v.toNat = s.cfg.eofCode) :
    engineStep s = .next { s with codeIn := rest, cnt := 1, estate := .eClose } := by
  simp only [engineStep, he, stepEFirst, State.codeRead, hin, hv, isEof, heof, decide_true, if_true]

theorem engineStep_eFirst_literal (he : s.estate = .eFirst) (hin : s.codeIn = x :: rest)
    (hv : lowBits x s.wl.toNat = v) (hlit : v.toNat < s.cfg.r) :
    engineStep s = .next { s with codeIn := rest, cnt := 1, code := v, estate := .eEmit } := by
  have hne : v.toNat ≠ s.cfg.eofCode := hlit.ne
  simp [engineStep, he, stepEFirst, State.codeRead, hin, hv, isEof, isLiteral, hne, hlit]

theorem engineStep_eFirst_bad (he : s.estate = .eFirst) (hin : s.codeIn = x :: rest)
    (hv : lowBits x s.wl.toNat = v) (hbad : s.cfg.r < v.toNat) :
    engineStep s = .next (State.raise .badCode (v.setWidth 32) { s with codeIn := rest, cnt := 1 }) := by
  have hne : v.toNat ≠ s.cfg.eofCode := hbad.ne'
  simp [engineStep, he, stepEFirst, State.codeRead, hin, hv, isEof, isLiteral, hne, hbad.not_gt]

theorem engineStep_eEmit (he : s.estate = .eEmit) (hxs : Table.get s.dtab s.code = some xs) :
    engineStep s = .next { s with out := s.out ++ xs.toList.map .sym, estate := .eLook } := by
  rw [engineStep, he]
  exact stepEEmit_of_bound hxs

theorem engineStep_eLook_nil (he : s.estate = .eLook) (hin : s.codeIn = []) :
    engineStep s = .next (s.raise .inEnd s.cnt) := by
  simp only [engineStep, he, stepELook, State.codeRead, hin]

theorem engineStep_eLook_eof (he : s.estate = .eLook) (hin : s.codeIn = x :: rest)
    (hv : lowBits x s.wl.toNat = v) (heof : v.toNat = s.cfg.eofCode) :
    engineStep s = .next { s with codeIn := rest, cnt := s.cnt + 1, estate := .eClose } := by
  simp only [engineStep, he, stepELook, State.codeRead, hin, hv, isEof, heof, decide_true, if_true]

theorem engineStep_eLook_room (he : s.estate = .eLook) (hin : s.codeIn = x :: rest)
    (hv : lowBits x s.wl.toNat = v) (hne : v.toNat ≠ s.cfg.eofCode) (hroom : s.nextCode.toNat < s.cfg.maxCode) :
    engineStep s = lookGrow { s with codeIn := rest, cnt := s.cnt + 1 } v := by
  simp [engineStep, he, stepELook, State.codeRead, hin, hv, isEof, hne, hasRoom, hroom]

theorem engineStep_eLook_full (he : s.estate = .eLook) (hin : s.codeIn = x :: rest)
    (hv : lowBits x s.wl.toNat = v) (hne : v.toNat ≠ s.cfg.eofCode) (hfull : s.cfg.maxCode ≤ s.nextCode.toNat) :
    engineStep s = lookFrozen { s with codeIn := rest, cnt := s.cnt + 1 } v := by
  simp [engineStep, he, stepELook, State.codeRead, hin, hv, isEof, hne, hasRoom, hfull.not_gt]

/-- A lookahead that stands for a sequence, with room: the table grows. -/
theorem engineStep_eLook_grow (he : s.estate = .eLook) (hin : s.codeIn = x :: rest)
    (hv : lowBits x s.wl.toNat = v) (hne : v.toNat ≠ s.cfg.eofCode) (hroom : s.nextCode.toNat < s.cfg.maxCode)
    (hxs : Table.get s.dtab s.code = some xs) (hys : refLookahead s.cfg s.dtab s.nextCode.toNat xs v = some ys) :
    engineStep s = .next { s with
      codeIn := rest, cnt := s.cnt + 1, dtab := Table.set s.dtab (codeOfNext s.nextCode) (xs.snoc ys.head)
      nextCode := s.nextCode + 1, code := v, estate := .eEmit } := by
  rw [engineStep_eLook_room he hin hv hne hroom, lookGrow]
  simp only [hxs, lookaheadSeq_eq_refLookahead (s := { s with codeIn := rest, cnt := s.cnt + 1 }) hroom, hys]

/-- A lookahead that stands for a sequence, with a full table: the table is frozen. -/
theorem engineStep_eLook_frozen (he : s.estate = .eLook) (hin : s.codeIn = x :: rest)
    (hv : lowBits x s.wl.toNat = v) (hne : v.toNat ≠ s.cfg.eofCode) (hfull : s.cfg.maxCode ≤ s.nextCode.toNat)
    (hys : refLookahead s.cfg s.dtab s.nextCode.toNat xs v = some ys) :
    engineStep s = .next { s with codeIn := rest, cnt := s.cnt + 1, code := v, estate := .eEmit } := by
  rw [engineStep_eLook_full he hin hv hne hfull, lookFrozen]
  simp only [definedSeq_eq_refLookahead (s := { s with codeIn := rest, cnt := s.cnt + 1 }) (xs := xs) hfull, hys]

/-- A lookahead that stands for nothing. -/
theorem engineStep_eLook_bad (he : s.estate = .eLook) (hin : s.codeIn = x :: rest)
    (hv : lowBits x s.wl.toNat = v) (hne : v.toNat ≠ s.cfg.eofCode) (hxs : Table.get s.dtab s.code = some xs)
    (hno : refLookahead s.cfg s.dtab s.nextCode.toNat xs v = none) :
    engineStep s = .next (State.raise .badCode (v.setWidth 32) { s with codeIn := rest, cnt := s.cnt + 1 }) := by
  rcases Nat.lt_or_ge s.nextCode.toNat s.cfg.maxCode with hroom | hfull
  · rw [engineStep_eLook_room he hin hv hne hroom, lookGrow]
    simp only [hxs, lookaheadSeq_eq_refLookahead (s := { s with codeIn := rest, cnt := s.cnt + 1 }) hroom, hno]
  · rw [engineStep_eLook_full he hin hv hne hfull, lookFrozen]
    simp only [definedSeq_eq_refLookahead (s := { s with codeIn := rest, cnt := s.cnt + 1 }) (xs := xs) hfull, hno]

theorem engineStep_eClose (he : s.estate = .eClose) :
    engineStep s = .next (s.emit [.close]).ended := by
  rw [engineStep, he]
  rfl

end

/-- Settles O40: the table E_INIT writes is the seeded one. -/
theorem expandInitSeeds : Obligations.ExpandInitSeeds := fun s hl he =>
  ⟨seedDtab s.cfg, engineStep_eInit he, toNat_firstGrowthCode hl, get_seedDtab hl⟩

/-- Settles O41: one equation of E_FIRST for each of the four cases. -/
theorem expandFirstCodeMustBeLiteral : Obligations.ExpandFirstCodeMustBeLiteral := by
  refine fun s he => ⟨engineStep_eFirst_nil he, fun x v rest hin hv => ?_⟩
  have hread := lowBits_eq_of_toNat hv
  exact ⟨engineStep_eFirst_eof he hin hread, engineStep_eFirst_literal he hin hread, engineStep_eFirst_bad he hin hread⟩

/-- Settles O42: the invariant of E_EMIT says that the current code is bound. -/
theorem expandEmitsWholeSequence : Obligations.ExpandEmitsWholeSequence := by
  intro s hinv he
  obtain ⟨-, -, hbound⟩ := (jobOk_eEmit he).mp hinv.job
  obtain ⟨xs, hxs⟩ := Option.isSome_iff_exists.mp hbound
  exact ⟨xs, hxs, engineStep_eEmit he hxs⟩

/-- Settles O43: the read of E_LOOK, without an item and with `EOF_CODE`. -/
theorem expandLookaheadRead : Obligations.ExpandLookaheadRead := fun _ he =>
  ⟨engineStep_eLook_nil he, fun x _ hin heof => engineStep_eLook_eof he hin rfl ((toNat_lowBits x _).trans heof)⟩

/-- Settles O44: with room, the next code and the bound codes are what a lookahead can be. -/
theorem expandLookaheadGrowsTable : Obligations.ExpandLookaheadGrowsTable := by
  intro s x v rest xs hinv he hin hv hne hroom hxs
  have hread := lowBits_eq_of_toNat hv
  have hmax := Config.legal_maxCode_le hinv.legal
  obtain ⟨-, hg, -⟩ := (jobOk_eLook he).mp hinv.job
  refine ⟨fun hnext => ?_, fun ys hother hys => ?_, fun habove => ?_, fun hbelow => hg.bound_of_lt hbelow hne⟩
  · exact ⟨_, engineStep_eLook_grow he hin hread hne hroom hxs (refLookahead_next hroom hnext),
      get_set_codeOfNext (by omega) _ _⟩
  · have hlt := Table.get_lt hinv.dtab.wf (Option.isSome_of_eq_some hys)
    exact ⟨_, engineStep_eLook_grow he hin hread hne hroom hxs
      (refLookahead_bound hlt (fun h => hother h.2) hys), get_set_codeOfNext (by omega) _ _⟩
  · exact engineStep_eLook_bad he hin hread hne hxs
      (refLookahead_none (fun h => habove.ne' h.2) fun _ => hg.get_none_of_gt habove)

/-- Settles O45: a full table has grown to `MAX_CODE`, so the codes below it are bound. -/
theorem expandLookaheadFrozenTable : Obligations.ExpandLookaheadFrozenTable := by
  intro s x v rest hinv he hin hv hne hfull
  have hread := lowBits_eq_of_toNat hv
  obtain ⟨-, hg, hcode⟩ := (jobOk_eLook he).mp hinv.job
  obtain ⟨xs, hxs⟩ := Option.isSome_iff_exists.mp hcode
  have hnext : ¬(s.nextCode.toNat < s.cfg.maxCode ∧ v.toNat = s.nextCode.toNat) := fun h => h.1.ne hfull
  refine ⟨fun hlt => ?_, fun hge => ?_⟩
  · have hbound := hg.bound_of_lt (hfull ▸ hlt) hne
    obtain ⟨ys, hys⟩ := Option.isSome_iff_exists.mp hbound
    exact ⟨hbound, engineStep_eLook_frozen (xs := xs) he hin hread hne hfull.ge
      (refLookahead_bound hlt hnext hys)⟩
  · exact engineStep_eLook_bad he hin hread hne hxs (refLookahead_none hnext fun hlt => absurd hlt hge.not_gt)

end Sys2Proof.Machine
end

section
/-!
No step faults (42_expand.md R185; 40_dictionary.md R116), and no item behind the one that ends an expand job is read
(42_expand.md R193).
-/

namespace Sys2Proof.Machine

section

variable {s t : State}

/-- Only an engine step can fault: host and environments are answered or refused (70_reset_and_hazards.md R288). -/
theorem perform_ne_fault {e : Event} (he : e ≠ .engine) (f : Fault) : perform e s ≠ .fault f := by
  cases e with
  | engine => exact absurd rfl he
  | read addr size =>
    rcases hostRead_cases addr size s with ⟨r, -, hs⟩ | ⟨off, -, hs⟩ <;> simp [perform, hs]
  | write addr size v =>
    rcases hostWrite_cases addr size v s with
      ⟨r, -, hs⟩ | ⟨off, -, ⟨-, hs⟩ | ⟨-, hs⟩ | ⟨-, hs⟩ | ⟨-, hs⟩ | ⟨-, -, -, -, hs⟩⟩ <;> simp [perform, hs]
  | poll => simp [perform]
  | reset => simp [perform]
  | fillSymIn xs =>
    simp only [perform, fillSymIn]
    split
    · nofun
    · split <;> nofun
  | fillCodeIn xs =>
    simp only [perform, fillCodeIn]
    split <;> nofun
  | takeOut =>
    simp only [perform, takeOut]
    split <;> nofun

theorem AnswersInv.ne_fault {r : Result} (h : AnswersInv r) (f : Fault) : r ≠ .fault f := by
  obtain ⟨t, rfl, -⟩ := h
  nofun

theorem Inv.step_ne_fault (h : Inv s) (f : Fault) : step s ≠ .fault f := by
  cases ha : s.agenda with
  | nil =>
    rw [step_of_agenda_nil h.legal ha]
    exact h.engineStep_answers.ne_fault f
  | cons e rest =>
    rw [step_of_agenda_cons h.legal ha]
    by_cases he : e = .engine
    · have h' : Inv { s with agenda := rest } := h.model_fields rest _ _
      subst he
      exact h'.engineStep_answers.ne_fault f
    · exact perform_ne_fault he f

/-! ### Items behind `CODE_IN` -/

/-- `s` with further items behind `CODE_IN`. -/
def State.withCodesBehind (s : State) (extra : List Code) : State := { s with codeIn := s.codeIn ++ extra }

/-- A result with further items behind `CODE_IN`. -/
def Result.withCodesBehind (extra : List Code) : Result → Result
  | .next t => .next (t.withCodesBehind extra)
  | r => r

/-- `ESTATE` is one of the five states of the expand machine. -/
def EState.Expanding (e : EState) : Prop := e = .eInit ∨ e = .eFirst ∨ e = .eEmit ∨ e = .eLook ∨ e = .eClose

variable {extra : List Code} {n : Nat} {v : Code}

theorem lookGrow_withCodesBehind :
    lookGrow (s.withCodesBehind extra) v = (lookGrow s v).withCodesBehind extra := by
  unfold lookGrow
  cases hxs : Table.get s.dtab s.code with
  | none => simp only [State.withCodesBehind, hxs, Result.withCodesBehind]
  | some xs =>
    have hsame : lookaheadSeq (s.withCodesBehind extra) xs v = lookaheadSeq s xs v := rfl
    simp only [State.withCodesBehind] at hsame
    cases hv : lookaheadSeq s xs v <;> simp only [State.withCodesBehind, hxs, hsame, hv] <;> rfl

theorem lookFrozen_withCodesBehind :
    lookFrozen (s.withCodesBehind extra) v = (lookFrozen s v).withCodesBehind extra := by
  have hsame : definedSeq (s.withCodesBehind extra) v = definedSeq s v := rfl
  unfold lookFrozen
  rw [hsame]
  cases definedSeq s v <;> rfl

/-- A step of the expand machine fails for want of an item, or does not see the items behind those it has. -/
theorem engineStep_withCodesBehind (hs : s.estate.Expanding) (extra : List Code) :
    (∃ t, engineStep s = .next t ∧ t.estate = .idle ∧ t.done = false) ∨
      engineStep (s.withCodesBehind extra) = (engineStep s).withCodesBehind extra := by
  rcases hs with he | he | he | he | he
  · rw [engineStep_eInit he]
    exact .inr (engineStep_eInit (s := s.withCodesBehind extra) he)
  · cases hin : s.codeIn with
    | nil => exact .inl ⟨_, engineStep_eFirst_nil he hin, rfl, rfl⟩
    | cons x rest =>
      have hin' : (s.withCodesBehind extra).codeIn = x :: (rest ++ extra) := congrArg (· ++ extra) hin
      right
      rcases lt_trichotomy (lowBits x s.wl.toNat).toNat s.cfg.r with hlit | heof | hbad
      · rw [engineStep_eFirst_literal he hin rfl hlit]
        exact engineStep_eFirst_literal (s := s.withCodesBehind extra) he hin' rfl hlit
      · rw [engineStep_eFirst_eof he hin rfl heof]
        exact engineStep_eFirst_eof (s := s.withCodesBehind extra) he hin' rfl heof
      · rw [engineStep_eFirst_bad he hin rfl hbad]
        exact engineStep_eFirst_bad (s := s.withCodesBehind extra) he hin' rfl hbad
  · right
    simp only [engineStep, State.withCodesBehind, he, stepEEmit]
    cases Table.get s.dtab s.code <;> rfl
  · cases hin : s.codeIn with
    | nil => exact .inl ⟨_, engineStep_eLook_nil he hin, rfl, rfl⟩
    | cons x rest =>
      have hin' : (s.withCodesBehind extra).codeIn = x :: (rest ++ extra) := congrArg (· ++ extra) hin
      right
      by_cases heof : (lowBits x s.wl.toNat).toNat = s.cfg.eofCode
      · rw [engineStep_eLook_eof he hin rfl heof]
        exact engineStep_eLook_eof (s := s.withCodesBehind extra) he hin' rfl heof
      · rcases Nat.lt_or_ge s.nextCode.toNat s.cfg.maxCode with hroom | hfull
        · rw [engineStep_eLook_room he hin rfl heof hroom, ← lookGrow_withCodesBehind]
          exact engineStep_eLook_room (s := s.withCodesBehind extra) he hin' rfl heof hroom
        · rw [engineStep_eLook_full he hin rfl heof hfull, ← lookFrozen_withCodesBehind]
          exact engineStep_eLook_full (s := s.withCodesBehind extra) he hin' rfl heof hfull
  · rw [engineStep_eClose he]
    exact .inr (engineStep_eClose (s := s.withCodesBehind extra) he)

/-- A lookahead is emitted next, or it ends the job (R187). -/
theorem lookGrow_expanding (ht : lookGrow s v = .next t) : t.estate.Expanding ∨ t.estate = .idle := by
  cases hxs : Table.get s.dtab s.code with
  | none => simp [lookGrow, hxs] at ht
  | some xs =>
    rcases lookGrow_cases v hxs with ⟨ys, -, hs⟩ | ⟨-, hs⟩ <;> cases hs.symm.trans ht
    · exact .inl (.inr (.inr (.inl rfl)))
    · exact .inr rfl

/-- So with a full table (R188). -/
theorem lookFrozen_expanding (ht : lookFrozen s v = .next t) : t.estate.Expanding ∨ t.estate = .idle := by
  rcases lookFrozen_cases s v with ⟨-, hs⟩ | ⟨-, hs⟩ <;> cases hs.symm.trans ht
  · exact .inl (.inr (.inr (.inl rfl)))
  · exact .inr rfl

/-- The expand machine stays in its five states until it is idle (R182). -/
theorem engineStep_expanding (hs : s.estate.Expanding) (ht : engineStep s = .next t) :
    t.estate.Expanding ∨ t.estate = .idle := by
  rcases hs with he | he | he | he | he
  · cases (engineStep_eInit he).symm.trans ht
    exact .inl (.inr (.inl rfl))
  · rw [engineStep, he] at ht
    rcases stepEFirst_cases s with ⟨-, h⟩ | ⟨x, rest, v, -, -, ⟨-, h⟩ | ⟨-, -, h⟩ | ⟨-, -, h⟩⟩ <;>
      cases h.symm.trans ht <;> simp [EState.Expanding]
  · rw [engineStep, he] at ht
    cases hxs : Table.get s.dtab s.code with
    | none => simp [stepEEmit, hxs] at ht
    | some xs =>
      cases (stepEEmit_of_bound hxs).symm.trans ht
      exact .inl (.inr (.inr (.inr (.inl rfl))))
  · rw [engineStep, he] at ht
    rcases stepELook_cases s with ⟨-, h⟩ | ⟨x, rest, v, -, -, ⟨-, h⟩ | ⟨-, -, h⟩ | ⟨-, -, h⟩⟩
    · cases h.symm.trans ht
      exact .inr rfl
    · cases h.symm.trans ht
      exact .inl (.inr (.inr (.inr (.inr rfl))))
    · exact lookGrow_expanding (h.symm.trans ht)
    · exact lookFrozen_expanding (h.symm.trans ht)
  · cases (engineStep_eClose he).symm.trans ht
    exact .inr rfl

/-- An idle engine stays as it is (60_exceptions.md R258). -/
theorem engineRun_of_idle (he : s.estate = .idle) (n : Nat) : engineRun n s = .next s := by
  induction n with
  | zero => rfl
  | succ n ih =>
    rw [engineRun_succ_of_step (t := s) (by rw [engineStep, he])]
    exact ih

/-- A job of the expand machine that ends well does not see the items behind those it has. -/
theorem engineRun_withCodesBehind (hs : s.estate.Expanding) (hr : engineRun n s = .next t) (hi : t.estate = .idle)
    (hd : t.done = true) : engineRun n (s.withCodesBehind extra) = .next (t.withCodesBehind extra) := by
  induction n generalizing s with
  | zero =>
    cases hr
    simp [EState.Expanding, hi] at hs
  | succ n ih =>
    cases hu : engineStep s with
    | fault f => simp [engineRun, hu] at hr
    | refused r => simp [engineRun, hu] at hr
    | next u =>
      rw [engineRun_succ_of_step hu] at hr
      rcases engineStep_withCodesBehind hs extra with ⟨u', hu', hidle, hfail⟩ | hstep
      · cases hu.symm.trans hu'
        cases (engineRun_of_idle hidle n).symm.trans hr
        exact absurd (hfail.symm.trans hd) (by simp)
      · rw [hu] at hstep
        rw [engineRun_succ_of_step hstep]
        rcases engineStep_expanding hs hu with hmore | hidle
        · exact ih hmore hr
        · cases (engineRun_of_idle hidle n).symm.trans hr
          exact engineRun_of_idle (s := t.withCodesBehind extra) hidle n

end

/-- Settles O59: an engine step answers a state with the invariant, and nothing else can fault. -/
theorem machineNeverFaults : Obligations.MachineNeverFaults := by
  intro s hinv
  obtain ⟨t, ht, -⟩ := hinv.engineStep_answers
  exact ⟨⟨t, ht⟩, hinv.step_ne_fault⟩

/-- Settles O47, by induction on the steps of the job. -/
theorem expandReadsNothingAfterEof : Obligations.ExpandReadsNothingAfterEof := fun _ _ _ _ he hr hi hd =>
  engineRun_withCodesBehind (.inl he) hr hi hd

end Sys2Proof.Machine
end

section
/-!
The expand job as a simulation of the function of R181 (42_expand.md R182), with the engine steps of
70_reset_and_hazards.md R286.
-/

namespace Sys2Proof.Machine

/-! ### The cases of `expand()` (R181) -/

section

variable {c : Config} {w : Nat} {x v : Code} {items : List Code} {D : Table SymSeq} {n k : Nat} {val ys : SymSeq}
  {out : List Sym}

theorem refExpandLoop_eof (hv : lowBits x w = v) (heof : v.toNat = c.eofCode) :
    refExpandLoop c w (x :: items) D n val k out =
      { out := out ++ val.toList, dtab := D, next := n, left := items, fin := .finished } := by
  simp only [refExpandLoop, hv, heof, if_true]

theorem refExpandLoop_bad (hv : lowBits x w = v) (hne : v.toNat ≠ c.eofCode) (hno : refLookahead c D n val v = none) :
    refExpandLoop c w (x :: items) D n val k out =
      { out := out ++ val.toList, dtab := D, next := n, left := items, fin := .badCode v } := by
  simp only [refExpandLoop, hv, hne, if_false, hno]

theorem refExpandLoop_grow (hv : lowBits x w = v) (hne : v.toNat ≠ c.eofCode)
    (hys : refLookahead c D n val v = some ys) (hroom : n < c.maxCode) :
    refExpandLoop c w (x :: items) D n val k out =
      refExpandLoop c w items (Table.set D (BitVec.ofNat 16 n) (val.snoc ys.head)) (n + 1) ys (k + 1)
        (out ++ val.toList) := by
  simp only [refExpandLoop, hv, hne, if_false, hys, hroom, if_true]

theorem refExpandLoop_frozen (hv : lowBits x w = v) (hne : v.toNat ≠ c.eofCode)
    (hys : refLookahead c D n val v = some ys) (hfull : c.maxCode ≤ n) :
    refExpandLoop c w (x :: items) D n val k out = refExpandLoop c w items D n ys (k + 1) (out ++ val.toList) := by
  simp only [refExpandLoop, hv, hne, if_false, hys, hfull.not_gt]

theorem refExpand_eof (hv : lowBits x w = v) (heof : v.toNat = c.eofCode) :
    refExpand c w (x :: items) =
      { out := [], dtab := seedDtab c, next := c.r + 1, left := items, fin := .finished } := by
  simp only [refExpand, hv, heof, if_true]

theorem refExpand_literal (hv : lowBits x w = v) (hlit : v.toNat < c.r) (hval : Table.get (seedDtab c) v = some val) :
    refExpand c w (x :: items) = refExpandLoop c w items (seedDtab c) (c.r + 1) val 1 [] := by
  have hne : v.toNat ≠ c.eofCode := hlit.ne
  simp only [refExpand, hv, hne, if_false, hlit, if_true, hval]

theorem refExpand_bad (hv : lowBits x w = v) (hbad : c.r < v.toNat) :
    refExpand c w (x :: items) =
      { out := [], dtab := seedDtab c, next := c.r + 1, left := items, fin := .badCode v } := by
  have hne : v.toNat ≠ c.eofCode := hbad.ne'
  simp only [refExpand, hv, hne, if_false, hbad.not_gt]

end

/-! ### Where an expand job stands, and how it ends (R182, R196) -/

/-- The engine steps of a job that ends so after `j` items have been read (70_reset_and_hazards.md R286). -/
def ExpandEnd.jobSteps (j : Nat) : ExpandEnd → Nat
  | .finished => 2 * (j - 1) + 4
  | .inEnd _ => 2 * j + 3
  | .badCode _ => 2 * j + 1

/-- What an end says of the number `j` of items read: `IN_END` reports it, and the others have read one. -/
def ExpandEnd.EndsAfter (j : Nat) : ExpandEnd → Prop
  | .finished => 1 ≤ j
  | .inEnd k => k = j
  | .badCode _ => 1 ≤ j

/-- The job begun in `s`, in state `e`, where the function of R181 has the table `D` and the counter `n`, has read `k`
items, has written `out` and has `items` before it; the current code is `v`. -/
def State.expandAt (s : State) (D : Table SymSeq) (n : Nat) (v : Code) (k : Nat) (out : List Sym) (items : List Code)
    (e : EState) : State :=
  { s with
    dtab := D, nextCode := BitVec.ofNat 17 n, code := v, cnt := BitVec.ofNat 32 k, out := s.out ++ out.map .sym
    codeIn := items, estate := e }

/-- The state in which the job begun in `s` ends with the result `r`, after `j` items have been read. -/
def State.expandEnd (s : State) (r : ExpandResult) (v : Code) (j : Nat) : State :=
  let t := s.expandAt r.dtab r.next v j r.out r.left .idle
  match r.fin with
  | .finished => (t.emit [.close]).ended
  | .inEnd k => t.raise .inEnd (BitVec.ofNat 32 k)
  | .badCode u => t.raise .badCode (u.setWidth 32)

/-- The job begun in `s`, which has come to `u` in `b` steps with `k` items read and `items` before it, ends with the
result `r`: with so many items read in all, and in so many steps. -/
def State.ExpandsTo (s u : State) (b k : Nat) (items : List Code) (r : ExpandResult) : Prop :=
  ∃ used v m, items = used ++ r.left ∧ r.next ≤ s.cfg.maxCode ∧ r.fin.EndsAfter (k + used.length) ∧
    b + m = r.fin.jobSteps (k + used.length) ∧ engineRun m u = .next (s.expandEnd r v (k + used.length))

section

variable {s u u' : State} {b k m n w : Nat} {r : ExpandResult} {items : List Code} {D : Table SymSeq} {v x : Code}
  {out : List Sym} {e : EState} {val ys : SymSeq}

/-- The first steps of a job, which read `read`. -/
theorem State.ExpandsTo.of_run (read : List Code) (hrun : engineRun m u = .next u')
    (h : s.ExpandsTo u' (b + m) (k + read.length) items r) : s.ExpandsTo u b k (read ++ items) r := by
  obtain ⟨used, v, m', rfl, hnext, hafter, hsteps, hend⟩ := h
  have hread : k + (read ++ used).length = k + read.length + used.length := by
    rw [List.length_append, Nat.add_assoc]
  rw [Nat.add_assoc] at hsteps
  exact ⟨read ++ used, v, m + m', (List.append_assoc ..).symm, hnext, hread ▸ hafter, hread ▸ hsteps,
    (engineRun_add_of_run hrun).trans (hread ▸ hend)⟩

/-! ### The simulation -/

theorem engineRun_one_of_step (hs : engineStep u = .next u') : engineRun 1 u = .next u' := (engineRun_one u).trans hs

theorem codeOfNext_ofNat (n : Nat) : codeOfNext (BitVec.ofNat 17 n) = BitVec.ofNat 16 n := by
  apply BitVec.eq_of_toNat_eq
  simp only [codeOfNext, BitVec.toNat_setWidth, BitVec.toNat_ofNat]
  omega

/-- The counter of R181 in the machine's 17 bits. -/
theorem toNat_ofNat_counter {c : Config} (hl : c.legal = true) (hn : n ≤ c.maxCode) :
    (BitVec.ofNat 17 n : NextCode).toNat = n := by
  have := Config.legal_maxCode_le hl
  rw [BitVec.toNat_ofNat]
  omega

/-- A code of R181 in the machine's 16 bits. -/
theorem toNat_ofNat_code {c : Config} (hl : c.legal = true) (hn : n < c.maxCode) :
    (BitVec.ofNat 16 n : Code).toNat = n := by
  have := Config.legal_maxCode_le hl
  rw [BitVec.toNat_ofNat]
  omega

/-- The current sequence is written, in the machine and in the function. -/
theorem engineStep_expandAt_emit (hval : Table.get D v = some val) :
    engineStep (s.expandAt D n v k out items .eEmit) =
      .next (s.expandAt D n v k (out ++ val.toList) items .eLook) := by
  rw [engineStep_eEmit rfl hval]
  simp [State.expandAt]

/-- A lookahead with room, in the machine and in the function. -/
theorem engineStep_expandAt_grow (hl : s.cfg.legal = true) (hv : lowBits x s.wl.toNat = v)
    (hne : v.toNat ≠ s.cfg.eofCode) (hroom : n < s.cfg.maxCode) {c : Code} (hval : Table.get D c = some val)
    (hys : refLookahead s.cfg D n val v = some ys) :
    engineStep (s.expandAt D n c k out (x :: items) .eLook) =
      .next (s.expandAt (Table.set D (BitVec.ofNat 16 n) (val.snoc ys.head)) (n + 1) v (k + 1) out items .eEmit) := by
  have hn := toNat_ofNat_counter hl hroom.le
  rw [engineStep_eLook_grow (s := s.expandAt D n c k out (x :: items) .eLook) rfl rfl hv hne (hn.trans_lt hroom) hval
    (hn.symm ▸ hys)]
  simp [State.expandAt, codeOfNext_ofNat, BitVec.ofNat_add]

/-- A lookahead with a full table. -/
theorem engineStep_expandAt_frozen (hl : s.cfg.legal = true) (hv : lowBits x s.wl.toNat = v)
    (hne : v.toNat ≠ s.cfg.eofCode) (hfull : n = s.cfg.maxCode) {c : Code}
    (hys : refLookahead s.cfg D n val v = some ys) :
    engineStep (s.expandAt D n c k out (x :: items) .eLook) = .next (s.expandAt D n v (k + 1) out items .eEmit) := by
  have hn := toNat_ofNat_counter hl hfull.le
  rw [engineStep_eLook_frozen (s := s.expandAt D n c k out (x :: items) .eLook) rfl rfl hv hne (hn.trans hfull).ge
    (hn.symm ▸ hys)]
  simp [State.expandAt, BitVec.ofNat_add]

/-- A lookahead that stands for nothing. -/
theorem engineStep_expandAt_bad (hl : s.cfg.legal = true) (hn : n ≤ s.cfg.maxCode) (hv : lowBits x s.wl.toNat = v)
    (hne : v.toNat ≠ s.cfg.eofCode) {c : Code} (hval : Table.get D c = some val)
    (hno : refLookahead s.cfg D n val v = none) :
    engineStep (s.expandAt D n c k out (x :: items) .eLook) =
      .next (s.expandEnd { out := out, dtab := D, next := n, left := items, fin := .badCode v } c (k + 1)) := by
  have hn' := toNat_ofNat_counter hl hn
  rw [engineStep_eLook_bad (s := s.expandAt D n c k out (x :: items) .eLook) rfl rfl hv hne hval (hn'.symm ▸ hno)]
  simp [State.expandEnd, State.expandAt, State.raise, BitVec.ofNat_add]

/-- `EOF_CODE`, and the close of the sink. -/
theorem engineRun_expandAt_eof (hv : lowBits x s.wl.toNat = v) (heof : v.toNat = s.cfg.eofCode) {c : Code} :
    engineRun 2 (s.expandAt D n c k out (x :: items) .eLook) =
      .next (s.expandEnd { out := out, dtab := D, next := n, left := items, fin := .finished } c (k + 1)) := by
  rw [engineRun_succ_of_step (engineStep_eLook_eof (s := s.expandAt D n c k out (x :: items) .eLook) rfl rfl hv heof),
    engineRun_one, engineStep_eClose rfl]
  simp [State.expandEnd, State.expandAt, State.emit, State.ended, BitVec.ofNat_add]

/-- After the growth it makes, a lookahead is bound to the sequence it stands for (R181: "`val` equals `D[l]` in every
branch"). -/
theorem get_lookahead_grown {c : Config} (hl : c.legal = true) (hroom : n < c.maxCode)
    (hys : refLookahead c D n val v = some ys) :
    Table.get (Table.set D (BitVec.ofNat 16 n) (val.snoc ys.head)) v = some ys := by
  have hnat := toNat_ofNat_code hl hroom
  rcases refLookahead_eq_some hys with ⟨-, hnext, rfl⟩ | ⟨hother, hold⟩
  · obtain rfl : v = BitVec.ofNat 16 n := BitVec.eq_of_toNat_eq (hnext.trans hnat.symm)
    exact Table.get_set_same _ _ _
  · have hne : v ≠ BitVec.ofNat 16 n := fun h => hother ⟨hroom, h ▸ hnat⟩
    rw [Table.get_set_other _ _ hne, hold]

/-- THE SIMULATION. From E_EMIT the job runs through the loop of R181 to its end, in two steps for each item
(70_reset_and_hazards.md R286). -/
theorem expandsTo_refExpandLoop (hl : s.cfg.legal = true) (hn : n ≤ s.cfg.maxCode)
    (hval : Table.get D v = some val) :
    s.ExpandsTo (s.expandAt D n v k out items .eEmit) (2 * k + 1) k items
      (refExpandLoop s.cfg s.wl.toNat items D n val k out) := by
  induction items generalizing D n v val k out with
  | nil =>
    exact ⟨[], v, 2, rfl, hn, rfl, rfl, (engineRun_succ_of_step (engineStep_expandAt_emit hval)).trans
      (engineRun_one_of_step (engineStep_eLook_nil rfl rfl))⟩
  | cons x items ih =>
    have hemit := engineStep_expandAt_emit (s := s) (n := n) (k := k) (out := out) (items := x :: items) hval
    by_cases heof : (lowBits x s.wl.toNat).toNat = s.cfg.eofCode
    · rw [refExpandLoop_eof rfl heof]
      exact ⟨[x], v, 3, rfl, hn, Nat.le_add_left .., rfl,
        (engineRun_succ_of_step hemit).trans (engineRun_expandAt_eof rfl heof)⟩
    · have hlook {u : State} (hu : engineStep (s.expandAt D n v k (out ++ val.toList) (x :: items) .eLook) = .next u) :
          engineRun 2 (s.expandAt D n v k out (x :: items) .eEmit) = .next u :=
        (engineRun_succ_of_step hemit).trans (engineRun_one_of_step hu)
      cases hys : refLookahead s.cfg D n val (lowBits x s.wl.toNat) with
      | none =>
        rw [refExpandLoop_bad rfl heof hys]
        exact ⟨[x], v, 2, rfl, hn, Nat.le_add_left .., rfl, hlook (engineStep_expandAt_bad hl hn rfl heof hval hys)⟩
      | some ys =>
        rcases hn.lt_or_eq with hroom | hfull
        · rw [refExpandLoop_grow rfl heof hys hroom]
          exact .of_run [x] (hlook (engineStep_expandAt_grow hl rfl heof hroom hval hys))
            (ih hroom (get_lookahead_grown hl hroom hys))
        · have hold : Table.get D (lowBits x s.wl.toNat) = some ys := by
            rcases refLookahead_eq_some hys with ⟨hroom, -, -⟩ | ⟨-, hold⟩
            · exact absurd hfull hroom.ne
            · exact hold
          rw [refExpandLoop_frozen rfl heof hys hfull.ge]
          exact .of_run [x] (hlook (engineStep_expandAt_frozen hl rfl heof hfull hys)) (ih hn hold)

/-- From E_FIRST, where two steps have been taken and nothing has been read (R184). -/
theorem expandsTo_refExpand (hl : s.cfg.legal = true) (v : Code) :
    s.ExpandsTo (s.expandAt (seedDtab s.cfg) (s.cfg.r + 1) v 0 [] items .eFirst) 2 0 items
      (refExpand s.cfg s.wl.toNat items) := by
  have hn : s.cfg.r + 1 ≤ s.cfg.maxCode := Config.legal_r_lt hl
  cases items with
  | nil => exact ⟨[], v, 1, rfl, hn, rfl, rfl, engineRun_one_of_step (engineStep_eFirst_nil rfl rfl)⟩
  | cons x items =>
    rcases lt_trichotomy (lowBits x s.wl.toNat).toNat s.cfg.r with hlit | heof | hbad
    · have hval := (get_seedDtab hl (lowBits x s.wl.toNat)).trans (if_pos hlit)
      rw [refExpand_literal rfl hlit hval]
      exact .of_run [x] (engineRun_one_of_step (engineStep_eFirst_literal rfl rfl rfl hlit))
        (expandsTo_refExpandLoop hl hn hval)
    · rw [refExpand_eof rfl heof]
      have hread := engineStep_eFirst_eof
        (s := s.expandAt (seedDtab s.cfg) (s.cfg.r + 1) v 0 [] (x :: items) .eFirst) rfl rfl rfl heof
      exact ⟨[x], v, 2, rfl, hn, le_rfl, rfl,
        (engineRun_succ_of_step hread).trans (engineRun_one_of_step (engineStep_eClose rfl))⟩
    · rw [refExpand_bad rfl hbad]
      exact ⟨[x], v, 1, rfl, hn, le_rfl, rfl, engineRun_one_of_step (engineStep_eFirst_bad rfl rfl rfl hbad)⟩

/-- The whole job, from acceptance: the first two steps latch the width and seed the table (R180, R183). -/
theorem expandsTo_accept {w : Nat} (hl : s.cfg.legal = true) (hw : s.cfg.widthOk w = true) :
    ((s.accept (encode (.cExpand w))).latchWidth w).ExpandsTo (s.accept (encode (.cExpand w))) 0 0 s.codeIn
      (refExpand s.cfg w s.codeIn) := by
  have hw32 : w < 32 := by
    have := (Config.widthOk_iff.mp hw).2
    omega
  have hdecode := engineStep_of_decode_ok (s := s.accept (encode (.cExpand w))) rfl (decode_encode_cExpand hw32)
  have hstart : exec (.cExpand w) (s.accept (encode (.cExpand w))) = _ :=
    congrArg Host.Outcome.next (State.startCodec_of_widthOk .eInit hw)
  have hinit := engineStep_eInit (s := { (s.accept (encode (.cExpand w))).latchWidth w with estate := .eInit }) rfl
  have hjob := expandsTo_refExpand (s := (s.accept (encode (.cExpand w))).latchWidth w) (items := s.codeIn) hl s.code
  have hwl : ((s.accept (encode (.cExpand w))).latchWidth w).wl.toNat = w := Config.widthOk_toNat hw
  rw [hwl] at hjob
  refine .of_run [] ((engineRun_succ_of_step (hdecode.trans hstart)).trans
    (engineRun_one_of_step (hinit.trans ?_))) hjob
  simp [State.expandAt]

end

/-- Settles O46: the job's last state shows every field. -/
theorem expandJobComputesReference : Obligations.ExpandJobComputesReference := by
  intro s w hl hw r
  obtain ⟨used, v, n, hin, hnext, hafter, hsteps, hrun⟩ :
    ((s.accept (encode (.cExpand w))).latchWidth w).ExpandsTo _ 0 0 s.codeIn r := expandsTo_accept hl hw
  have hcounter : (BitVec.ofNat 17 r.next : NextCode).toNat = r.next := toNat_ofNat_counter hl hnext
  have hwidth : (BitVec.ofNat 5 w).toNat = w := Config.widthOk_toNat hw
  rw [Nat.zero_add] at hafter hrun
  rw [Nat.zero_add, Nat.zero_add] at hsteps
  subst hsteps
  refine ⟨used, ((s.accept (encode (.cExpand w))).latchWidth w).expandEnd r v used.length, hin, ?_⟩
  unfold State.expandEnd at hrun ⊢
  cases hfin : r.fin <;> rw [hfin] at hafter hrun <;>
    exact ⟨hrun, rfl, rfl, rfl, hcounter, rfl, hwidth, rfl, rfl, rfl, rfl, rfl, rfl, rfl, rfl, rfl, rfl, rfl, hafter,
      rfl, rfl, rfl, rfl, rfl⟩

end Sys2Proof.Machine
end

section
/-!
The round trip (42_expand.md R191, R192): the decode table tracks the trie, one entry behind, so the loop of R181 reads
the codes of the rounds of R151 back into the text.
-/

namespace Sys2Proof.Machine

/-! ### The decode table tracks the trie (R191) -/

/-- The decode table holds the sequence of every bound code of the trie. -/
def Tracks (D : Table SymSeq) (T : Table TrieEntry) : Prop :=
  ∀ v xs, seqOf T v = some xs → ∃ val, Table.get D v = some val ∧ val.toList = xs

section

variable {c : Config} {T : Table TrieEntry} {D : Table SymSeq} {u v m : Code} {h : Sym} {e : TrieEntry}
  {xs ys zs : List Sym} {val : SymSeq} {n w : Nat}

/-- The sequences of a grown trie are the old ones, but for the new code's. -/
theorem TrieOk.seqOf_of_set (ok : TrieOk c T) (hfree : Table.get T m = none) (hu : u ≠ m)
    (hseq : seqOf (Table.set T m e) u = some xs) : seqOf T u = some xs := by
  have hbound := seqOf_bound hseq
  rw [Table.get_set_other _ _ hu] at hbound
  obtain ⟨zs, hzs⟩ := Option.isSome_iff_exists.mp (ok.chainEnds u hbound)
  rw [hzs, ← seqOf_set_old hfree hzs, hseq]

theorem Tracks.seed (hl : c.legal = true) : Tracks (seedDtab c) (seedTrie c) := by
  intro v xs hseq
  have hbound := seqOf_bound hseq
  rw [get_seedTrie hl] at hbound
  split at hbound
  · next hlit =>
    rw [seqOf_root ((get_seedTrie hl v).trans (if_pos hlit))] at hseq
    exact ⟨_, (get_seedDtab hl v).trans (if_pos hlit), Option.some.inj hseq⟩
  · simp at hbound

/-- Both tables grow by the same sequence: the match `v` plus the symbol `h` after it. -/
theorem Tracks.set (hD : Tracks D T) (ok : TrieOk c T) (hfree : Table.get T m = none)
    (hv : seqOf T v = some val.toList) :
    Tracks (Table.set D m (val.snoc h)) (Table.set T m { parent := .node v, sym := h }) := by
  intro u xs hseq
  by_cases hu : u = m
  · subst hu
    rw [seqOf_set_new_node hfree hv] at hseq
    exact ⟨_, Table.get_set_same _ _ _, Option.some.inj hseq⟩
  · rw [Table.get_set_other _ _ hu]
    exact hD u xs (ok.seqOf_of_set hfree hu hseq)

/-- THE LOOKAHEAD. The code `u` the encoder writes after it has bound `m` stands, in the decode table that has not bound
`m` yet, for the sequence of `u`: in the edge case `u = m` its first symbol is the current sequence's (R187). -/
theorem Tracks.refLookahead_grown (hD : Tracks D T) (ok : TrieOk c T) (hroom : n < c.maxCode) (hm : m.toNat = n)
    (hfree : Table.get T m = none) (hv : seqOf T v = some val.toList)
    (hu : seqOf (Table.set T m { parent := .node v, sym := h }) u = some (h :: zs)) :
    ∃ next, refLookahead c D n val u = some next ∧ next.toList = h :: zs := by
  by_cases hum : u = m
  · subst hum
    rw [seqOf_set_new_node hfree hv] at hu
    have hlist : val.toList ++ [h] = h :: zs := Option.some.inj hu
    obtain rfl : val.head = h := (List.cons.inj hlist).1
    exact ⟨_, refLookahead_next hroom hm, hlist⟩
  · have hold := ok.seqOf_of_set hfree hum hu
    obtain ⟨next, hnext, hlist⟩ := hD u _ hold
    have hne : u.toNat ≠ n := fun h => hum (BitVec.eq_of_toNat_eq (h.trans hm.symm))
    exact ⟨next, refLookahead_bound (Table.get_lt ok.wf (seqOf_bound hold)) (fun h => hne h.2) hnext, hlist⟩

/-- With a full table nothing grows, and the code is a bound one. -/
theorem Tracks.refLookahead_full (hD : Tracks D T) (ok : TrieOk c T) (hfull : c.maxCode ≤ n)
    (hu : seqOf T u = some xs) : ∃ next, refLookahead c D n val u = some next ∧ next.toList = xs := by
  obtain ⟨next, hnext, hlist⟩ := hD u xs hu
  exact ⟨next, refLookahead_bound (Table.get_lt ok.wf (seqOf_bound hu)) (fun h => h.1.not_ge hfull) hnext, hlist⟩

/-! ### The loop of R181 on the codes of the rounds -/

/-- On `codes` and the `EOF_CODE` behind them, the loop of R181 writes `text` and ends well with the counter `n'`,
whatever stands behind. -/
def LoopWrites (c : Config) (w : Nat) (codes : List Code) (D : Table SymSeq) (n : Nat) (val : SymSeq) (text : List Sym)
    (n' : Nat) : Prop :=
  ∀ k out left, ∃ D', refExpandLoop c w (codes ++ BitVec.ofNat 16 c.eofCode :: left) D n val k out =
    { out := out ++ text, dtab := D', next := n', left := left, fin := .finished }

/-- A code below `MAX_CODE` is read as it was written (30_encoding.md R90). -/
theorem lowBits_of_lt_maxCode (hl : c.legal = true) (hw : c.widthOk w = true) (hv : v.toNat < c.maxCode) :
    lowBits v w = v := lowBits_of_lt (Config.widthOk_fits hl hw hv)

theorem lowBits_eofCode (hl : c.legal = true) (hw : c.widthOk w = true) :
    lowBits (BitVec.ofNat 16 c.eofCode) w = BitVec.ofNat 16 c.eofCode :=
  lowBits_of_lt_maxCode hl hw ((toNat_eofCode hl).trans_lt (Config.legal_r_lt hl))

theorem LoopWrites.nil (hl : c.legal = true) (hw : c.widthOk w = true) : LoopWrites c w [] D n val val.toList n :=
  fun _ _ _ => ⟨D, refExpandLoop_eof (lowBits_eofCode hl hw) (toNat_eofCode hl)⟩

variable {codes : List Code} {text : List Sym} {n' : Nat} {next : SymSeq}

theorem LoopWrites.grow (hv : lowBits v w = v) (hne : v.toNat ≠ c.eofCode)
    (hnext : refLookahead c D n val v = some next) (hroom : n < c.maxCode)
    (hloop : LoopWrites c w codes (Table.set D (BitVec.ofNat 16 n) (val.snoc next.head)) (n + 1) next text n') :
    LoopWrites c w (v :: codes) D n val (val.toList ++ text) n' := by
  intro k out left
  obtain ⟨D', hrun⟩ := hloop (k + 1) (out ++ val.toList) left
  refine ⟨D', (refExpandLoop_grow hv hne hnext hroom).trans (hrun.trans ?_)⟩
  rw [List.append_assoc]

theorem LoopWrites.frozen (hv : lowBits v w = v) (hne : v.toNat ≠ c.eofCode)
    (hnext : refLookahead c D n val v = some next) (hfull : c.maxCode ≤ n)
    (hloop : LoopWrites c w codes D n next text n') : LoopWrites c w (v :: codes) D n val (val.toList ++ text) n' := by
  intro k out left
  obtain ⟨D', hrun⟩ := hloop (k + 1) (out ++ val.toList) left
  refine ⟨D', (refExpandLoop_frozen hv hne hnext hfull).trans (hrun.trans ?_)⟩
  rw [List.append_assoc]

variable {r r' : CompressResult}

/-- One round that is not the last, in the encoder and in the decoder: the match of `v`, which is written, and the
growth by the symbol `h` after it, which the decoder makes when it reads the next code `u`. -/
theorem LoopWrites.round (hl : c.legal = true) (hw : c.widthOk w = true) (ok : CompressOk c r) (hD : Tracks D r.trie)
    (hv : seqOf r.trie v = some val.toList) (ok' : CompressOk c (refGrow c (r.emit v) v h))
    (hu : seqOf (refGrow c (r.emit v) v h).trie u = some (h :: zs))
    (hloop : ∀ D' next, Tracks D' (refGrow c (r.emit v) v h).trie → next.toList = h :: zs →
      LoopWrites c w codes D' (refGrow c (r.emit v) v h).next next text n') :
    LoopWrites c w (u :: codes) D r.next val (val.toList ++ text) n' := by
  have hread := lowBits_of_lt_maxCode hl hw (Table.get_lt ok'.trie.wf (seqOf_bound hu))
  have hne := ok'.trie.eofUnbound u (seqOf_bound hu)
  rcases Nat.lt_or_ge r.next c.maxCode with hroom | hfull
  · have hnat := toNat_ofNat_code hl hroom
    obtain ⟨hfree, -⟩ := ok.grown.next_free hnat
    rw [refGrow_of_room (r := r.emit v) hroom] at hu hloop
    obtain ⟨next, hnext, hlist⟩ := hD.refLookahead_grown ok.trie hroom hnat hfree hv hu
    have hhead : next.head = h := (List.cons.inj hlist).1
    exact .grow hread hne hnext hroom (hloop _ next (hhead ▸ hD.set ok.trie hfree hv) hlist)
  · rw [refGrow_of_full (r := r.emit v) hfull] at hu hloop
    obtain ⟨next, hnext, hlist⟩ := hD.refLookahead_full ok.trie hfull hu
    exact .frozen hread hne hnext hfull (hloop D next hD hlist)

/-- TRACKING (R191). The rounds write a first code, whose sequence the text begins with, and further codes; with the
first code's sequence as the current one and a decode table that tracks the trie, the loop of R181 reads them back. -/
theorem CompressRounds.loopWrites (hr : CompressRounds c text r r') (hl : c.legal = true) (hw : c.widthOk w = true)
    (ok : CompressOk c r) :
    ∃ v codes xs, r'.codes = r.codes ++ v :: codes ∧ xs <+: text ∧ seqOf r.trie v = some xs ∧
      ∀ D val, Tracks D r.trie → val.toList = xs → LoopWrites c w codes D r.next val text r'.next := by
  induction hr with
  | @last text r v hseq =>
    exact ⟨v, [], text, rfl, List.prefix_rfl, hseq, fun D val _ hval => hval ▸ LoopWrites.nil hl hw⟩
  | @more ys rest r r' v h hseq hc hh _ ih =>
    have ok' := ok.round hl hseq hc hh
    obtain ⟨u, codes, xs, hcodes, hpre, hu, hloop⟩ := ih ok'
    obtain ⟨zs, rfl⟩ : ∃ zs, xs = h :: zs := by
      obtain ⟨x, zs, rfl⟩ := List.exists_cons_of_length_pos (seqOf_length hu).1
      exact ⟨zs, by rw [(List.cons_prefix_cons.mp hpre).1]⟩
    refine ⟨v, u :: codes, ys, ?_, List.prefix_append .., hseq, fun D val hD hval => ?_⟩
    · rw [hcodes, refGrow_codes, CompressResult.emit, List.append_assoc, List.singleton_append]
    · subst hval
      exact .round hl hw ok hD hseq ok' hu hloop

/-- The function of R181 reads the codes of the function of R151 back into the text, and comes to the same counter. -/
theorem refExpand_refCompress (hl : c.legal = true) (hw : c.widthOk w = true) (hx : ∀ x ∈ text, x.toNat < c.r)
    (left : List Code) :
    ∃ D, refExpand c w ((refCompress c text).codes ++ left) =
      { out := text, dtab := D, next := (refCompress c text).next, left := left, fin := .finished } := by
  rw [refCompress_eq]
  by_cases hne : text = []
  · subst hne
    exact ⟨_, refExpand_eof (lowBits_eofCode hl hw) (toNat_eofCode hl)⟩
  · have ok := CompressOk.seeded hl
    obtain ⟨v, codes, xs, hcodes, -, hv, hloop⟩ := (ok.rounds_refCompressLoop hl hne hx le_rfl).loopWrites hl hw ok
    have hlit : v.toNat < c.r := by
      have hbound := seqOf_bound hv
      rw [CompressResult.seeded, get_seedTrie hl] at hbound
      by_contra hge
      simp [hge] at hbound
    obtain ⟨val, hval, hlist⟩ := Tracks.seed hl v xs hv
    obtain ⟨D, hrun⟩ := hloop _ val (Tracks.seed hl) hlist 1 [] left
    have hread := lowBits_of_lt_maxCode hl hw (hlit.trans (Config.legal_r_lt hl))
    refine ⟨D, ?_⟩
    rw [CompressResult.emit, hcodes]
    simp only [CompressResult.seeded, List.nil_append, List.cons_append, List.append_assoc]
    exact (refExpand_literal hread hlit hval).trans hrun

end

/-- Settles O48: O37 gives the codes, O46 the end of the expand job, and the function of R181 reads the codes back. -/
theorem roundTrip : Obligations.RoundTrip := by
  intro s w hl hw hx
  obtain ⟨t, hrun, hout, -, -, hnext, -, -, hdone, hidle, -⟩ := compressJobComputesReference s w hl hw hx
  refine ⟨_, t, _, hrun, hidle, hdone, hout, fun u left hcfg hin => ?_⟩
  obtain ⟨D, hback⟩ := refExpand_refCompress hl hw hx left
  have hjob := expandJobComputesReference u w (hcfg ▸ hl) (hcfg ▸ hw)
  rw [hcfg, hin, hback] at hjob
  obtain ⟨used, t', -, hrun', hidle', -, -, hnext', hleft, -, -, -, -, -, -, -, -, -, -, -, -, -, hout', hdone', -⟩ :=
    hjob
  exact ⟨_, t', hrun', hidle', hdone', hout', BitVec.eq_of_toNat_eq (hnext'.trans hnext.symm), hleft⟩

end Sys2Proof.Machine
end

section
/-!
How a `CMD` write is taken (43_control.md R222 to R224), how the placed command comes to run, and the three ways an engine
step ends (R226, R227; 60_exceptions.md R243).
-/

namespace Sys2Proof.Machine

/-! ### A write of `CMD` (R222 to R224) -/

section

variable {s : State} {v : Word}

theorem State.requestCmd_of_accepted (hb : s.busy = false) (hv : s.err = false ∨ v = 0x00000001#32) :
    s.requestCmd v = s.accept v := by
  rcases s.requestCmd_cases v with ⟨-, -, hs⟩ | ⟨hbusy | ⟨herr, hne⟩, -⟩
  · exact hs
  · simp [hb] at hbusy
  · simp [herr, hne] at hv

theorem State.requestCmd_of_dropped (hv : s.busy = true ∨ (s.err = true ∧ v ≠ 0x00000001#32)) :
    s.requestCmd v = s.drop := by
  rcases s.requestCmd_cases v with ⟨hb, herr | hclear, -⟩ | ⟨-, hs⟩
  · simp [hb, herr] at hv
  · simp [hb, hclear] at hv
  · exact hs

/-- A `CMD` write is one step, the request it makes. -/
theorem step_cmdWrite {rest : List Event} (hl : s.cfg.legal = true) (ha : s.agenda = .write s.cfg.csrBase 4 v :: rest) :
    step s = .next (State.requestCmd v { s with agenda := rest }) := by
  rw [step_of_agenda_cons hl ha]
  exact hostWrite_csr .cmd v { s with agenda := rest }

end

/-- Settles O7: the write's one step is its request, and `BUSY`, `ERR` and the word decide whether it is accepted. -/
theorem commandWriteAcceptedOrDropped : Obligations.CommandWriteAcceptedOrDropped := by
  intro s v rest hl ha
  rw [step_cmdWrite hl ha]
  refine ⟨fun hb hv => ?_, fun hb => ?_, fun _ he hv => ?_⟩
  · exact congrArg Host.Outcome.next (State.requestCmd_of_accepted hb hv)
  · exact congrArg Host.Outcome.next (State.requestCmd_of_dropped (.inl hb))
  · exact congrArg Host.Outcome.next (State.requestCmd_of_dropped (.inr ⟨he, hv⟩))

/-- Settles O6: the placed state waits in DECODE with the engine's turn first, so O5 gives its step. -/
theorem placedWordRunsNext : Obligations.PlacedWordRunsNext := by
  intro s w i hl hw hd
  rw [State.withFetchWord, Nat.mod_eq_of_lt hw]
  obtain ⟨-, hturn⟩ := stepRunsDecodedCommand (placeCommand s (BitVec.ofNat 32 w)) i hl rfl hd
  exact hturn s.agenda rfl

/-- Settles O18: both commands are their writes alone, so each clause holds by unfolding (R220, R221, R226). -/
theorem nopAndClearComplete : Obligations.NopAndClearComplete := fun _ => ⟨rfl, rfl⟩

/-! ### How an engine step ends (R226, R227; 60_exceptions.md R243) -/

/-- The ways a step from `s` ends: the job goes on, with `BUSY` as it was; it is complete; it takes the error entry; or the
step faults. -/
inductive StepEnding (s : State) : Result → Prop where
  | goesOn {t : State} (hbusy : t.busy = s.busy) : StepEnding s (.next t)
  | completes (u : State) : StepEnding s (.next u.complete)
  | raises (u : State) (x : Cause) (info : Word) : StepEnding s (.next (u.raise x info))
  | faults (f : Fault) : StepEnding s (.fault f)

section

variable {s t : State}

theorem insertEdge_ending (p : NodeRef) (x : Sym) : StepEnding s (.next (insertEdge s p x)) := by
  rcases insertEdge_cases s p x with ⟨q, -, -, hs⟩ | ⟨-, ⟨c, -, hs⟩ | ⟨-, ⟨-, hs⟩ | ⟨-, hs⟩⟩⟩ <;> rw [hs]
  · exact .raises _ _ _
  · exact .raises _ _ _
  · exact .raises _ _ _
  · exact .completes _

theorem execDInsert_ending : StepEnding s (execDInsert s) := by
  unfold execDInsert
  split_ifs
  · exact .raises _ _ _
  · exact .raises _ _ _
  · exact .raises _ _ _
  · exact insertEdge_ending _ _

theorem execDChild_ending : StepEnding s (execDChild s) := by
  unfold execDChild
  split_ifs
  · exact .raises _ _ _
  · exact .raises _ _ _
  · exact .completes _

theorem execDLookup_ending : StepEnding s (execDLookup s) := by
  unfold execDLookup
  split_ifs
  · exact .raises _ _ _
  · exact .goesOn rfl

theorem startCodec_ending (w : Nat) (first : EState) : StepEnding s (.next (s.startCodec w first)) := by
  rcases s.startCodec_cases w first with ⟨-, hs⟩ | ⟨-, hs⟩ <;> rw [hs]
  · exact .goesOn rfl
  · exact .raises _ _ _

theorem exec_ending (i : Instr) : StepEnding s (exec i s) := by
  cases i with
  | nop => exact .completes _
  | clear => exact .completes _
  | dSeed => exact .completes _
  | dInsert => exact execDInsert_ending
  | dChild => exact execDChild_ending
  | dLookup => exact execDLookup_ending
  | dLpm => exact .goesOn rfl
  | cCompress w => exact startCodec_ending w _
  | cExpand w => exact startCodec_ending w _

theorem stepDecode_ending : StepEnding s (stepDecode s) := by
  unfold stepDecode
  cases decode s.lcmd with
  | error e => exact .raises _ _ _
  | ok i => exact exec_ending i

theorem finishWalk_ending (n : Word) : StepEnding s (finishWalk s n) := by
  rcases finishWalk_cases s n with ⟨-, hs⟩ | ⟨c, -, hs⟩ <;> rw [hs]
  · exact .faults _
  · exact .completes _

theorem stepDLkp_ending : StepEnding s (stepDLkp s) := by
  rcases stepDLkp_cases s with ⟨-, hs⟩ | ⟨-, ⟨-, hs⟩ | ⟨x, rest, -, -, hs⟩ | ⟨x, rest, c, -, -, hs⟩⟩ <;> rw [hs]
  · exact finishWalk_ending _
  · exact .raises _ _ _
  · exact .raises _ _ _
  · exact .goesOn rfl

theorem stepDLpm_ending : StepEnding s (stepDLpm s) := by
  rcases stepDLpm_cases s with
    ⟨x, rest, c, -, -, hs⟩ | ⟨-, -, hs⟩ | ⟨-, -, hs⟩ | ⟨x, rest, -, -, -, hs⟩ <;> rw [hs]
  · exact .goesOn rfl
  · exact finishWalk_ending _
  · exact .raises _ _ _
  · exact .raises _ _ _

theorem stepCScan_ending : StepEnding s (stepCScan s) := by
  rcases stepCScan_cases s with ⟨-, hs⟩ | ⟨x, rest, -, hs⟩ <;> rw [hs]
  · exact .goesOn rfl
  · exact .goesOn rfl

@[simp] theorem growTrie_busy (s : State) (m : Code) (x : Sym) : (growTrie s m x).busy = s.busy := by
  rcases growTrie_cases s m x with ⟨-, hs⟩ | ⟨-, hs⟩ <;> rw [hs]

theorem stepCWalk_ending : StepEnding s (stepCWalk s) := by
  cases hcur : s.cur with
  | root =>
    rw [stepCWalk, hcur]
    exact .faults _
  | node m =>
    rcases stepCWalk_cases hcur with ⟨-, hs⟩ | ⟨x, rest, c, -, -, hs⟩ | ⟨x, rest, -, -, hs⟩ <;> rw [hs]
    · exact .goesOn rfl
    · exact .goesOn rfl
    · exact .goesOn (growTrie_busy _ m x)

theorem stepEFirst_ending : StepEnding s (stepEFirst s) := by
  rcases stepEFirst_cases s with ⟨-, hs⟩ | ⟨x, rest, v, -, -, ⟨-, hs⟩ | ⟨-, -, hs⟩ | ⟨-, -, hs⟩⟩ <;> rw [hs]
  · exact .raises _ _ _
  · exact .goesOn rfl
  · exact .goesOn rfl
  · exact .raises _ _ _

theorem stepEEmit_ending : StepEnding s (stepEEmit s) := by
  cases hxs : Table.get s.dtab s.code with
  | none =>
    rw [stepEEmit, hxs]
    exact .faults _
  | some xs =>
    rw [stepEEmit_of_bound hxs]
    exact .goesOn rfl

/-- E_LOOK with room, from the state `t` after the read (42_expand.md R187). -/
theorem lookGrow_ending (hbusy : t.busy = s.busy) (v : Code) : StepEnding s (lookGrow t v) := by
  cases hxs : Table.get t.dtab t.code with
  | none =>
    rw [lookGrow, hxs]
    exact .faults _
  | some xs =>
    rcases lookGrow_cases v hxs with ⟨ys, -, hs⟩ | ⟨-, hs⟩ <;> rw [hs]
    · exact .goesOn hbusy
    · exact .raises _ _ _

/-- E_LOOK with a full table, from the state `t` after the read (42_expand.md R188). -/
theorem lookFrozen_ending (hbusy : t.busy = s.busy) (v : Code) : StepEnding s (lookFrozen t v) := by
  rcases lookFrozen_cases t v with ⟨-, hs⟩ | ⟨-, hs⟩ <;> rw [hs]
  · exact .goesOn hbusy
  · exact .raises _ _ _

theorem stepELook_ending : StepEnding s (stepELook s) := by
  rcases stepELook_cases s with ⟨-, hs⟩ | ⟨x, rest, v, -, -, ⟨-, hs⟩ | ⟨-, -, hs⟩ | ⟨-, -, hs⟩⟩ <;> rw [hs]
  · exact .raises _ _ _
  · exact .goesOn rfl
  · exact lookGrow_ending (by rfl) v
  · exact lookFrozen_ending (by rfl) v

theorem engineStep_ending (s : State) : StepEnding s (engineStep s) := by
  unfold engineStep
  cases s.estate with
  | idle => exact .goesOn rfl
  | decode => exact stepDecode_ending
  | dLkp => exact stepDLkp_ending
  | dLpm => exact stepDLpm_ending
  | cInit => exact .goesOn rfl
  | cScan => exact stepCScan_ending
  | cWalk => exact stepCWalk_ending
  | cEof => exact .goesOn rfl
  | cClose => exact .completes _
  | eInit => exact .goesOn rfl
  | eFirst => exact stepEFirst_ending
  | eEmit => exact stepEEmit_ending
  | eLook => exact stepELook_ending
  | eClose => exact .completes _

end

/-- Settles O49: a step that ends the job is a completion or an error entry, and the invariant of the state after it says
what the error registers hold. -/
theorem jobEndsDoneOrFailed : Obligations.JobEndsDoneOrFailed := by
  intro s t hinv hb ht hended
  have hafter : Inv t := hinv.engineStep_answers.inv_of_next ht
  have hways : StepEnding s (.next t) := ht ▸ engineStep_ending s
  cases hways with
  | goesOn hbusy => exact absurd (hbusy.symm.trans hended) (by simp [hb])
  | completes u =>
    have herr : u.complete.err = false := hafter.status.doneNotErr rfl
    exact ⟨rfl, .inl ⟨rfl, herr, hafter.status.quiet herr⟩⟩
  | raises u x info => exact ⟨rfl, .inr ⟨rfl, rfl, hafter.status.caused rfl⟩⟩

end Sys2Proof.Machine
end

section
/-!
Errors (60_exceptions.md R243 to R249): what changes the error registers while an error is pending, the way back from it,
the errors of a command's first step, and what an engine step writes to `OUT`.
-/

namespace Sys2Proof.Machine

/-! ### A pending error (R247, R249) -/

/-- The step from `s` to `t` keeps `ERR`, `ERRCODE` and `ERRINFO`. -/
def KeepsError (s t : State) : Prop := t.err = s.err ∧ t.errcode = s.errcode ∧ t.errinfo = s.errinfo

section

variable {s t : State}

theorem KeepsError.refl (s : State) : KeepsError s s := ⟨rfl, rfl, rfl⟩

/-- A `CMD` write keeps the pending error, accepted or dropped (43_control.md R222 to R224). -/
theorem State.requestCmd_keepsError (v : Word) (s : State) : KeepsError s (s.requestCmd v) := by
  rcases s.requestCmd_cases v with ⟨-, -, hs⟩ | ⟨-, hs⟩ <;> rw [hs]
  · exact .refl s
  · exact .refl s

theorem hostWrite_keepsError {addr size : Nat} {v : Word} (ht : hostWrite addr size v s = .next t) : KeepsError s t := by
  rcases hostWrite_cases addr size v s with
    ⟨r, -, hs⟩ | ⟨off, -, ⟨-, hs⟩ | ⟨-, hs⟩ | ⟨-, hs⟩ | ⟨-, hs⟩ | ⟨-, -, -, -, hs⟩⟩ <;> cases hs.symm.trans ht
  · exact s.requestCmd_keepsError v
  · exact .refl s
  · exact .refl s
  · exact .refl s
  · exact .refl s

theorem hostPoll_keepsError : KeepsError s (hostPoll s) := by
  rcases hostPoll_cases s with ⟨-, hs⟩ | ⟨-, hs⟩ <;> rw [hs]
  · exact .refl s
  · exact .refl s

theorem fillSymIn_keepsError {xs : List Sym} (ht : fillSymIn xs s = .next t) : KeepsError s t := by
  unfold fillSymIn at ht
  split_ifs at ht
  cases ht
  exact .refl s

theorem fillCodeIn_keepsError {xs : List Code} (ht : fillCodeIn xs s = .next t) : KeepsError s t := by
  unfold fillCodeIn at ht
  split_ifs at ht
  cases ht
  exact .refl s

theorem takeOut_keepsError (ht : takeOut s = .next t) : KeepsError s t := by
  unfold takeOut at ht
  split_ifs at ht
  cases ht
  exact .refl s

/-- Of the transitions of 70_reset_and_hazards.md R288 only an engine step and a reset can change the error registers. -/
theorem perform_keepsError {e : Event} (he : e ≠ .engine) (hr : e ≠ .reset) (ht : perform e s = .next t) :
    KeepsError s t := by
  cases e with
  | engine => exact absurd rfl he
  | read addr size =>
    rcases hostRead_cases addr size s with ⟨r, -, hs⟩ | ⟨off, -, hs⟩ <;> cases hs.symm.trans ht
    exact .refl s
  | write addr size v => exact hostWrite_keepsError ht
  | poll =>
    cases ht
    exact hostPoll_keepsError
  | reset => exact absurd rfl hr
  | fillSymIn xs => exact fillSymIn_keepsError ht
  | fillCodeIn xs => exact fillCodeIn_keepsError ht
  | takeOut => exact takeOut_keepsError ht

/-- While an error is pending the engine stands still, or it is about to run an accepted `CLEAR` (R249). -/
theorem Inv.engineStep_of_pending (h : Inv s) (herr : s.err = true) (ht : engineStep s = .next t) :
    KeepsError s t ∨ (s.estate = .decode ∧ s.lcmd = 0x00000001#32) := by
  by_cases hi : s.estate = .idle
  · rw [engineStep, hi] at ht
    cases ht
    exact .inl (.refl s)
  · exact .inr (h.status.errRuns herr (h.status.busyIff.mpr hi))

/-- A step keeps the pending error, unless it is a reset's or the engine's step of an accepted `CLEAR`. -/
theorem Inv.step_of_pending (h : Inv s) (herr : s.err = true) (ht : step s = .next t) :
    KeepsError s t ∨ s.agenda.head? = some .reset ∨
      (s.estate = .decode ∧ s.lcmd = 0x00000001#32 ∧ (s.agenda = [] ∨ s.agenda.head? = some .engine)) := by
  cases ha : s.agenda with
  | nil =>
    rcases h.engineStep_of_pending herr ((step_of_agenda_nil h.legal ha).symm.trans ht) with hk | ⟨he, hc⟩
    · exact .inl hk
    · exact .inr (.inr ⟨he, hc, .inl rfl⟩)
  | cons e rest =>
    have htp : perform e { s with agenda := rest } = .next t := (step_of_agenda_cons h.legal ha).symm.trans ht
    by_cases hr : e = .reset
    · exact .inr (.inl (congrArg some hr))
    · by_cases hg : e = .engine
      · subst hg
        have h' : Inv { s with agenda := rest } := h.model_fields rest _ _
        rcases h'.engineStep_of_pending herr htp with hk | ⟨he, hc⟩
        · exact .inl hk
        · exact .inr (.inr ⟨he, hc, .inr rfl⟩)
      · have hk : KeepsError { s with agenda := rest } t := perform_keepsError hg hr htp
        exact .inl hk

end

/-- Settles O50: the step keeps the error registers or is one of the two named, and a `CMD` write other than `CLEAR` is
dropped. -/
theorem errorIsSticky : Obligations.ErrorIsSticky := by
  intro s t hinv herr ht
  refine ⟨?_, fun v rest ha hv => ?_⟩
  · exact (hinv.step_of_pending herr ht).imp_left fun ⟨he, hcode, hinfo⟩ => ⟨he.trans herr, hcode, hinfo⟩
  · cases (step_cmdWrite hinv.legal ha).symm.trans ht
    exact State.requestCmd_of_dropped (.inr ⟨herr, hv⟩)

/-! ### The way back (R248) -/

theorem StatusOk.idle_of_not_busy {s : State} (h : StatusOk s) (hb : s.busy = false) : s.estate = .idle := by
  by_contra hi
  simp [h.busyIff.mpr hi] at hb

/-- The engine's turn in DECODE with the word of `CLEAR` (43_control.md R221). -/
theorem runSteps_clear {s : State} {rest : List Event} (hl : s.cfg.legal = true) (he : s.estate = .decode)
    (hcmd : s.lcmd = 0x00000001#32) (ha : s.agenda = .engine :: rest) :
    runSteps 1 s = .next (State.complete (State.clearError { s with agenda := rest })) := by
  obtain ⟨-, hturn⟩ := stepRunsDecodedCommand s .clear hl he (hcmd ▸ decode_clear)
  rw [runSteps, hturn rest ha]
  rfl

/-- Settles O19: the write is accepted whatever error is pending, and the engine's step in DECODE is `CLEAR`'s. -/
theorem clearReturnsToService : Obligations.ClearReturnsToService := by
  intro s rest hinv hb ha
  have hidle := hinv.status.idle_of_not_busy hb
  have hrun : runSteps 2 s =
      .next (State.complete (State.clearError (State.accept 0x00000001#32 { s with agenda := rest }))) :=
    calc runSteps 2 s
      _ = runSteps 1 (State.accept 0x00000001#32 { s with agenda := .engine :: rest }) :=
          runSteps_wrEvent 1 (x := .cmd) hinv.legal ha (State.requestCmd_of_accepted hb (.inr rfl))
      _ = .next (State.complete (State.clearError (State.accept 0x00000001#32 { s with agenda := rest }))) :=
          runSteps_clear hinv.legal rfl rfl rfl
  refine ⟨_, hrun, ?_, fun v => rfl⟩
  simp [State.accept, State.clearError, State.complete, hb, hidle]

/-! ### The errors of a command's first step (R244) -/

/-- What a step in state DECODE does: it takes the error entry, from `s` as it is, or it leaves no new error pending; it
writes nothing to `OUT`. -/
inductive FirstStep (s : State) : Result → Prop where
  | raises (x : Cause) (info : Word) : FirstStep s (.next (s.raise x info))
  | quiet {t : State} (herr : t.err = true → s.err = true) (hout : t.out = s.out) : FirstStep s (.next t)

section

variable {s t : State}

theorem insertEdge_firstStep (p : NodeRef) (x : Sym) : FirstStep s (.next (insertEdge s p x)) := by
  rcases insertEdge_cases s p x with ⟨q, -, -, hs⟩ | ⟨-, ⟨c, -, hs⟩ | ⟨-, ⟨-, hs⟩ | ⟨-, hs⟩⟩⟩ <;> rw [hs]
  · exact .raises _ _
  · exact .raises _ _
  · exact .raises _ _
  · exact .quiet id rfl

theorem execDInsert_firstStep : FirstStep s (execDInsert s) := by
  unfold execDInsert
  split_ifs
  · exact .raises _ _
  · exact .raises _ _
  · exact .raises _ _
  · exact insertEdge_firstStep _ _

theorem execDChild_firstStep : FirstStep s (execDChild s) := by
  unfold execDChild
  split_ifs
  · exact .raises _ _
  · exact .raises _ _
  · exact .quiet id rfl

theorem execDLookup_firstStep : FirstStep s (execDLookup s) := by
  by_cases hlc : s.lc = 0
  · rw [execDLookup_of_zero hlc]
    exact .raises _ _
  · rw [execDLookup_of_length hlc]
    exact .quiet id rfl

theorem startCodec_firstStep (w : Nat) (first : EState) : FirstStep s (.next (s.startCodec w first)) := by
  rcases s.startCodec_cases w first with ⟨-, hs⟩ | ⟨-, hs⟩ <;> rw [hs]
  · exact .quiet id rfl
  · exact .raises _ _

theorem exec_firstStep (i : Instr) : FirstStep s (exec i s) := by
  cases i with
  | nop => exact .quiet id rfl
  | clear => exact .quiet nofun rfl
  | dSeed => exact .quiet id rfl
  | dInsert => exact execDInsert_firstStep
  | dChild => exact execDChild_firstStep
  | dLookup => exact execDLookup_firstStep
  | dLpm => exact .quiet id rfl
  | cCompress w => exact startCodec_firstStep w _
  | cExpand w => exact startCodec_firstStep w _

theorem stepDecode_firstStep : FirstStep s (stepDecode s) := by
  unfold stepDecode
  cases decode s.lcmd with
  | error e => exact .raises _ _
  | ok i => exact exec_firstStep i

end

/-- Settles O52: with no error pending before it, a first step that leaves one has taken the error entry. -/
theorem firstStepErrorsHaveNoOtherEffect : Obligations.FirstStepErrorsHaveNoOtherEffect := by
  intro s t _ he hno ht herr
  rw [engineStep, he] at ht
  have hfirst : FirstStep s (.next t) := ht ▸ stepDecode_firstStep
  cases hfirst with
  | raises x info => rfl
  | quiet hkept _ => simp [hkept herr] at hno

/-! ### What an engine step writes to `OUT` (R245; 70_reset_and_hazards.md R284) -/

/-- What an engine step from `s` to `t` does to `OUT`: nothing; or a running job writes codes or symbols and goes on; or
the last step of a codec job writes the one `Close`, and the job is complete. -/
inductive StepOutput (s : State) : State → Prop where
  | silent {t : State} (hout : t.out = s.out) : StepOutput s t
  | writes {t : State} (es : List OutEvent) (hrun : s.estate ≠ .idle ∧ s.estate ≠ .decode) (hes : .close ∉ es)
      (herr : t.err = s.err) (hout : t.out = s.out ++ es) : StepOutput s t
  | closes (he : s.estate = .cClose ∨ s.estate = .eClose) : StepOutput s s.sinkClose.complete

section

variable {s t : State} {v : Code}

theorem stepCScan_out (ht : stepCScan s = .next t) : t.out = s.out := by
  rcases stepCScan_cases s with ⟨-, hs⟩ | ⟨x, rest, -, hs⟩ <;> cases hs.symm.trans ht
  · rfl
  · rfl

theorem stepEFirst_out (ht : stepEFirst s = .next t) : t.out = s.out := by
  rcases stepEFirst_cases s with ⟨-, hs⟩ | ⟨x, rest, v, -, -, ⟨-, hs⟩ | ⟨-, -, hs⟩ | ⟨-, -, hs⟩⟩ <;>
    cases hs.symm.trans ht
  · rfl
  · rfl
  · rfl
  · rfl

theorem lookGrow_out (ht : lookGrow s v = .next t) : t.out = s.out := by
  cases hxs : Table.get s.dtab s.code with
  | none => simp [lookGrow, hxs] at ht
  | some xs =>
    rcases lookGrow_cases v hxs with ⟨ys, -, hs⟩ | ⟨-, hs⟩ <;> cases hs.symm.trans ht
    · rfl
    · rfl

theorem lookFrozen_out (ht : lookFrozen s v = .next t) : t.out = s.out := by
  rcases lookFrozen_cases s v with ⟨-, hs⟩ | ⟨-, hs⟩ <;> cases hs.symm.trans ht
  · rfl
  · rfl

theorem stepELook_out (ht : stepELook s = .next t) : t.out = s.out := by
  rcases stepELook_cases s with ⟨-, hs⟩ | ⟨x, rest, v, -, -, ⟨-, hs⟩ | ⟨-, -, hs⟩ | ⟨-, -, hs⟩⟩
  · cases hs.symm.trans ht
    rfl
  · cases hs.symm.trans ht
    rfl
  · exact (lookGrow_out (hs.symm.trans ht) :)
  · exact (lookFrozen_out (hs.symm.trans ht) :)

@[simp] theorem growTrie_err (s : State) (m : Code) (x : Sym) : (growTrie s m x).err = s.err := by
  rcases growTrie_cases s m x with ⟨-, hs⟩ | ⟨-, hs⟩ <;> rw [hs]

@[simp] theorem growTrie_out (s : State) (m : Code) (x : Sym) : (growTrie s m x).out = s.out := by
  rcases growTrie_cases s m x with ⟨-, hs⟩ | ⟨-, hs⟩ <;> rw [hs]

theorem stepCWalk_output (he : s.estate = .cWalk) (ht : stepCWalk s = .next t) : StepOutput s t := by
  cases hcur : s.cur with
  | root => simp [stepCWalk, hcur] at ht
  | node m =>
    rcases stepCWalk_cases hcur with ⟨-, hs⟩ | ⟨x, rest, c, -, -, hs⟩ | ⟨x, rest, -, -, hs⟩ <;> cases hs.symm.trans ht
    · exact .writes [.code m s.wl.toNat] (by simp [he]) (by simp) rfl rfl
    · exact .silent rfl
    · exact .writes [.code m s.wl.toNat] (by simp [he]) (by simp) (by simp) (by simp)

theorem stepEEmit_output (he : s.estate = .eEmit) (ht : stepEEmit s = .next t) : StepOutput s t := by
  cases hxs : Table.get s.dtab s.code with
  | none => simp [stepEEmit, hxs] at ht
  | some xs =>
    cases (stepEEmit_of_bound hxs).symm.trans ht
    exact .writes (xs.toList.map .sym) (by simp [he]) (by simp) rfl rfl

theorem stepDecode_out (ht : stepDecode s = .next t) : t.out = s.out := by
  have hfirst : FirstStep s (.next t) := ht ▸ stepDecode_firstStep
  cases hfirst with
  | raises x info => rfl
  | quiet _ hout => exact hout

/-- The writers of `OUT` are C_WALK, C_EOF and E_EMIT, and the two states that end a codec job (10_state.md R49). -/
theorem engineStep_output (ht : engineStep s = .next t) : StepOutput s t := by
  revert ht
  unfold engineStep
  cases he : s.estate with
  | idle =>
    rintro ⟨⟩
    exact .silent rfl
  | decode => exact fun ht => .silent (stepDecode_out ht)
  | dLkp => exact fun ht => .silent (stepDLkp_dictFrame (T := True) (R := True) (L := True) trivial trivial t ht).out
  | dLpm => exact fun ht => .silent (stepDLpm_dictFrame (T := True) (R := True) (L := True) trivial trivial t ht).out
  | cInit =>
    rintro ⟨⟩
    exact .silent rfl
  | cScan => exact fun ht => .silent (stepCScan_out ht)
  | cWalk => exact stepCWalk_output he
  | cEof =>
    rintro ⟨⟩
    exact .writes [_] (by simp [he]) (by simp) rfl rfl
  | cClose =>
    rintro ⟨⟩
    exact .closes (.inl he)
  | eInit =>
    rintro ⟨⟩
    exact .silent rfl
  | eFirst => exact fun ht => .silent (stepEFirst_out ht)
  | eEmit => exact stepEEmit_output he
  | eLook => exact fun ht => .silent (stepELook_out ht)
  | eClose =>
    rintro ⟨⟩
    exact .closes (.inr he)

end

/-- Settles O51: past DECODE no error is pending (R249), so a step that leaves one is among those that write nothing. -/
theorem closeOnlyEndsASuccessfulJob : Obligations.CloseOnlyEndsASuccessfulJob := by
  intro s t hinv _ ht
  cases engineStep_output ht with
  | silent hout => exact ⟨[], by simp [hout], by simp, fun _ => rfl⟩
  | writes es hrun hes herr hout =>
    obtain ⟨-, hno, -⟩ := hinv.running rfl hrun
    exact ⟨es, hout, fun hc => absurd hc hes, fun h => by simp [herr, hno] at h⟩
  | closes he =>
    obtain ⟨-, hno, -⟩ := hinv.running rfl (by rcases he with he | he <;> simp [he])
    exact ⟨[.close], rfl, fun _ => ⟨rfl, he, rfl, rfl⟩, fun h => by simp [hno] at h⟩

end Sys2Proof.Machine
end

section
/-!
Every job ends (70_reset_and_hazards.md R286): each engine step leaves fewer steps before the job than it found.
-/

namespace Sys2Proof.Machine

section

variable {s t u : State}

/-- The steps an engine state has before it at most, the items still to be read apart. -/
def EState.jobRank : EState → Nat
  | .decode => 5
  | .dLkp => 1
  | .dLpm => 1
  | .eInit => 2
  | .eFirst => 1
  | .eEmit => 2
  | .eLook => 1
  | .eClose => 1
  | e => e.compressRank

/-- The steps a job has before it at most: two for each item still to be read, and those of its state. -/
def State.jobFuel (s : State) : Nat := 2 * (s.symIn.length + s.codeIn.length) + s.estate.jobRank

theorem EState.jobRank_le (e : EState) : e.jobRank ≤ 5 := by cases e <;> decide

theorem EState.jobRank_lt_of_ne_decode {e : EState} (he : e ≠ .decode) : e.jobRank < 5 := by
  cases e with
  | decode => exact absurd rfl he
  | _ => decide

theorem EState.jobRank_pos {e : EState} (he : e ≠ .idle) : 0 < e.jobRank := by
  cases e with
  | idle => exact absurd rfl he
  | _ => decide

/-- An engine step adds no item to the input ports (10_state.md R47, R48). -/
theorem EngineFrame.length_symIn_le (h : EngineFrame s t) : t.symIn.length ≤ s.symIn.length := by
  rcases h.symIn with hs | hs <;> simp [hs]

theorem EngineFrame.length_codeIn_le (h : EngineFrame s t) : t.codeIn.length ≤ s.codeIn.length := by
  rcases h.codeIn with hs | ⟨hs, -⟩ <;> simp [hs]

theorem EngineFrame.jobFuel_lt (h : EngineFrame s t) (hrank : t.estate.jobRank < s.estate.jobRank) :
    t.jobFuel < s.jobFuel := by
  have hsym := h.length_symIn_le
  have hcode := h.length_codeIn_le
  unfold State.jobFuel
  omega

/-- The step that ends a job leaves nothing before it but items nobody reads. -/
theorem jobFuel_lt_of_idle (hs : s.estate ≠ .idle) (ht : engineStep s = .next t) (hi : t.estate = .idle) :
    t.jobFuel < s.jobFuel :=
  (engineStep_frame t ht).jobFuel_lt (by rw [hi]; exact EState.jobRank_pos hs)

/-! ### State DECODE -/

theorem insertEdge_estate (s : State) (p : NodeRef) (x : Sym) : (insertEdge s p x).estate = .idle := by
  rcases insertEdge_cases s p x with ⟨q, -, -, hs⟩ | ⟨-, ⟨c, -, hs⟩ | ⟨-, ⟨-, hs⟩ | ⟨-, hs⟩⟩⟩ <;> rw [hs] <;> rfl

theorem startCodec_estate (w : Nat) (first : EState) (s : State) :
    (s.startCodec w first).estate = first ∨ (s.startCodec w first).estate = .idle := by
  rcases s.startCodec_cases w first with ⟨-, hs⟩ | ⟨-, hs⟩ <;> rw [hs]
  · exact .inl rfl
  · exact .inr rfl

/-- A first step leaves DECODE (43_control.md R225). -/
theorem exec_leaves_decode {i : Instr} (ht : exec i s = .next t) : t.estate ≠ .decode := by
  have hcodec (w : Nat) {first : EState} (hf : first ≠ .decode) : (s.startCodec w first).estate ≠ .decode := by
    rcases startCodec_estate w first s with h | h <;> rw [h]
    · exact hf
    · nofun
  cases i with
  | nop => cases ht; nofun
  | clear => cases ht; nofun
  | dSeed => cases ht; nofun
  | dInsert =>
    simp only [exec, execDInsert] at ht
    split_ifs at ht <;> cases ht
    · nofun
    · nofun
    · nofun
    · simp [insertEdge_estate]
  | dChild =>
    simp only [exec, execDChild] at ht
    split_ifs at ht <;> cases ht <;> nofun
  | dLookup =>
    simp only [exec, execDLookup] at ht
    split_ifs at ht <;> cases ht <;> nofun
  | dLpm => cases ht; nofun
  | cCompress w => cases ht; exact hcodec w (by nofun)
  | cExpand w => cases ht; exact hcodec w (by nofun)

theorem stepDecode_leaves_decode (ht : stepDecode s = .next t) : t.estate ≠ .decode := by
  unfold stepDecode at ht
  cases hd : decode s.lcmd with
  | error e => rw [hd] at ht; cases ht; nofun
  | ok i => rw [hd] at ht; exact exec_leaves_decode ht

/-! ### The walks (40_dictionary.md R116, R117) -/

theorem finishWalk_estate {n : Word} (ht : finishWalk s n = .next t) : t.estate = .idle := by
  rcases finishWalk_cases s n with ⟨-, hs⟩ | ⟨c, -, hs⟩ <;> cases hs.symm.trans ht
  rfl

/-- What a step of a walk command does: the command ends, or the walk goes on and has consumed a symbol. -/
def WalksOn (s t : State) : Prop :=
  t.estate = .idle ∨ (t.estate = s.estate ∧ t.codeIn = s.codeIn ∧ t.symIn.length + 1 = s.symIn.length)

theorem stepDLkp_walksOn (ht : stepDLkp s = .next t) : WalksOn s t := by
  rcases stepDLkp_cases s with ⟨-, hs⟩ | ⟨-, ⟨-, hs⟩ | ⟨x, rest, -, -, hs⟩ | ⟨x, rest, c, hin, -, hs⟩⟩
  · exact .inl (finishWalk_estate (hs.symm.trans ht))
  · cases hs.symm.trans ht
    exact .inl rfl
  · cases hs.symm.trans ht
    exact .inl rfl
  · cases hs.symm.trans ht
    exact .inr ⟨rfl, rfl, by simp [hin]⟩

theorem stepDLpm_walksOn (ht : stepDLpm s = .next t) : WalksOn s t := by
  rcases stepDLpm_cases s with
    ⟨x, rest, c, hin, -, hs⟩ | ⟨-, -, hs⟩ | ⟨-, -, hs⟩ | ⟨x, rest, -, -, -, hs⟩
  · cases hs.symm.trans ht
    exact .inr ⟨rfl, rfl, by simp [hin]⟩
  · exact .inl (finishWalk_estate (hs.symm.trans ht))
  · cases hs.symm.trans ht
    exact .inl rfl
  · cases hs.symm.trans ht
    exact .inl rfl

theorem WalksOn.jobFuel_lt (h : WalksOn s t) (hi : s.estate ≠ .idle) (ht : engineStep s = .next t) :
    t.jobFuel < s.jobFuel := by
  rcases h with hidle | ⟨he, hcode, hsym⟩
  · exact jobFuel_lt_of_idle hi ht hidle
  · simp only [State.jobFuel, he, hcode]
    omega

/-! ### The expand machine (42_expand.md R182) -/

/-- What the two steps that read a code do (R184, R186): the job ends, or the code read is used. -/
def UsesCode (s t : State) : Prop :=
  t.estate = .idle ∨
    ((t.estate = .eEmit ∨ t.estate = .eClose) ∧ t.symIn = s.symIn ∧ t.codeIn.length + 1 = s.codeIn.length)

theorem stepEFirst_usesCode (ht : stepEFirst s = .next t) : UsesCode s t := by
  rcases stepEFirst_cases s with ⟨-, hs⟩ | ⟨x, rest, v, hin, -, ⟨-, hs⟩ | ⟨-, -, hs⟩ | ⟨-, -, hs⟩⟩ <;>
    cases hs.symm.trans ht
  · exact .inl rfl
  · exact .inr ⟨.inr rfl, rfl, by simp [hin]⟩
  · exact .inr ⟨.inl rfl, rfl, by simp [hin]⟩
  · exact .inl rfl

/-- With room in the table a lookahead is emitted next, or the job ends (R187). -/
theorem lookGrow_emits {v : Code} (ht : lookGrow u v = .next t) :
    t.estate = .idle ∨ (t.estate = .eEmit ∧ t.symIn = u.symIn ∧ t.codeIn = u.codeIn) := by
  cases hxs : Table.get u.dtab u.code with
  | none => simp [lookGrow, hxs] at ht
  | some xs =>
    rcases lookGrow_cases v hxs with ⟨ys, -, hs⟩ | ⟨-, hs⟩ <;> cases hs.symm.trans ht
    · exact .inr ⟨rfl, rfl, rfl⟩
    · exact .inl rfl

/-- So it is with a full table (R188). -/
theorem lookFrozen_emits {v : Code} (ht : lookFrozen u v = .next t) :
    t.estate = .idle ∨ (t.estate = .eEmit ∧ t.symIn = u.symIn ∧ t.codeIn = u.codeIn) := by
  rcases lookFrozen_cases u v with ⟨-, hs⟩ | ⟨-, hs⟩ <;> cases hs.symm.trans ht
  · exact .inr ⟨rfl, rfl, rfl⟩
  · exact .inl rfl

theorem stepELook_usesCode (ht : stepELook s = .next t) : UsesCode s t := by
  rcases stepELook_cases s with ⟨-, hs⟩ | ⟨x, rest, v, hin, -, hread⟩
  · cases hs.symm.trans ht
    exact .inl rfl
  · have hemits (h : t.estate = .idle ∨ (t.estate = .eEmit ∧ t.symIn = s.symIn ∧ t.codeIn = rest)) : UsesCode s t :=
      h.imp_right fun ⟨he, hsym, hcode⟩ => ⟨.inl he, hsym, by simp [hcode, hin]⟩
    rcases hread with ⟨-, hs⟩ | ⟨-, -, hs⟩ | ⟨-, -, hs⟩
    · cases hs.symm.trans ht
      exact .inr ⟨.inr rfl, rfl, by simp [hin]⟩
    · exact hemits (lookGrow_emits (hs.symm.trans ht))
    · exact hemits (lookFrozen_emits (hs.symm.trans ht))

/-- A code read outweighs the emission it is read for. -/
theorem UsesCode.jobFuel_lt (h : UsesCode s t) (hs : s.estate = .eFirst ∨ s.estate = .eLook)
    (ht : engineStep s = .next t) : t.jobFuel < s.jobFuel := by
  rcases h with hidle | ⟨he, hsym, hcode⟩
  · exact jobFuel_lt_of_idle (by rcases hs with hs | hs <;> simp [hs]) ht hidle
  · have hranks : t.estate.jobRank ≤ 2 ∧ s.estate.jobRank = 1 := by
      rcases he with he | he <;> rcases hs with hs | hs <;> simp [he, hs, EState.jobRank]
    simp only [State.jobFuel, hsym]
    omega

/-! ### Every step of a job -/

theorem EState.jobRank_of_compressing {e : EState} (he : e.Compressing) : e.jobRank = e.compressRank := by
  rcases he with rfl | rfl | rfl | rfl | rfl <;> rfl

theorem Inv.jobFuel_lt_of_compressing (hinv : Inv s) (hs : s.estate.Compressing) (hi : s.estate ≠ .idle)
    (ht : engineStep s = .next t) : t.jobFuel < s.jobFuel := by
  obtain ⟨t', ht', -, hgoes⟩ := hinv.engineStep_compressing hs
  cases ht.symm.trans ht'
  rcases hgoes with ⟨hcompressing, hfuel⟩ | ⟨hidle, -⟩
  · have hcode : t.codeIn.length ≤ s.codeIn.length := (engineStep_frame t ht).length_codeIn_le
    simp only [State.compressFuel] at hfuel
    simp only [State.jobFuel, EState.jobRank_of_compressing hs, EState.jobRank_of_compressing hcompressing]
    omega
  · exact jobFuel_lt_of_idle hi ht hidle

/-- An engine step of a job leaves less before the job than it found (R286). -/
theorem Inv.engineStep_jobFuel_lt (hinv : Inv s) (hi : s.estate ≠ .idle) (ht : engineStep s = .next t) :
    t.jobFuel < s.jobFuel := by
  have hframe := engineStep_frame t ht
  have hstep := ht
  unfold engineStep at hstep
  cases he : s.estate <;> rw [he] at hstep
  case idle => exact absurd he hi
  case decode =>
    refine hframe.jobFuel_lt ?_
    rw [he]
    exact EState.jobRank_lt_of_ne_decode (stepDecode_leaves_decode hstep)
  case dLkp => exact (stepDLkp_walksOn hstep).jobFuel_lt hi ht
  case dLpm => exact (stepDLpm_walksOn hstep).jobFuel_lt hi ht
  case eInit => cases hstep; exact hframe.jobFuel_lt (by simp [he, EState.jobRank])
  case eFirst => exact (stepEFirst_usesCode hstep).jobFuel_lt (.inl he) ht
  case eEmit =>
    have hlook : t.estate = .eLook := by
      cases hxs : Table.get s.dtab s.code with
      | none => simp [stepEEmit, hxs] at hstep
      | some xs => cases (stepEEmit_of_bound hxs).symm.trans hstep; rfl
    exact hframe.jobFuel_lt (by rw [he, hlook]; decide)
  case eLook => exact (stepELook_usesCode hstep).jobFuel_lt (.inr he) ht
  case eClose => cases hstep; exact jobFuel_lt_of_idle hi ht rfl
  all_goals exact hinv.jobFuel_lt_of_compressing (by simp [he, EState.Compressing]) hi ht

theorem Inv.engineRun_idle_within_jobFuel (hinv : Inv s) :
    ∃ n t, n ≤ s.jobFuel ∧ engineRun n s = .next t ∧ t.estate = .idle := by
  induction hf : s.jobFuel using Nat.strong_induction_on generalizing s with
  | _ f ih =>
    by_cases hi : s.estate = .idle
    · exact ⟨0, s, Nat.zero_le _, rfl, hi⟩
    · obtain ⟨t, ht, hinvt⟩ := hinv.engineStep_answers
      have hlt := hinv.engineStep_jobFuel_lt hi ht
      obtain ⟨n, z, hn, hrun, hz⟩ := ih _ (hf ▸ hlt) hinvt rfl
      exact ⟨n + 1, z, by omega, (engineRun_succ_of_step ht).trans hrun, hz⟩

end

/-- Settles O60: the steps before a job are two for each item still to be read and at most five for its state. -/
theorem everyJobTerminates : Obligations.EveryJobTerminates := by
  intro s hinv
  obtain ⟨n, t, hn, hrun, hidle⟩ := hinv.engineRun_idle_within_jobFuel
  exact ⟨n, t, hn.trans (Nat.add_le_add_left s.estate.jobRank_le _), hrun, hidle⟩

end Sys2Proof.Machine
end

section
/-!
Reset (70_reset_and_hazards.md R270 to R272) and operand writes during a job (R276): a reset leaves the registers as
10_state.md R53 lists them, and no engine step reads or writes `ARG_P`, `ARG_S` or `ARG_C`.
-/

namespace Sys2Proof.Machine

/-! ### Reset -/

section

variable {s : State}

/-- After a reset `STATUS` reads 0, `FULL` with it: `MAX_CODE` is not 0 (00_scope.md R8). -/
theorem readValue_status_platformReset (hl : s.cfg.legal = true) : readValue s.platformReset 0x04 = 0#32 := by
  obtain ⟨-, -, hmax, -⟩ := Config.legal_iff.mp hl
  have hfull : fullFlag s.platformReset = false := by
    rw [fullFlag, decide_eq_false_iff_not]
    exact (by omega : (0 : Nat) ≠ s.cfg.maxCode)
  calc readValue s.platformReset 0x04
      = statusWith s.platformReset (fullFlag s.platformReset) := readValue_of_idle (s := s.platformReset) rfl .status
    _ = statusWith s.platformReset false := by rw [hfull]
    _ = 0#32 := by simp [statusWith]

end

/-- Settles O55: each register is a field of the state a reset leaves, and the two reads are views of them. -/
theorem resetAbandonsTheJob : Obligations.ResetAbandonsTheJob := by
  intro s rest hl ha
  refine ⟨_, step_of_agenda_cons hl ha, rfl, rfl, rfl, rfl, rfl, rfl, rfl, rfl, rfl, rfl, rfl, rfl, rfl, rfl, rfl, rfl,
    rfl, rfl, rfl, rfl, rfl, ?_, ?_⟩
  · exact readValue_status_platformReset hl
  · exact readValue_param _

/-! ### The operand registers -/

/-- `s` with other operand registers. -/
def State.withOperands (a b c : Word) (s : State) : State := { s with argP := a, argS := b, argC := c }

/-- A step's outcome with `f` done to the next state. -/
def Result.map (f : State → State) : Result → Result
  | .next t => .next (f t)
  | .fault x => .fault x
  | .refused r => .refused r

section

variable {s : State} {a b c : Word}

/-! No register an engine step reads is one of the three. -/

@[simp] theorem State.withOperands_cfg : (s.withOperands a b c).cfg = s.cfg := rfl
@[simp] theorem State.withOperands_estate : (s.withOperands a b c).estate = s.estate := rfl
@[simp] theorem State.withOperands_cur : (s.withOperands a b c).cur = s.cur := rfl
@[simp] theorem State.withOperands_len : (s.withOperands a b c).len = s.len := rfl
@[simp] theorem State.withOperands_code : (s.withOperands a b c).code = s.code := rfl
@[simp] theorem State.withOperands_lcmd : (s.withOperands a b c).lcmd = s.lcmd := rfl
@[simp] theorem State.withOperands_lp : (s.withOperands a b c).lp = s.lp := rfl
@[simp] theorem State.withOperands_ls : (s.withOperands a b c).ls = s.ls := rfl
@[simp] theorem State.withOperands_lc : (s.withOperands a b c).lc = s.lc := rfl
@[simp] theorem State.withOperands_wl : (s.withOperands a b c).wl = s.wl := rfl
@[simp] theorem State.withOperands_cnt : (s.withOperands a b c).cnt = s.cnt := rfl
@[simp] theorem State.withOperands_trie : (s.withOperands a b c).trie = s.trie := rfl
@[simp] theorem State.withOperands_dtab : (s.withOperands a b c).dtab = s.dtab := rfl
@[simp] theorem State.withOperands_symPeek : (s.withOperands a b c).symPeek = s.symPeek := rfl
@[simp] theorem State.withOperands_codeIn : (s.withOperands a b c).codeIn = s.codeIn := rfl

theorem insertEdge_withOperands (p : NodeRef) (x : Sym) :
    insertEdge (s.withOperands a b c) p x = (insertEdge s p x).withOperands a b c := by
  unfold insertEdge
  rw [State.withOperands_trie, State.withOperands_lc]
  cases unboundParent s.trie p with
  | some q => rfl
  | none =>
    cases child s.trie p x with
    | some v => rfl
    | none => dsimp only; split_ifs <;> rfl

theorem execDInsert_withOperands :
    execDInsert (s.withOperands a b c) = (execDInsert s).map (State.withOperands a b c) := by
  unfold execDInsert
  rw [insertEdge_withOperands, State.withOperands_cfg, State.withOperands_lp, State.withOperands_ls,
    State.withOperands_lc]
  split_ifs <;> rfl

theorem execDChild_withOperands :
    execDChild (s.withOperands a b c) = (execDChild s).map (State.withOperands a b c) := by
  unfold execDChild
  rw [State.withOperands_cfg, State.withOperands_lp, State.withOperands_ls]
  split_ifs <;> rfl

theorem execDLookup_withOperands :
    execDLookup (s.withOperands a b c) = (execDLookup s).map (State.withOperands a b c) := by
  unfold execDLookup
  rw [State.withOperands_lc]
  split_ifs <;> rfl

theorem startCodec_withOperands (w : Nat) (first : EState) :
    (s.withOperands a b c).startCodec w first = (s.startCodec w first).withOperands a b c := by
  unfold State.startCodec
  rw [State.withOperands_cfg]
  split_ifs <;> rfl

theorem exec_withOperands (i : Instr) :
    exec i (s.withOperands a b c) = Result.map (State.withOperands a b c) (exec i s) := by
  cases i with
  | nop => rfl
  | clear => rfl
  | dSeed => rfl
  | dInsert => exact execDInsert_withOperands
  | dChild => exact execDChild_withOperands
  | dLookup => exact execDLookup_withOperands
  | dLpm => rfl
  | cCompress w => exact congrArg Host.Outcome.next (startCodec_withOperands w _)
  | cExpand w => exact congrArg Host.Outcome.next (startCodec_withOperands w _)

theorem stepDecode_withOperands :
    stepDecode (s.withOperands a b c) = (stepDecode s).map (State.withOperands a b c) := by
  dsimp only [stepDecode, State.withOperands_lcmd]
  cases decode s.lcmd with
  | error e => rfl
  | ok i => exact exec_withOperands i

theorem finishWalk_withOperands (n : Word) :
    finishWalk (s.withOperands a b c) n = (finishWalk s n).map (State.withOperands a b c) := by
  dsimp only [finishWalk, State.withOperands_cur]
  cases s.cur <;> rfl

@[simp] theorem State.withOperands_walkStep : (s.withOperands a b c).walkStep = s.walkStep := rfl

theorem stepDLkp_withOperands : stepDLkp (s.withOperands a b c) = (stepDLkp s).map (State.withOperands a b c) := by
  unfold stepDLkp
  rw [finishWalk_withOperands, State.withOperands_cnt, State.withOperands_lc, State.withOperands_symPeek,
    State.withOperands_trie, State.withOperands_cur]
  split_ifs
  · rfl
  · cases s.symPeek with
    | none => rfl
    | some x => dsimp only; cases child s.trie s.cur x <;> rfl

theorem stepDLpm_withOperands : stepDLpm (s.withOperands a b c) = (stepDLpm s).map (State.withOperands a b c) := by
  unfold stepDLpm
  rw [finishWalk_withOperands, State.withOperands_walkStep, State.withOperands_len]
  cases s.walkStep with
  | go v => rfl
  | stopEnd => dsimp only; split_ifs <;> rfl
  | stopAt x => dsimp only; split_ifs <;> rfl

theorem stepCScan_withOperands : stepCScan (s.withOperands a b c) = (stepCScan s).map (State.withOperands a b c) := by
  dsimp only [stepCScan, State.withOperands_symPeek]
  cases s.symPeek <;> rfl

theorem growTrie_withOperands (m : Code) (x : Sym) :
    growTrie (s.withOperands a b c) m x = (growTrie s m x).withOperands a b c := by
  have hroom : hasRoom (s.withOperands a b c) = hasRoom s := rfl
  rw [growTrie, growTrie, hroom]
  split_ifs <;> rfl

theorem stepCWalk_withOperands : stepCWalk (s.withOperands a b c) = (stepCWalk s).map (State.withOperands a b c) := by
  dsimp only [stepCWalk, State.withOperands_cur, State.withOperands_walkStep]
  cases s.cur with
  | root => rfl
  | node m =>
    cases s.walkStep with
    | stopEnd => rfl
    | go v => rfl
    | stopAt x =>
      have hgrow := growTrie_withOperands (s := s.codeWrite m) (a := a) (b := b) (c := c) m x
      exact congrArg (fun u : State => Host.Outcome.next { u with estate := .cScan }) hgrow

theorem stepEFirst_withOperands :
    stepEFirst (s.withOperands a b c) = (stepEFirst s).map (State.withOperands a b c) := by
  unfold stepEFirst State.codeRead
  rw [State.withOperands_codeIn, State.withOperands_wl, State.withOperands_cfg]
  cases s.codeIn with
  | nil => rfl
  | cons x rest => dsimp only; split_ifs <;> rfl

theorem stepEEmit_withOperands : stepEEmit (s.withOperands a b c) = (stepEEmit s).map (State.withOperands a b c) := by
  dsimp only [stepEEmit, State.withOperands_dtab, State.withOperands_code]
  cases Table.get s.dtab s.code <;> rfl

theorem lookGrow_withOperands (v : Code) :
    lookGrow (s.withOperands a b c) v = (lookGrow s v).map (State.withOperands a b c) := by
  dsimp only [lookGrow, State.withOperands_dtab, State.withOperands_code]
  cases Table.get s.dtab s.code with
  | none => rfl
  | some xs =>
    have hsame : lookaheadSeq (s.withOperands a b c) xs v = lookaheadSeq s xs v := rfl
    simp only [hsame]
    cases lookaheadSeq s xs v <;> rfl

theorem lookFrozen_withOperands (v : Code) :
    lookFrozen (s.withOperands a b c) v = (lookFrozen s v).map (State.withOperands a b c) := by
  have hsame : definedSeq (s.withOperands a b c) v = definedSeq s v := rfl
  rw [lookFrozen, lookFrozen, hsame]
  cases definedSeq s v <;> rfl

theorem stepELook_withOperands : stepELook (s.withOperands a b c) = (stepELook s).map (State.withOperands a b c) := by
  have hroom : hasRoom (s.withOperands a b c) = hasRoom s := rfl
  unfold stepELook State.codeRead
  rw [hroom, State.withOperands_codeIn, State.withOperands_wl, State.withOperands_cfg]
  cases s.codeIn with
  | nil => rfl
  | cons x rest =>
    dsimp only
    split_ifs
    · rfl
    · exact lookGrow_withOperands (s := { s with codeIn := rest, cnt := s.cnt + 1 }) _
    · exact lookFrozen_withOperands (s := { s with codeIn := rest, cnt := s.cnt + 1 }) _

/-- An engine step does to a state with other operand registers what it does to the state, and keeps them (R276). -/
theorem engineStep_withOperands :
    engineStep (s.withOperands a b c) = (engineStep s).map (State.withOperands a b c) := by
  dsimp only [engineStep, State.withOperands_estate]
  cases s.estate with
  | decode => exact stepDecode_withOperands
  | dLkp => exact stepDLkp_withOperands
  | dLpm => exact stepDLpm_withOperands
  | cScan => exact stepCScan_withOperands
  | cWalk => exact stepCWalk_withOperands
  | eFirst => exact stepEFirst_withOperands
  | eEmit => exact stepEEmit_withOperands
  | eLook => exact stepELook_withOperands
  | _ => rfl

end

/-- Settles O10: with the operand registers the state has, the step keeps them; with any others it gives the same. -/
theorem runningJobIgnoresOperandRegisters : Obligations.RunningJobIgnoresOperandRegisters := by
  intro s t a b c ht
  have hstep (a b c : Word) : engineStep (s.withOperands a b c) = .next (t.withOperands a b c) := by
    rw [engineStep_withOperands, ht]
    rfl
  have hkept : t = t.withOperands s.argP s.argS s.argC := Host.Outcome.next.inj (ht.symm.trans (hstep _ _ _))
  exact ⟨(congrArg State.argP hkept :), (congrArg State.argS hkept :), (congrArg State.argC hkept :), hstep a b c⟩

end Sys2Proof.Machine
end

section
/-!
What the registers that reset leaves unspecified hold in an idle block never shows (70_reset_and_hazards.md R271): no
rule reads one of them before the job has written it. Two states are compared with every register masked that the job,
where it stands, has not written yet or does not need any more; each transition respects the comparison.
-/

namespace Sys2Proof.Machine

/-- Which of the registers that 10_state.md R53 leaves unspecified a job needs: their values are read before they are
written again. -/
structure ScratchNeeds where
  cur : Bool := false
  len : Bool := false
  code : Bool := false
  latches : Bool := false
  wl : Bool := false
  cnt : Bool := false

/-- What a job needs in each engine state (10_state.md R35 to R40). -/
def EState.needs : EState → ScratchNeeds
  | .idle => {}
  | .decode => { latches := true }
  | .dLkp => { latches := true, cur := true, cnt := true }
  | .dLpm => { cur := true, len := true }
  | .cInit => { wl := true }
  | .cScan => { wl := true }
  | .cWalk => { wl := true, cur := true }
  | .cEof => { wl := true }
  | .cClose => {}
  | .eInit => { wl := true }
  | .eFirst => { wl := true }
  | .eEmit => { wl := true, code := true, cnt := true }
  | .eLook => { wl := true, code := true, cnt := true }
  | .eClose => {}

/-- `s` with every unspecified register masked that its engine state does not need. -/
def State.masked (s : State) : State :=
  { s with
    cur := if s.estate.needs.cur then s.cur else .root
    len := if s.estate.needs.len then s.len else 0
    code := if s.estate.needs.code then s.code else 0
    lcmd := if s.estate.needs.latches then s.lcmd else 0
    lp := if s.estate.needs.latches then s.lp else 0
    ls := if s.estate.needs.latches then s.ls else 0
    lc := if s.estate.needs.latches then s.lc else 0
    wl := if s.estate.needs.wl then s.wl else 0
    cnt := if s.estate.needs.cnt then s.cnt else 0 }

/-- Two outcomes that agree up to the masked registers. -/
def Result.Alike (r r' : Result) : Prop := r.map State.masked = r'.map State.masked

section

variable {s s' t t' u u' : State}

/-! Every other register is as it was, and so is one the engine state needs. -/

@[simp] theorem State.masked_cfg : s.masked.cfg = s.cfg := rfl
@[simp] theorem State.masked_busy : s.masked.busy = s.busy := rfl
@[simp] theorem State.masked_estate : s.masked.estate = s.estate := rfl
@[simp] theorem State.masked_trie : s.masked.trie = s.trie := rfl
@[simp] theorem State.masked_dtab : s.masked.dtab = s.dtab := rfl
@[simp] theorem State.masked_codeIn : s.masked.codeIn = s.codeIn := rfl
@[simp] theorem State.masked_agenda : s.masked.agenda = s.agenda := rfl
@[simp] theorem State.masked_symPeek : s.masked.symPeek = s.symPeek := rfl

theorem State.masked_cur (hn : s.estate.needs.cur = true) : s.masked.cur = s.cur := if_pos hn
theorem State.masked_len (hn : s.estate.needs.len = true) : s.masked.len = s.len := if_pos hn
theorem State.masked_code (hn : s.estate.needs.code = true) : s.masked.code = s.code := if_pos hn
theorem State.masked_lcmd (hn : s.estate.needs.latches = true) : s.masked.lcmd = s.lcmd := if_pos hn
theorem State.masked_lp (hn : s.estate.needs.latches = true) : s.masked.lp = s.lp := if_pos hn
theorem State.masked_ls (hn : s.estate.needs.latches = true) : s.masked.ls = s.ls := if_pos hn
theorem State.masked_lc (hn : s.estate.needs.latches = true) : s.masked.lc = s.lc := if_pos hn
theorem State.masked_wl (hn : s.estate.needs.wl = true) : s.masked.wl = s.wl := if_pos hn
theorem State.masked_cnt (hn : s.estate.needs.cnt = true) : s.masked.cnt = s.cnt := if_pos hn

@[simp] theorem Result.alike_next : Result.Alike (.next t) (.next t') ↔ t.masked = t'.masked := by
  simp [Result.Alike, Result.map]

theorem State.masked_masked (s : State) : s.masked.masked = s.masked := by
  simp +contextual [State.masked]

/-! ### The first steps -/

theorem startCodec_masked (w : Nat) {first : EState} (hf : first = .cInit ∨ first = .eInit) :
    (s.masked.startCodec w first).masked = (s.startCodec w first).masked := by
  unfold State.startCodec
  rw [State.masked_cfg]
  split_ifs
  · rcases hf with rfl | rfl <;> rfl
  · rfl

section

variable (he : s.estate = .decode)

include he

theorem insertEdge_masked (p : NodeRef) (x : Sym) : (insertEdge s.masked p x).masked = (insertEdge s p x).masked := by
  unfold insertEdge
  rw [State.masked_trie, State.masked_lc (he ▸ rfl)]
  cases unboundParent s.trie p with
  | some q => rfl
  | none =>
    cases child s.trie p x with
    | some v => rfl
    | none => dsimp only; split_ifs <;> rfl

theorem execDInsert_masked : (execDInsert s.masked).Alike (execDInsert s) := by
  unfold execDInsert
  rw [State.masked_cfg, State.masked_lp (he ▸ rfl), State.masked_ls (he ▸ rfl),
    State.masked_lc (he ▸ rfl)]
  split_ifs
  · rfl
  · rfl
  · rfl
  · exact Result.alike_next.mpr (insertEdge_masked he _ _)

theorem execDChild_masked : (execDChild s.masked).Alike (execDChild s) := by
  unfold execDChild
  rw [State.masked_cfg, State.masked_lp (he ▸ rfl), State.masked_ls (he ▸ rfl)]
  split_ifs <;> rfl

theorem execDLookup_masked : (execDLookup s.masked).Alike (execDLookup s) := by
  unfold execDLookup
  rw [State.masked_lc (he ▸ rfl)]
  split_ifs
  · rfl
  · simp [State.masked, he, EState.needs]

theorem exec_masked (i : Instr) : Result.Alike (exec i s.masked) (exec i s) := by
  cases i with
  | nop => rfl
  | clear => rfl
  | dSeed => rfl
  | dInsert => exact execDInsert_masked he
  | dChild => exact execDChild_masked he
  | dLookup => exact execDLookup_masked he
  | dLpm => rfl
  | cCompress w => exact Result.alike_next.mpr (startCodec_masked w (.inl rfl))
  | cExpand w => exact Result.alike_next.mpr (startCodec_masked w (.inr rfl))

theorem stepDecode_masked : (stepDecode s.masked).Alike (stepDecode s) := by
  unfold stepDecode
  rw [State.masked_lcmd (he ▸ rfl)]
  cases decode s.lcmd with
  | error e => rfl
  | ok i => exact exec_masked he i

end

/-! ### The walks -/

theorem finishWalk_masked (hn : s.estate.needs.cur = true) (n : Word) :
    (finishWalk s.masked n).Alike (finishWalk s n) := by
  unfold finishWalk
  rw [State.masked_cur hn]
  cases s.cur <;> rfl

theorem State.walkStep_masked (hn : s.estate.needs.cur = true) : s.masked.walkStep = s.walkStep := by
  unfold State.walkStep
  rw [State.masked_cur hn, State.masked_symPeek, State.masked_trie]

theorem stepDLkp_masked (he : s.estate = .dLkp) : (stepDLkp s.masked).Alike (stepDLkp s) := by
  have hcur : s.estate.needs.cur = true := he ▸ rfl
  unfold stepDLkp
  rw [State.masked_cnt (he ▸ rfl), State.masked_lc (he ▸ rfl), State.masked_symPeek, State.masked_trie,
    State.masked_cur hcur]
  split_ifs
  · exact finishWalk_masked hcur _
  · cases s.symPeek with
    | none => rfl
    | some x =>
      dsimp only
      cases child s.trie s.cur x with
      | none => rfl
      | some v => simp [State.masked, he, EState.needs]

theorem stepDLpm_masked (he : s.estate = .dLpm) : (stepDLpm s.masked).Alike (stepDLpm s) := by
  have hcur : s.estate.needs.cur = true := he ▸ rfl
  unfold stepDLpm
  rw [State.walkStep_masked hcur, State.masked_len (he ▸ rfl)]
  cases s.walkStep with
  | go v => simp [State.masked, he, EState.needs]
  | stopEnd =>
    dsimp only
    split_ifs
    · rfl
    · exact finishWalk_masked hcur _
  | stopAt x =>
    dsimp only
    split_ifs
    · rfl
    · exact finishWalk_masked hcur _

/-! ### The compress machine -/

theorem stepCScan_masked (he : s.estate = .cScan) : (stepCScan s.masked).Alike (stepCScan s) := by
  unfold stepCScan
  rw [State.masked_symPeek]
  cases s.symPeek <;> simp [State.masked, he, EState.needs]

theorem stepCWalk_masked (he : s.estate = .cWalk) : (stepCWalk s.masked).Alike (stepCWalk s) := by
  have hcur : s.estate.needs.cur = true := he ▸ rfl
  unfold stepCWalk
  rw [State.masked_cur hcur, State.walkStep_masked hcur]
  cases s.cur with
  | root => rfl
  | node m =>
    cases s.walkStep with
    | stopEnd => simp [State.masked, he, EState.needs]
    | go v => simp [State.masked, he, EState.needs]
    | stopAt x =>
      have hroom : hasRoom (s.masked.codeWrite m) = hasRoom (s.codeWrite m) := rfl
      dsimp only [growTrie]
      rw [hroom]
      split_ifs <;> simp [State.masked, he, EState.needs]

/-! ### The expand machine -/

theorem stepEFirst_masked (he : s.estate = .eFirst) : (stepEFirst s.masked).Alike (stepEFirst s) := by
  unfold stepEFirst State.codeRead
  rw [State.masked_codeIn, State.masked_wl (he ▸ rfl), State.masked_cfg]
  cases s.codeIn with
  | nil => rfl
  | cons x rest =>
    dsimp only
    split_ifs
    · rfl
    · simp [State.masked, he, EState.needs]
    · rfl

theorem stepEEmit_masked (he : s.estate = .eEmit) : (stepEEmit s.masked).Alike (stepEEmit s) := by
  unfold stepEEmit
  rw [State.masked_dtab, State.masked_code (he ▸ rfl)]
  cases Table.get s.dtab s.code with
  | none => rfl
  | some xs => simp [State.masked, he, EState.needs]

section

variable (he : s.estate = .eLook)

include he

theorem lookGrow_masked (v : Code) : (lookGrow s.masked v).Alike (lookGrow s v) := by
  unfold lookGrow
  rw [State.masked_dtab, State.masked_code (he ▸ rfl)]
  cases Table.get s.dtab s.code with
  | none => rfl
  | some xs =>
    have hsame : lookaheadSeq s.masked xs v = lookaheadSeq s xs v := rfl
    dsimp only
    rw [hsame]
    cases lookaheadSeq s xs v with
    | none => rfl
    | some ys => simp [State.masked, he, EState.needs]

theorem lookFrozen_masked (v : Code) : (lookFrozen s.masked v).Alike (lookFrozen s v) := by
  have hsame : definedSeq s.masked v = definedSeq s v := rfl
  unfold lookFrozen
  rw [hsame]
  cases definedSeq s v with
  | none => rfl
  | some ys => simp [State.masked, he, EState.needs]

end

/-- After the read of a lookahead (R186) the two states are alike, and so are the steps that follow it. -/
theorem lookGrow_alike (hu : u.masked = u'.masked) (he : u.estate = .eLook) (v : Code) :
    (lookGrow u v).Alike (lookGrow u' v) := by
  have he' : u'.estate = .eLook := (congrArg State.estate hu).symm.trans he
  exact (lookGrow_masked he v).symm.trans (hu ▸ lookGrow_masked he' v)

theorem lookFrozen_alike (hu : u.masked = u'.masked) (he : u.estate = .eLook) (v : Code) :
    (lookFrozen u v).Alike (lookFrozen u' v) := by
  have he' : u'.estate = .eLook := (congrArg State.estate hu).symm.trans he
  exact (lookFrozen_masked he v).symm.trans (hu ▸ lookFrozen_masked he' v)

theorem stepELook_masked (he : s.estate = .eLook) : (stepELook s.masked).Alike (stepELook s) := by
  have hroom : hasRoom s.masked = hasRoom s := rfl
  unfold stepELook State.codeRead
  rw [hroom, State.masked_cnt (he ▸ rfl), State.masked_codeIn, State.masked_wl (he ▸ rfl),
    State.masked_cfg]
  cases s.codeIn with
  | nil => rfl
  | cons x rest =>
    dsimp only
    split_ifs
    · rfl
    · refine lookGrow_alike ?_ ?_ _
      · simp [State.masked, he, EState.needs]
      · exact he
    · refine lookFrozen_alike ?_ ?_ _
      · simp [State.masked, he, EState.needs]
      · exact he

/-- An engine step reads no register its state does not need (R271). -/
theorem engineStep_masked (s : State) : (engineStep s.masked).Alike (engineStep s) := by
  unfold engineStep
  rw [State.masked_estate]
  cases he : s.estate with
  | idle => exact Result.alike_next.mpr s.masked_masked
  | decode => exact stepDecode_masked he
  | dLkp => exact stepDLkp_masked he
  | dLpm => exact stepDLpm_masked he
  | cInit => simp [stepCInit, State.masked, he, EState.needs]
  | cScan => exact stepCScan_masked he
  | cWalk => exact stepCWalk_masked he
  | cEof => simp [stepCEof, State.masked, he, EState.needs]
  | cClose => rfl
  | eInit => simp [stepEInit, State.masked, he, EState.needs]
  | eFirst => exact stepEFirst_masked he
  | eEmit => exact stepEEmit_masked he
  | eLook => exact stepELook_masked he
  | eClose => rfl

/-! ### The other transitions (R288) -/

theorem readValue_masked (off : Nat) : readValue s.masked off = readValue s off := by
  unfold readValue
  cases csrAt off with
  | none => rfl
  | some x => cases x <;> rfl

theorem hostRead_masked (addr size : Nat) : (hostRead addr size s.masked).Alike (hostRead addr size s) := by
  unfold hostRead
  rw [State.masked_cfg]
  cases accessOffset s.cfg addr size with
  | error r => rfl
  | ok off =>
    dsimp only
    rw [readValue_masked]
    exact Result.alike_next.mpr (s.logRead off _).masked_masked

theorem State.requestCmd_masked (v : Word) : (s.masked.requestCmd v).masked = (s.requestCmd v).masked := by
  have hsame : s.masked.accepts v = s.accepts v := rfl
  unfold State.requestCmd
  rw [hsame]
  split_ifs
  · rfl
  · exact s.drop.masked_masked

theorem writeCsr_masked (v : Word) (x : Csr) : (writeCsr s.masked v x).masked = (writeCsr s v x).masked := by
  cases x with
  | cmd => exact State.requestCmd_masked v
  | argP => exact State.masked_masked { s with argP := v }
  | argS => exact State.masked_masked { s with argS := v }
  | argC => exact State.masked_masked { s with argC := v }
  | _ => exact s.masked_masked

theorem hostWrite_masked (addr size : Nat) (v : Word) :
    (hostWrite addr size v s.masked).Alike (hostWrite addr size v s) := by
  unfold hostWrite
  rw [State.masked_cfg]
  cases accessOffset s.cfg addr size with
  | error r => rfl
  | ok off =>
    refine Result.alike_next.mpr ?_
    unfold writeOffset
    cases csrAt off with
    | none => exact s.masked_masked
    | some x => exact writeCsr_masked v x

theorem hostPoll_masked : (hostPoll s.masked).masked = (hostPoll s).masked := by
  unfold hostPoll
  rw [readValue_masked]
  dsimp only
  split_ifs
  · exact State.masked_masked
      { s.logRead _ (readValue s Csr.status.offset) with agenda := .engine :: .poll :: s.agenda }
  · exact (s.logRead _ _).masked_masked

theorem fillSymIn_masked (xs : List Sym) : (fillSymIn xs s.masked).Alike (fillSymIn xs s) := by
  unfold fillSymIn
  rw [State.masked_busy, State.masked_cfg]
  split_ifs
  · rfl
  · exact Result.alike_next.mpr (State.masked_masked { s with symIn := xs })
  · rfl

theorem fillCodeIn_masked (xs : List Code) : (fillCodeIn xs s.masked).Alike (fillCodeIn xs s) := by
  unfold fillCodeIn
  rw [State.masked_busy]
  split_ifs
  · rfl
  · exact Result.alike_next.mpr (State.masked_masked { s with codeIn := xs })

theorem takeOut_masked : (takeOut s.masked).Alike (takeOut s) := by
  unfold takeOut
  rw [State.masked_busy]
  split_ifs
  · rfl
  · exact Result.alike_next.mpr (State.masked_masked { s with out := [] })

theorem perform_masked (e : Event) : (perform e s.masked).Alike (perform e s) := by
  cases e with
  | engine => exact engineStep_masked s
  | read addr size => exact hostRead_masked addr size
  | write addr size v => exact hostWrite_masked addr size v
  | poll => exact Result.alike_next.mpr hostPoll_masked
  | reset => rfl
  | fillSymIn xs => exact fillSymIn_masked xs
  | fillCodeIn xs => exact fillCodeIn_masked xs
  | takeOut => exact takeOut_masked

theorem step_masked (s : State) : Result.Alike (step s.masked) (step s) := by
  unfold step transition
  rw [State.masked_cfg, State.masked_agenda]
  split_ifs
  · cases s.agenda with
    | nil => exact engineStep_masked s
    | cons e rest => exact perform_masked (s := { s with agenda := rest }) e
  · rfl

/-! ### Runs -/

theorem step_alike (h : s.masked = s'.masked) : Result.Alike (step s) (step s') :=
  (step_masked s).symm.trans (h ▸ step_masked s')

theorem runSteps_alike (h : s.masked = s'.masked) (n : Nat) : (runSteps n s).Alike (runSteps n s') := by
  induction n generalizing s s' with
  | zero => exact Result.alike_next.mpr h
  | succ n ih =>
    have hstep := step_alike h
    unfold runSteps
    cases hs : step s <;> cases hs' : step s' <;> rw [hs, hs'] at hstep
    case next.next t t' => exact ih (Result.alike_next.mp hstep)
    case fault.fault => exact hstep
    case refused.refused => exact hstep
    all_goals cases hstep

theorem State.masked_of_idle (he : s.estate = .idle) : s.masked = s.withoutScratch := by
  simp [State.masked, State.withoutScratch, he, EState.needs]

end

/-- Settles O56: idle blocks that differ in the unspecified registers alone are alike, and so are their runs. -/
theorem unspecifiedRegistersUnobservable : Obligations.UnspecifiedRegistersUnobservable := by
  intro s s' n he h
  have he' : s'.estate = .idle := (congrArg State.estate h).symm.trans he
  have hrun := runSteps_alike (((State.masked_of_idle he).trans h).trans (State.masked_of_idle he').symm) n
  cases hr : runSteps n s <;> cases hr' : runSteps n s' <;> rw [hr, hr'] at hrun
  case next.next t t' => exact (congrArg State.withoutScratch (Result.alike_next.mp hrun) :)
  case fault.fault f f' => cases hrun; rfl
  case refused.refused r r' => cases hrun; rfl
  all_goals cases hrun

end Sys2Proof.Machine
end
